-- ==== Sys2Proof/Word.lean ====
section
/-! DEFINITION. The widths of the hardware: words, bytes, the fields of an instruction word, text. -/

namespace Sys2Proof

/-- An instruction word and a memory slot: `XLEN` = 32 bits (R8, R70). -/
abbrev Word := BitVec 32

/-- One byte lane of a slot (R44). -/
abbrev Byte := BitVec 8

/-- A register index: `REG_IDX_W` = 5 bits, 0 to 31 (R8, R24). -/
abbrev Reg := BitVec 5

/-- The low seven bits of a word (R71). -/
abbrev Opcode := BitVec 7

/-- Bits 14..12 of a word (R71). -/
abbrev Funct3 := BitVec 3

/-- Bits 31..25 of a word (R71). -/
abbrev Funct7 := BitVec 7

/-- The byte enable `be[3:0]` of a masked write; `be[i]` enables bits `8i+7..8i` (R45). -/
abbrev ByteEnable := BitVec 4

/-- Text (assembly source, tokens, names, messages) as its characters in order. -/
abbrev Text := List Char

end Sys2Proof
end

