-- ==== Sys2Proof/Config.lean ====
section
/-! DEFINITION. What is fixed for the machine: the types of the ISA tables and of the parameters of R8, the
error taxonomy of R300, and the free values (opaque constants) for what the spec leaves open. The tables'
contents stand in Decode.lean. -/

namespace Sys2Proof

/-- The format tag (R72); `NONE` is the tag of an opcode that selects no format (R83, D4). -/
inductive Format where
  | R | I | S | B | U | J | NONE
deriving DecidableEq, Repr

/-- The decoder's mnemonic output: the 37 admitted mnemonics of R104 and `unknown` (R120, R128, D28). -/
inductive Mnemonic where
  | add | sub | sll | slt | sltu | xor | srl | sra | or | and
  | addi | slti | sltiu | xori | ori | andi | slli | srli | srai
  | lb | lh | lw | lbu | lhu | jalr
  | sb | sh | sw
  | beq | bne | blt | bge | bltu | bgeu
  | lui | auipc | jal
  | unknown
deriving DecidableEq, Repr

/-- A row of `MNEMONIC_TABLE` (R104). `none` is the table's `-`: the field is no part of the key (R105). -/
structure TableRow where
  mnemonic : Mnemonic
  format   : Format
  opcode   : Opcode
  funct3   : Option Funct3
  funct7   : Option Funct7
deriving DecidableEq, Repr

/-- `U_OPERAND_FORM` (R8, D7): the operand of `lui` and `auipc` is the 20-bit upper immediate, or the full word. -/
inductive UOperandForm where
  | upper20 | full32
deriving DecidableEq, Repr

/-- The configuration: the ISA tables (R22, R100) and the parameters of R8 that are not fixed by a type. -/
structure Config where
  /-- `format_of`: the opcodes that select a format (R101). -/
  formatTable : List (Opcode × Format)
  /-- `MNEMONIC_TABLE` (R104). -/
  mnemonicTable : List TableRow
  /-- The ABI names of the indices 0, 1, 2, … in order (R103). -/
  abiNames : List Text
  /-- `LABEL_ONLY_LINE_ADVANCES_PC` (R165, D10). -/
  labelOnlyLineAdvancesPc : Bool
  /-- `U_OPERAND_FORM` (R145, D7). -/
  uOperandForm : UOperandForm
deriving DecidableEq, Repr

/-- The error kinds (R300). -/
inductive ErrorKind where
  | unknownInstruction | invalidRegister | undefinedLabel | unaligned | outOfBounds | malformedInput
deriving DecidableEq, Repr

/-- An error with the value it is about (R303). `line` is the source line number, counted from 1, of an error
of `assemble`; it is `none` where the operation has no source text (log 20). -/
inductive CoreError where
  /-- A mnemonic that has no row (R106, R169). -/
  | unknownInstruction (line : Option Nat) (mnemonic : Text)
  /-- A token that names no register (R102, R171). -/
  | invalidRegister (line : Option Nat) (token : Text)
  /-- An immediate token that is neither a literal nor a defined label (R172). -/
  | undefinedLabel (line : Option Nat) (token : Text)
  /-- `addr mod 4 != 0` (R41). -/
  | unaligned (addr : Int)
  /-- The slot index of an aligned address is outside `[0, SLOT_COUNT)` (R42). -/
  | outOfBounds (addr : Int)
  /-- More initial words than slots; the same kind `OutOfBounds` (R53, R303). -/
  | tooManyWords (wordCount slotCount : Nat)
  /-- A wrong operand count, a memory operand not of the form `OFF(REG)`, a token of an initialization string
  that is no integer (R54, R174, R175). -/
  | malformedInput (line : Option Nat) (offending : Text)
deriving DecidableEq, Repr

/-- FREE VALUE (log 9): whether a character other than space, tab, line feed, carriage return and the printing
ASCII characters separates tokens. The spec says "whitespace" and no more (R161, R168, R54). -/
opaque Config.otherWhitespace : Char → Bool

/-- FREE VALUE (log 11): whether an instruction text with no token (commas only) raises `MalformedInput` (true) or
`UnknownInstruction` of the empty mnemonic (false). The spec names neither. -/
opaque Config.noTokenIsMalformed : Bool

/-- FREE VALUE (log 14): the human-readable message of an error; "the message text is free" (R303, I14). -/
opaque Config.errorMessage : CoreError → Text

end Sys2Proof
end

