-- ==== Sys2Proof/Syntax.lean ====
section
/-! DEFINITION. The instructions: one constructor for each row of spec/opcode_table.json. -/

namespace Sys2Proof

/-- The 37 instructions of R104, each with the operands its format holds (R73), at the width of the field that
holds them. A B or J offset is the byte offset with its bit 0, which `wellFormed` asks to be 0 (R76, R78; log 23).
The shift amount is the five bits 24..20 (R81). -/
inductive Instr where
  -- R-type (45_r_type.md)
  | add  (rd rs1 rs2 : Reg)
  | sub  (rd rs1 rs2 : Reg)
  | sll  (rd rs1 rs2 : Reg)
  | slt  (rd rs1 rs2 : Reg)
  | sltu (rd rs1 rs2 : Reg)
  | xor  (rd rs1 rs2 : Reg)
  | srl  (rd rs1 rs2 : Reg)
  | sra  (rd rs1 rs2 : Reg)
  | or   (rd rs1 rs2 : Reg)
  | and  (rd rs1 rs2 : Reg)
  -- I-type (46_i_type.md)
  | addi  (rd rs1 : Reg) (imm : BitVec 12)
  | slti  (rd rs1 : Reg) (imm : BitVec 12)
  | sltiu (rd rs1 : Reg) (imm : BitVec 12)
  | xori  (rd rs1 : Reg) (imm : BitVec 12)
  | ori   (rd rs1 : Reg) (imm : BitVec 12)
  | andi  (rd rs1 : Reg) (imm : BitVec 12)
  | slli  (rd rs1 : Reg) (shamt : BitVec 5)
  | srli  (rd rs1 : Reg) (shamt : BitVec 5)
  | srai  (rd rs1 : Reg) (shamt : BitVec 5)
  | lb    (rd rs1 : Reg) (offset : BitVec 12)
  | lh    (rd rs1 : Reg) (offset : BitVec 12)
  | lw    (rd rs1 : Reg) (offset : BitVec 12)
  | lbu   (rd rs1 : Reg) (offset : BitVec 12)
  | lhu   (rd rs1 : Reg) (offset : BitVec 12)
  | jalr  (rd rs1 : Reg) (imm : BitVec 12)
  -- S-type (47_s_type.md)
  | sb (rs1 rs2 : Reg) (offset : BitVec 12)
  | sh (rs1 rs2 : Reg) (offset : BitVec 12)
  | sw (rs1 rs2 : Reg) (offset : BitVec 12)
  -- B-type (48_b_type.md)
  | beq  (rs1 rs2 : Reg) (offset : BitVec 13)
  | bne  (rs1 rs2 : Reg) (offset : BitVec 13)
  | blt  (rs1 rs2 : Reg) (offset : BitVec 13)
  | bge  (rs1 rs2 : Reg) (offset : BitVec 13)
  | bltu (rs1 rs2 : Reg) (offset : BitVec 13)
  | bgeu (rs1 rs2 : Reg) (offset : BitVec 13)
  -- U-type and J-type (49_u_j_type.md)
  | lui   (rd : Reg) (imm20 : BitVec 20)
  | auipc (rd : Reg) (imm20 : BitVec 20)
  | jal   (rd : Reg) (offset : BitVec 21)
deriving DecidableEq, Repr

end Sys2Proof
end

