-- ==== Sys2Proof/Decode.lean ====
section
/-! DEFINITION. The ISA tables (41_isa_tables.md), the instruction decoder (42_decoder.md) and, after it, the six
packers and the encoder of an instruction (43_encoder.md). -/

namespace Sys2Proof

/-! ### The ISA tables -/

/-- The R rows of `MNEMONIC_TABLE` (R104, rows 1 to 10). -/
def rTypeRows : List TableRow :=
  [ ⟨.add,  .R, 0x33#7, some 0b000#3, some 0b0000000#7⟩,
    ⟨.sub,  .R, 0x33#7, some 0b000#3, some 0b0100000#7⟩,
    ⟨.sll,  .R, 0x33#7, some 0b001#3, some 0b0000000#7⟩,
    ⟨.slt,  .R, 0x33#7, some 0b010#3, some 0b0000000#7⟩,
    ⟨.sltu, .R, 0x33#7, some 0b011#3, some 0b0000000#7⟩,
    ⟨.xor,  .R, 0x33#7, some 0b100#3, some 0b0000000#7⟩,
    ⟨.srl,  .R, 0x33#7, some 0b101#3, some 0b0000000#7⟩,
    ⟨.sra,  .R, 0x33#7, some 0b101#3, some 0b0100000#7⟩,
    ⟨.or,   .R, 0x33#7, some 0b110#3, some 0b0000000#7⟩,
    ⟨.and,  .R, 0x33#7, some 0b111#3, some 0b0000000#7⟩ ]

/-- The I rows of `MNEMONIC_TABLE` (R104, rows 11 to 25). -/
def iTypeRows : List TableRow :=
  [ ⟨.addi,  .I, 0x13#7, some 0b000#3, none⟩,
    ⟨.slti,  .I, 0x13#7, some 0b010#3, none⟩,
    ⟨.sltiu, .I, 0x13#7, some 0b011#3, none⟩,
    ⟨.xori,  .I, 0x13#7, some 0b100#3, none⟩,
    ⟨.ori,   .I, 0x13#7, some 0b110#3, none⟩,
    ⟨.andi,  .I, 0x13#7, some 0b111#3, none⟩,
    ⟨.slli,  .I, 0x13#7, some 0b001#3, some 0b0000000#7⟩,
    ⟨.srli,  .I, 0x13#7, some 0b101#3, some 0b0000000#7⟩,
    ⟨.srai,  .I, 0x13#7, some 0b101#3, some 0b0100000#7⟩,
    ⟨.lb,    .I, 0x03#7, some 0b000#3, none⟩,
    ⟨.lh,    .I, 0x03#7, some 0b001#3, none⟩,
    ⟨.lw,    .I, 0x03#7, some 0b010#3, none⟩,
    ⟨.lbu,   .I, 0x03#7, some 0b100#3, none⟩,
    ⟨.lhu,   .I, 0x03#7, some 0b101#3, none⟩,
    ⟨.jalr,  .I, 0x67#7, some 0b000#3, none⟩ ]

/-- The S and B rows of `MNEMONIC_TABLE` (R104, rows 26 to 34). -/
def sbTypeRows : List TableRow :=
  [ ⟨.sb,   .S, 0x23#7, some 0b000#3, none⟩,
    ⟨.sh,   .S, 0x23#7, some 0b001#3, none⟩,
    ⟨.sw,   .S, 0x23#7, some 0b010#3, none⟩,
    ⟨.beq,  .B, 0x63#7, some 0b000#3, none⟩,
    ⟨.bne,  .B, 0x63#7, some 0b001#3, none⟩,
    ⟨.blt,  .B, 0x63#7, some 0b100#3, none⟩,
    ⟨.bge,  .B, 0x63#7, some 0b101#3, none⟩,
    ⟨.bltu, .B, 0x63#7, some 0b110#3, none⟩,
    ⟨.bgeu, .B, 0x63#7, some 0b111#3, none⟩ ]

/-- The U and J rows of `MNEMONIC_TABLE` (R104, rows 35 to 37). -/
def ujTypeRows : List TableRow :=
  [ ⟨.lui,   .U, 0x37#7, none, none⟩,
    ⟨.auipc, .U, 0x17#7, none, none⟩,
    ⟨.jal,   .J, 0x6F#7, none, none⟩ ]

/-- `MNEMONIC_TABLE`, the 37 admitted instructions (R104). -/
def isaTable : List TableRow := rTypeRows ++ iTypeRows ++ sbTypeRows ++ ujTypeRows

/-- The opcodes that select a format (R101). -/
def isaFormats : List (Opcode × Format) :=
  [ (0x33#7, .R), (0x13#7, .I), (0x03#7, .I), (0x67#7, .I), (0x23#7, .S), (0x63#7, .B),
    (0x37#7, .U), (0x17#7, .U), (0x6F#7, .J) ]

/-- The ABI names, index 0 first (R103). -/
def isaAbiNames : List Text :=
  [ "zero".toList, "ra".toList, "sp".toList, "gp".toList, "tp".toList, "t0".toList, "t1".toList, "t2".toList,
    "s0".toList, "s1".toList, "a0".toList, "a1".toList, "a2".toList, "a3".toList, "a4".toList, "a5".toList ]
  ++
  [ "a6".toList, "a7".toList, "s2".toList, "s3".toList, "s4".toList, "s5".toList, "s6".toList, "s7".toList,
    "s8".toList, "s9".toList, "s10".toList, "s11".toList, "t3".toList, "t4".toList, "t5".toList, "t6".toList ]

/-- The configuration of this machine: the spec's tables and its defaults of R8 (log 17). -/
def machineConfig : Config where
  formatTable := isaFormats
  mnemonicTable := isaTable
  abiNames := isaAbiNames
  labelOnlyLineAdvancesPc := false
  uOperandForm := .upper20

/-- The printed name of a mnemonic: lowercase, or `unknown` (R128, D28). -/
def Mnemonic.name : Mnemonic → Text
  | .add => "add".toList
  | .sub => "sub".toList
  | .sll => "sll".toList
  | .slt => "slt".toList
  | .sltu => "sltu".toList
  | .xor => "xor".toList
  | .srl => "srl".toList
  | .sra => "sra".toList
  | .or => "or".toList
  | .and => "and".toList
  | .addi => "addi".toList
  | .slti => "slti".toList
  | .sltiu => "sltiu".toList
  | .xori => "xori".toList
  | .ori => "ori".toList
  | .andi => "andi".toList
  | .slli => "slli".toList
  | .srli => "srli".toList
  | .srai => "srai".toList
  | .lb => "lb".toList
  | .lh => "lh".toList
  | .lw => "lw".toList
  | .lbu => "lbu".toList
  | .lhu => "lhu".toList
  | .jalr => "jalr".toList
  | .sb => "sb".toList
  | .sh => "sh".toList
  | .sw => "sw".toList
  | .beq => "beq".toList
  | .bne => "bne".toList
  | .blt => "blt".toList
  | .bge => "bge".toList
  | .bltu => "bltu".toList
  | .bgeu => "bgeu".toList
  | .lui => "lui".toList
  | .auipc => "auipc".toList
  | .jal => "jal".toList
  | .unknown => "unknown".toList

/-- `format_of(opcode)`: `NONE` for an opcode outside the table (R101, D4). -/
def formatOf (cfg : Config) (op : Opcode) : Format :=
  match cfg.formatTable.find? (fun entry => entry.1 == op) with
  | some entry => entry.2
  | none => .NONE

/-- A key field of a row admits a value: equal, or no part of the key (R105). -/
def keyAdmits {n : Nat} (key : Option (BitVec n)) (value : BitVec n) : Bool :=
  match key with
  | some k => k == value
  | none => true

/-- The row's key matches opcode, funct3 and funct7 (R105). -/
def TableRow.hits (row : TableRow) (op : Opcode) (f3 : Funct3) (f7 : Funct7) : Bool :=
  row.opcode == op && keyAdmits row.funct3 f3 && keyAdmits row.funct7 f7

/-- `mnemonic_of(opcode, funct3, funct7)`: the mnemonic of the row that matches, else `unknown` (R105). -/
def mnemonicOf (cfg : Config) (op : Opcode) (f3 : Funct3) (f7 : Funct7) : Mnemonic :=
  match cfg.mnemonicTable.find? (fun row => row.hits op f3 f7) with
  | some row => row.mnemonic
  | none => .unknown

/-! ### The decoder -/

/-- The decoder's outputs (R120). -/
structure Decoded where
  opcode   : Opcode
  rd       : Reg
  funct3   : Funct3
  rs1      : Reg
  rs2      : Reg
  funct7   : Funct7
  immI     : Word
  immS     : Word
  immB     : Word
  immU     : Word
  immJ     : Word
  format   : Format
  mnemonic : Mnemonic
deriving DecidableEq, Repr

/-- `imm_i = sext_32(w[31:20])` (R74, R122). -/
def immIOf (w : Word) : Word := (w.extractLsb' 20 12).signExtend 32

/-- `imm_s = sext_32(w[31:25] ++ w[11:7])` (R75, R123). -/
def immSOf (w : Word) : Word := (w.extractLsb' 25 7 ++ w.extractLsb' 7 5).signExtend 32

/-- `imm_b = sext_32(w[31] ++ w[7] ++ w[30:25] ++ w[11:8] ++ 0)` (R76, R124). -/
def immBOf (w : Word) : Word :=
  (w.extractLsb' 31 1 ++ w.extractLsb' 7 1 ++ w.extractLsb' 25 6 ++ w.extractLsb' 8 4 ++ 0#1).signExtend 32

/-- `imm_u = w[31:12] ++ 0^12` (R77, R125). -/
def immUOf (w : Word) : Word := w.extractLsb' 12 20 ++ 0#12

/-- `imm_j = sext_32(w[31] ++ w[19:12] ++ w[20] ++ w[30:21] ++ 0)` (R78, R126). -/
def immJOf (w : Word) : Word :=
  (w.extractLsb' 31 1 ++ w.extractLsb' 12 8 ++ w.extractLsb' 20 1 ++ w.extractLsb' 21 10 ++ 0#1).signExtend 32

/-- The record of a word whose format tag and mnemonic are given: every field and all five immediates are read
from the word, whatever its format (R121 to R126, R129). -/
def Decoded.ofPorts (w : Word) (format : Format) (mnemonic : Mnemonic) : Decoded where
  opcode := w.extractLsb' 0 7
  rd := w.extractLsb' 7 5
  funct3 := w.extractLsb' 12 3
  rs1 := w.extractLsb' 15 5
  rs2 := w.extractLsb' 20 5
  funct7 := w.extractLsb' 25 7
  immI := immIOf w
  immS := immSOf w
  immB := immBOf w
  immU := immUOf w
  immJ := immJOf w
  format := format
  mnemonic := mnemonic

/-- `decode(word)`: total, and a function of the word and the tables alone (R120, R127, R128, R130, R132). -/
def Decoded.ofWord (cfg : Config) (w : Word) : Decoded :=
  Decoded.ofPorts w (formatOf cfg (w.extractLsb' 0 7))
    (mnemonicOf cfg (w.extractLsb' 0 7) (w.extractLsb' 12 3) (w.extractLsb' 25 7))

/-- The instruction a record names, with the outputs that carry meaning for its format (R129, R133); `none` for
the mnemonic `unknown`. An operand is its field: the immediate that the format names, less its sign extension. -/
def Decoded.toInstr (d : Decoded) : Option Instr :=
  match d.mnemonic with
  | .add => some (.add d.rd d.rs1 d.rs2)
  | .sub => some (.sub d.rd d.rs1 d.rs2)
  | .sll => some (.sll d.rd d.rs1 d.rs2)
  | .slt => some (.slt d.rd d.rs1 d.rs2)
  | .sltu => some (.sltu d.rd d.rs1 d.rs2)
  | .xor => some (.xor d.rd d.rs1 d.rs2)
  | .srl => some (.srl d.rd d.rs1 d.rs2)
  | .sra => some (.sra d.rd d.rs1 d.rs2)
  | .or => some (.or d.rd d.rs1 d.rs2)
  | .and => some (.and d.rd d.rs1 d.rs2)
  | .addi => some (.addi d.rd d.rs1 (d.immI.extractLsb' 0 12))
  | .slti => some (.slti d.rd d.rs1 (d.immI.extractLsb' 0 12))
  | .sltiu => some (.sltiu d.rd d.rs1 (d.immI.extractLsb' 0 12))
  | .xori => some (.xori d.rd d.rs1 (d.immI.extractLsb' 0 12))
  | .ori => some (.ori d.rd d.rs1 (d.immI.extractLsb' 0 12))
  | .andi => some (.andi d.rd d.rs1 (d.immI.extractLsb' 0 12))
  | .slli => some (.slli d.rd d.rs1 d.rs2)
  | .srli => some (.srli d.rd d.rs1 d.rs2)
  | .srai => some (.srai d.rd d.rs1 d.rs2)
  | .lb => some (.lb d.rd d.rs1 (d.immI.extractLsb' 0 12))
  | .lh => some (.lh d.rd d.rs1 (d.immI.extractLsb' 0 12))
  | .lw => some (.lw d.rd d.rs1 (d.immI.extractLsb' 0 12))
  | .lbu => some (.lbu d.rd d.rs1 (d.immI.extractLsb' 0 12))
  | .lhu => some (.lhu d.rd d.rs1 (d.immI.extractLsb' 0 12))
  | .jalr => some (.jalr d.rd d.rs1 (d.immI.extractLsb' 0 12))
  | .sb => some (.sb d.rs1 d.rs2 (d.immS.extractLsb' 0 12))
  | .sh => some (.sh d.rs1 d.rs2 (d.immS.extractLsb' 0 12))
  | .sw => some (.sw d.rs1 d.rs2 (d.immS.extractLsb' 0 12))
  | .beq => some (.beq d.rs1 d.rs2 (d.immB.extractLsb' 0 13))
  | .bne => some (.bne d.rs1 d.rs2 (d.immB.extractLsb' 0 13))
  | .blt => some (.blt d.rs1 d.rs2 (d.immB.extractLsb' 0 13))
  | .bge => some (.bge d.rs1 d.rs2 (d.immB.extractLsb' 0 13))
  | .bltu => some (.bltu d.rs1 d.rs2 (d.immB.extractLsb' 0 13))
  | .bgeu => some (.bgeu d.rs1 d.rs2 (d.immB.extractLsb' 0 13))
  | .lui => some (.lui d.rd (d.immU.extractLsb' 12 20))
  | .auipc => some (.auipc d.rd (d.immU.extractLsb' 12 20))
  | .jal => some (.jal d.rd (d.immJ.extractLsb' 0 21))
  | .unknown => none

/-- Why a word names no instruction (the two cases of R83). The decoder still gives its record. -/
inductive DecodeMiss where
  /-- The opcode selects no format: format `NONE`, mnemonic `unknown`. -/
  | unknownOpcode (opcode : Opcode)
  /-- The opcode selects a format, but no row matches: mnemonic `unknown`. -/
  | noMatchingRow (format : Format) (funct3 : Funct3) (funct7 : Funct7)
deriving DecidableEq, Repr

/-- The instruction a word stands for, or by name why it stands for none (R83). -/
def decode (w : Word) : Except DecodeMiss Instr :=
  let d := Decoded.ofWord machineConfig w
  match d.toInstr with
  | some i => .ok i
  | none =>
    .error (if d.format = .NONE then .unknownOpcode d.opcode else .noMatchingRow d.format d.funct3 d.funct7)

/-- The word that the opcode table's bits `w` stand for: bit 0 of the table is bit 0 of the word, and every bit
above the row's `nbits` is 0 (R9, R70). -/
def tableWord (nbits w : Nat) : Word := BitVec.ofNat 32 (w % 2 ^ nbits)

/-- The instruction that the decoder reads from the table's bits `w`. -/
def decodeTableWord (nbits w : Nat) : Option Instr :=
  match decode (tableWord nbits w) with
  | .ok i => some i
  | .error _ => none

/-! ### The packers, from fields to a word (R73) -/

/-- R-type: `funct7 rs2 rs1 funct3 rd opcode` (R73, R141). -/
def packR (op : Opcode) (rd : Reg) (f3 : Funct3) (rs1 rs2 : Reg) (f7 : Funct7) : Word :=
  f7 ++ rs2 ++ rs1 ++ f3 ++ rd ++ op

/-- I-type: `imm[11:0] rs1 funct3 rd opcode` (R73, R142). -/
def packI (op : Opcode) (rd : Reg) (f3 : Funct3) (rs1 : Reg) (imm : BitVec 12) : Word :=
  imm ++ rs1 ++ f3 ++ rd ++ op

/-- S-type: `imm[11:5] rs2 rs1 funct3 imm[4:0] opcode` (R73, R143). -/
def packS (op : Opcode) (f3 : Funct3) (rs1 rs2 : Reg) (imm : BitVec 12) : Word :=
  imm.extractLsb' 5 7 ++ rs2 ++ rs1 ++ f3 ++ imm.extractLsb' 0 5 ++ op

/-- B-type: `imm[12] imm[10:5] rs2 rs1 funct3 imm[4:1] imm[11] opcode`; bit 0 is not stored (R73, R144, R150). -/
def packB (op : Opcode) (f3 : Funct3) (rs1 rs2 : Reg) (imm : BitVec 13) : Word :=
  imm.extractLsb' 12 1 ++ imm.extractLsb' 5 6 ++ rs2 ++ rs1 ++ f3 ++ imm.extractLsb' 1 4 ++ imm.extractLsb' 11 1 ++ op

/-- U-type: the 20 upper bits, `rd`, opcode (R73, R145). -/
def packU (op : Opcode) (rd : Reg) (upper : BitVec 20) : Word := upper ++ rd ++ op

/-- J-type: `imm[20] imm[10:1] imm[11] imm[19:12] rd opcode`; bit 0 is not stored (R73, R146, R150). -/
def packJ (op : Opcode) (rd : Reg) (imm : BitVec 21) : Word :=
  imm.extractLsb' 20 1 ++ imm.extractLsb' 1 10 ++ imm.extractLsb' 11 1 ++ imm.extractLsb' 12 8 ++ rd ++ op

/-- The immediate field of a shift by an immediate amount: the funct7 selector above `shamt` (R81, D6). -/
def shiftImm (f7 : Funct7) (shamt : BitVec 5) : BitVec 12 := f7 ++ shamt

/-! ### The six packers of the encoder block, on integers (R140 to R148) -/

/-- `trunc_k(v) = v mod 2^k`, also for a negative `v` (R11). -/
def trunc (k : Nat) (v : Int) : BitVec k := BitVec.ofInt k v

/-- `encode_R` (R141, R148). -/
def encodeR (op rd f3 rs1 rs2 f7 : Int) : Word :=
  packR (trunc 7 op) (trunc 5 rd) (trunc 3 f3) (trunc 5 rs1) (trunc 5 rs2) (trunc 7 f7)

/-- `encode_I` (R142, R147, R148). -/
def encodeI (op rd f3 rs1 imm : Int) : Word :=
  packI (trunc 7 op) (trunc 5 rd) (trunc 3 f3) (trunc 5 rs1) (trunc 12 imm)

/-- `encode_S` (R143, R147, R148). -/
def encodeS (op f3 rs1 rs2 imm : Int) : Word :=
  packS (trunc 7 op) (trunc 3 f3) (trunc 5 rs1) (trunc 5 rs2) (trunc 12 imm)

/-- `encode_B` (R144, R147, R148, R150). -/
def encodeB (op f3 rs1 rs2 imm : Int) : Word :=
  packB (trunc 7 op) (trunc 3 f3) (trunc 5 rs1) (trunc 5 rs2) (trunc 13 imm)

/-- The 20 bits that a U-type operand stores: its low 20 bits, or bits 31..12 of a full word (R145, D7). -/
def upperBits (form : UOperandForm) (imm : Int) : BitVec 20 :=
  match form with
  | .upper20 => trunc 20 imm
  | .full32 => (trunc 32 imm).extractLsb' 12 20

/-- `encode_U` (R145, R147, R148). -/
def encodeU (form : UOperandForm) (op rd imm : Int) : Word :=
  packU (trunc 7 op) (trunc 5 rd) (upperBits form imm)

/-- `encode_J` (R146, R147, R148, R150). -/
def encodeJ (op rd imm : Int) : Word := packJ (trunc 7 op) (trunc 5 rd) (trunc 21 imm)

/-! ### The word of an instruction -/

/-- The word of an instruction: its row of R104, packed by its format (the "Encode" bullets of 45 to 49). -/
def encode : Instr → Word
  | .add rd rs1 rs2 => packR 0x33#7 rd 0b000#3 rs1 rs2 0b0000000#7
  | .sub rd rs1 rs2 => packR 0x33#7 rd 0b000#3 rs1 rs2 0b0100000#7
  | .sll rd rs1 rs2 => packR 0x33#7 rd 0b001#3 rs1 rs2 0b0000000#7
  | .slt rd rs1 rs2 => packR 0x33#7 rd 0b010#3 rs1 rs2 0b0000000#7
  | .sltu rd rs1 rs2 => packR 0x33#7 rd 0b011#3 rs1 rs2 0b0000000#7
  | .xor rd rs1 rs2 => packR 0x33#7 rd 0b100#3 rs1 rs2 0b0000000#7
  | .srl rd rs1 rs2 => packR 0x33#7 rd 0b101#3 rs1 rs2 0b0000000#7
  | .sra rd rs1 rs2 => packR 0x33#7 rd 0b101#3 rs1 rs2 0b0100000#7
  | .or rd rs1 rs2 => packR 0x33#7 rd 0b110#3 rs1 rs2 0b0000000#7
  | .and rd rs1 rs2 => packR 0x33#7 rd 0b111#3 rs1 rs2 0b0000000#7
  | .addi rd rs1 imm => packI 0x13#7 rd 0b000#3 rs1 imm
  | .slti rd rs1 imm => packI 0x13#7 rd 0b010#3 rs1 imm
  | .sltiu rd rs1 imm => packI 0x13#7 rd 0b011#3 rs1 imm
  | .xori rd rs1 imm => packI 0x13#7 rd 0b100#3 rs1 imm
  | .ori rd rs1 imm => packI 0x13#7 rd 0b110#3 rs1 imm
  | .andi rd rs1 imm => packI 0x13#7 rd 0b111#3 rs1 imm
  | .slli rd rs1 shamt => packI 0x13#7 rd 0b001#3 rs1 (shiftImm 0b0000000#7 shamt)
  | .srli rd rs1 shamt => packI 0x13#7 rd 0b101#3 rs1 (shiftImm 0b0000000#7 shamt)
  | .srai rd rs1 shamt => packI 0x13#7 rd 0b101#3 rs1 (shiftImm 0b0100000#7 shamt)
  | .lb rd rs1 offset => packI 0x03#7 rd 0b000#3 rs1 offset
  | .lh rd rs1 offset => packI 0x03#7 rd 0b001#3 rs1 offset
  | .lw rd rs1 offset => packI 0x03#7 rd 0b010#3 rs1 offset
  | .lbu rd rs1 offset => packI 0x03#7 rd 0b100#3 rs1 offset
  | .lhu rd rs1 offset => packI 0x03#7 rd 0b101#3 rs1 offset
  | .jalr rd rs1 imm => packI 0x67#7 rd 0b000#3 rs1 imm
  | .sb rs1 rs2 offset => packS 0x23#7 0b000#3 rs1 rs2 offset
  | .sh rs1 rs2 offset => packS 0x23#7 0b001#3 rs1 rs2 offset
  | .sw rs1 rs2 offset => packS 0x23#7 0b010#3 rs1 rs2 offset
  | .beq rs1 rs2 offset => packB 0x63#7 0b000#3 rs1 rs2 offset
  | .bne rs1 rs2 offset => packB 0x63#7 0b001#3 rs1 rs2 offset
  | .blt rs1 rs2 offset => packB 0x63#7 0b100#3 rs1 rs2 offset
  | .bge rs1 rs2 offset => packB 0x63#7 0b101#3 rs1 rs2 offset
  | .bltu rs1 rs2 offset => packB 0x63#7 0b110#3 rs1 rs2 offset
  | .bgeu rs1 rs2 offset => packB 0x63#7 0b111#3 rs1 rs2 offset
  | .lui rd imm20 => packU 0x37#7 rd imm20
  | .auipc rd imm20 => packU 0x17#7 rd imm20
  | .jal rd offset => packJ 0x6F#7 rd offset

end Sys2Proof
end

