-- ==== Sys2Proof/Machine/State.lean ====
section
/-! DEFINITION. The machine's state: the memory instances the spec gives it, and two fields of the model's own, the
operations the caller has asked for and the response of the last one served. -/

namespace Sys2Proof.Machine

/-- A memory instance (R20, R40): `SLOT_COUNT`, fixed at creation, and the contents of its slots as bytes. Byte
lane `i` of slot `k` has the byte address `4k+i` (R29; the lane of a byte address is D22's). An unlisted byte reads
as 0, which is what creation leaves (R52). -/
structure Memory where
  slotCount : Nat
  cells : List Host.Cell
deriving DecidableEq, Repr

/-- The canonical form: addresses strictly rising, no byte listed that an unlisted address reads as, and every
address inside a slot (R29, R56). -/
abbrev Memory.wf (m : Memory) : Prop :=
  m.cells.Pairwise (fun a b => a.1 < b.1) ∧ ∀ c ∈ m.cells, c.2 ≠ 0#8 ∧ c.1 < 4 * m.slotCount

/-- The operand values the dispatch stage takes (R149, R170). A format reads the ones it has. -/
structure OperandValues where
  rd    : Int := 0
  rs1   : Int := 0
  rs2   : Int := 0
  imm   : Int := 0
  shamt : Int := 0
deriving DecidableEq, Repr

/-- An operation that a caller can ask of the CORE or of the software around it. -/
inductive Request where
  /-- `decode(word)` (R120): hand a word to the decoder. -/
  | decode (w : Word)
  /-- `encode_R` (R141). -/
  | encodeR (opcode rd funct3 rs1 rs2 funct7 : Int)
  /-- `encode_I` (R142). -/
  | encodeI (opcode rd funct3 rs1 imm : Int)
  /-- `encode_S` (R143). -/
  | encodeS (opcode funct3 rs1 rs2 imm : Int)
  /-- `encode_B` (R144). -/
  | encodeB (opcode funct3 rs1 rs2 imm : Int)
  /-- `encode_U` (R145). -/
  | encodeU (opcode rd imm : Int)
  /-- `encode_J` (R146). -/
  | encodeJ (opcode rd imm : Int)
  /-- `encode(mnemonic, operands)`: the dispatch stage (R149). -/
  | encode (mnemonic : Text) (operands : OperandValues)
  /-- `format_of(opcode)` (R101). -/
  | formatOf (opcode : Opcode)
  /-- `mnemonic_of(opcode, funct3, funct7)` (R105). -/
  | mnemonicOf (opcode : Opcode) (funct3 : Funct3) (funct7 : Funct7)
  /-- `register_index_of(name)` (R102). -/
  | registerIndexOf (name : Text)
  /-- `select(mnemonic)` (R106). -/
  | select (mnemonic : Text)
  /-- `assemble(source)` (R160). -/
  | assemble (source : Text)
  /-- `new(byte_capacity, initial_words?)`; no initial words is the empty list (R51 to R53). -/
  | memNew (byteCapacity : Int) (initialWords : List Int)
  /-- `new` from an initialization string (R54). -/
  | memNewFromString (byteCapacity : Int) (initialization : Text)
  /-- `read(addr)` of an instance (R43). -/
  | memRead (inst : Nat) (addr : Int)
  /-- `write(addr, value, be)` of an instance (R44). -/
  | memWrite (inst : Nat) (addr value : Int) (be : ByteEnable)
  /-- `reset()` of an instance (R55). -/
  | memReset (inst : Nat)
  /-- The caller's recipe `store_byte(a, x)` (R46; log 26). -/
  | storeByte (inst : Nat) (addr value : Int)
  /-- The caller's recipe `store_half(a, x)` (R46; log 26). -/
  | storeHalf (inst : Nat) (addr value : Int)
  /-- The caller's recipe `store_word(a, x)` (R46; log 26). -/
  | storeWord (inst : Nat) (addr value : Int)
deriving DecidableEq, Repr

/-- A call the spec refuses: outside the contract, given no meaning (93_implementation_defined.md; log 8). -/
inductive Rejection where
  /-- A halfword store at an odd byte address (R46, I12, D22). -/
  | oddHalfword (addr : Int)
  /-- A negative `byte_capacity` (R51, I13, D25). -/
  | negativeCapacity (byteCapacity : Int)
deriving DecidableEq, Repr

/-- What an operation returns to its caller. -/
inductive Response where
  /-- The decoder's outputs (R120). -/
  | decoded (record : Decoded)
  /-- A packer's word (R140). -/
  | encoded (w : Word)
  /-- `format_of` (R101). -/
  | format (f : Format)
  /-- `mnemonic_of` (R105). -/
  | mnemonic (m : Mnemonic)
  /-- `register_index_of` (R102). -/
  | registerIndex (n : Nat)
  /-- `select` (R106). -/
  | row (r : TableRow)
  /-- The words of a successful `assemble` (R160). -/
  | words (ws : List Word)
  /-- `new` made the instance of this number (R40; log 5). -/
  | created (inst : Nat)
  /-- `rdata` (R40, R43). -/
  | rdata (w : Word)
  /-- A `write` or `reset` is done (R40). -/
  | done
  /-- `raise`: the error is returned to the caller (R304, R308). -/
  | error (e : CoreError)
  /-- The call was refused and changed nothing (log 8). -/
  | rejected (r : Rejection)
deriving DecidableEq, Repr

/-- The machine's state. -/
structure State where
  /-- The memory instances, in order of creation; an instance's number is its place (R20, R330; log 5). -/
  instances : List Memory
  /-- The model's own: the operations asked for and not yet served, oldest first (R58, R337; log 1). -/
  pending : List Request
  /-- The model's own: the response of the last operation served (log 2). -/
  response : Option Response
deriving DecidableEq, Repr

/-- Why the machine stops with a fault. -/
inductive Fault where
  /-- Raised by a memory operation on an instance that no `new` has made. R335 asks that an instance be created
  before any operation on it, and no rule says what happens otherwise. Safe: the model stops (log 7). A halfword store at
an odd address is refused before its instance is looked up and does not raise it (log 27). -/
  | noSuchInstance (inst : Nat)
deriving DecidableEq, Repr

/-- Why the machine refuses an instruction. -/
inductive Refusal where
  /-- Raised by an arm of `exec` for an instruction without a meaning; no arm does. Safe: the model stops. -/
  | notModelled (mnemonic : String)
deriving DecidableEq, Repr

/-- The machine right after power-on: no memory instance exists before `new` (R330), nothing has been asked for
and nothing answered (logs 1, 2 and 5). The decoder, the packers and the tables hold no state (R332). -/
def State.reset : State where
  instances := []
  pending := []
  response := none

/-- An operation returns to its caller. -/
def State.answer (s : State) (r : Response) : State :=
  { s with response := some r }

end Sys2Proof.Machine
end

