-- ==== Sys2Proof/Machine/Flags.lean ====
section
/-! DEFINITION. The CORE has no flags, condition codes or predicates, and no instruction writes one (R26, R27). The only
flags the spec names are the four of a write's mask (R45); this file reads them. -/

namespace Sys2Proof.Machine

/-- The byte enable of the source's mask, four flags from the most significant byte to the least: flag 1 is `be[3]`
and flag 4 is `be[0]` (R45). -/
def byteEnableOfFlags (flag1 flag2 flag3 flag4 : Bool) : ByteEnable :=
  BitVec.ofBool flag1 ++ BitVec.ofBool flag2 ++ BitVec.ofBool flag3 ++ BitVec.ofBool flag4

/-- Mask flag `be[i]`: byte lane `i`, bits `8i+7..8i`, is written (R45). -/
def laneEnabled (be : ByteEnable) (i : Nat) : Bool := be.getLsbD i

/-- Byte lane `i` of a word: bits `8i+7..8i` (R44, R50). -/
def laneOf (w : Word) (i : Nat) : Byte := w.extractLsb' (8 * i) 8

end Sys2Proof.Machine
end

