-- ==== Sys2Proof/Machine/Ops.lean ====
section
/-! DEFINITION. The shared operations: the bytes and slots of a memory instance and its four operations
(20_memory.md), raising an error (60_exceptions.md), and presenting a decoder record. -/

namespace Sys2Proof.Machine

/-! ### Bytes -/

/-- The byte at an address; an unlisted address reads as 0 (R52). -/
def cellAt : List Host.Cell → Nat → Byte
  | [], _ => 0#8
  | c :: rest, a => if c.1 = a then c.2 else cellAt rest a

/-- Set the byte at an address and keep the canonical form: writing 0 takes the entry out. -/
def setCell : List Host.Cell → Nat → Byte → List Host.Cell
  | [], a, v => if v = 0#8 then [] else [(a, v)]
  | c :: rest, a, v =>
    if a < c.1 then (if v = 0#8 then c :: rest else (a, v) :: c :: rest)
    else if c.1 = a then (if v = 0#8 then rest else (a, v) :: rest)
    else c :: setCell rest a v

/-- The byte at byte address `a` of an instance. -/
def Memory.byteAt (m : Memory) (a : Nat) : Byte := cellAt m.cells a

/-- Set one byte of an instance. -/
def Memory.setByte (m : Memory) (a : Nat) (v : Byte) : Memory := { m with cells := setCell m.cells a v }

/-! ### Slots -/

/-- The 32-bit word of slot `k`: byte lane `i` is the byte at `4k+i` (R29, D22). -/
def Memory.slot (m : Memory) (k : Nat) : Word :=
  m.byteAt (4 * k + 3) ++ m.byteAt (4 * k + 2) ++ m.byteAt (4 * k + 1) ++ m.byteAt (4 * k)

/-- Write byte lane `i` of slot `k` if its mask flag is set, else retain it (R44, R45). -/
def Memory.writeLane (m : Memory) (k : Nat) (v : Word) (be : ByteEnable) (i : Nat) : Memory :=
  if laneEnabled be i then m.setByte (4 * k + i) (laneOf v i) else m

/-- The masked write of slot `k`, one lane after the other (R44). -/
def Memory.writeSlot (m : Memory) (k : Nat) (v : Word) (be : ByteEnable) : Memory :=
  (((m.writeLane k v be 0).writeLane k v be 1).writeLane k v be 2).writeLane k v be 3

/-! ### The operations of an instance -/

/-- The checks of an access: alignment first, then bounds; the slot index if both hold (R41, R42, R306). -/
def Memory.slotIndex (m : Memory) (addr : Int) : Except CoreError Nat :=
  if addr % 4 ≠ 0 then .error (.unaligned addr)
  else if addr / 4 < 0 ∨ (m.slotCount : Int) ≤ addr / 4 then .error (.outOfBounds addr)
  else .ok (addr / 4).toNat

/-- `read(addr)` (R43). -/
def Memory.read (m : Memory) (addr : Int) : Except CoreError Word :=
  match m.slotIndex addr with
  | .error e => .error e
  | .ok k => .ok (m.slot k)

/-- `write(addr, value, be)`; the value is taken modulo 2^32 (R44, R47). -/
def Memory.write (m : Memory) (addr value : Int) (be : ByteEnable) : Except CoreError Memory :=
  match m.slotIndex addr with
  | .error e => .error e
  | .ok k => .ok (m.writeSlot k (trunc 32 value) be)

/-- `reset()`: every slot to 0, the slot count kept (R55). -/
def Memory.reset (m : Memory) : Memory := { m with cells := [] }

/-- `SLOT_COUNT = ceil(byte_capacity / 4)` of a capacity that is not negative (R51). -/
def slotCountOf (byteCapacity : Int) : Nat := ((byteCapacity + 3) / 4).toNat

/-- Load words from slot `k` on, each as one full word (R53). -/
def Memory.load (m : Memory) (k : Nat) : List Int → Memory
  | [] => m
  | v :: rest => (m.writeSlot k (trunc 32 v) 0b1111#4).load (k + 1) rest

/-- `new(byte_capacity, initial_words)`: zeroed, then the initial words; too many of them make no instance
(R51 to R53). The capacity is not negative. -/
def Memory.create (byteCapacity : Int) (initialWords : List Int) : Except CoreError Memory :=
  if slotCountOf byteCapacity < initialWords.length then
    .error (.tooManyWords initialWords.length (slotCountOf byteCapacity))
  else .ok (Memory.load ⟨slotCountOf byteCapacity, []⟩ 0 initialWords)

/-! ### Errors: there is no trap -/

/-- The kind of an error (R300). -/
def errorKind : CoreError → ErrorKind
  | .unknownInstruction _ _ => .unknownInstruction
  | .invalidRegister _ _ => .invalidRegister
  | .undefinedLabel _ _ => .undefinedLabel
  | .unaligned _ => .unaligned
  | .outOfBounds _ => .outOfBounds
  | .tooManyWords _ _ => .outOfBounds
  | .malformedInput _ _ => .malformedInput

/-- The code of an error kind (R300, D18). -/
def errorCode : ErrorKind → Nat
  | .unknownInstruction => 1
  | .invalidRegister => 2
  | .undefinedLabel => 3
  | .unaligned => 4
  | .outOfBounds => 5
  | .malformedInput => 6

/-- The human-readable message of an error; its text is free (R303, I14; log 14). -/
def errorMessage (e : CoreError) : Text := Config.errorMessage e

/-- `raise E(info)`: the operation ends, the error is returned to its caller, and no state changes. There is no
trap: nothing is saved, no mode changes, no vector is taken, and there is nothing to return from
(R13, R304, R305, R308, R309; log 18). -/
def raiseError (e : CoreError) (s : State) : Host.Outcome State Fault Refusal := .next (s.answer (.error e))

/-- An operation returns a value, or the error it raises. -/
def answerWith {α : Type} (s : State) (reply : α → Response) : Except CoreError α → Host.Outcome State Fault Refusal
  | .error e => raiseError e s
  | .ok v => .next (s.answer (reply v))

/-- Refuse a call: nothing changes and the caller is told (log 8). -/
def reject (r : Rejection) (s : State) : Host.Outcome State Fault Refusal := .next (s.answer (.rejected r))

/-! ### The decoder's record -/

/-- The decoder gives the record of a word, with this format tag and mnemonic. Nothing else changes: the decoder is
a pure function without state (R21, R132), and the CORE executes nothing (R5). -/
def present (format : Format) (mnemonic : Mnemonic) (w : Word) (s : State) : Host.Outcome State Fault Refusal :=
  .next (s.answer (.decoded (Decoded.ofPorts w format mnemonic)))

/-- The decoder gives the record of a word that no row matches: mnemonic `unknown`, no error (R83, R130). -/
def presentUnknown (w : Word) (s : State) : Host.Outcome State Fault Refusal :=
  .next (s.answer (.decoded (Decoded.ofWord machineConfig w)))

/-! ### The memory operations on the state -/

/-- Add an instance; its number is the count of those before it (R330; log 5). -/
def addInstance (m : Memory) (s : State) : Host.Outcome State Fault Refusal :=
  .next { s with instances := s.instances ++ [m], response := some (.created s.instances.length) }

/-- `new` from initial words (R51 to R53); a negative capacity is refused (D25; log 8). -/
def memNew (byteCapacity : Int) (initialWords : List Int) (s : State) : Host.Outcome State Fault Refusal :=
  if byteCapacity < 0 then reject (.negativeCapacity byteCapacity) s
  else
    match Memory.create byteCapacity initialWords with
    | .error e => raiseError e s
    | .ok m => addInstance m s

/-- `read` of an instance (R43): no state changes. -/
def memRead (inst : Nat) (addr : Int) (s : State) : Host.Outcome State Fault Refusal :=
  match s.instances[inst]? with
  | none => .fault (.noSuchInstance inst)
  | some m => answerWith s .rdata (m.read addr)

/-- `write` of an instance (R44): only that instance changes, and nothing if it fails (R305). -/
def memWrite (inst : Nat) (addr value : Int) (be : ByteEnable) (s : State) : Host.Outcome State Fault Refusal :=
  match s.instances[inst]? with
  | none => .fault (.noSuchInstance inst)
  | some m =>
    match m.write addr value be with
    | .error e => raiseError e s
    | .ok m' => .next { s with instances := s.instances.set inst m', response := some .done }

/-- `reset` of an instance (R55): never fails, and touches only that instance. -/
def memReset (inst : Nat) (s : State) : Host.Outcome State Fault Refusal :=
  match s.instances[inst]? with
  | none => .fault (.noSuchInstance inst)
  | some m => .next { s with instances := s.instances.set inst m.reset, response := some .done }

/-! ### The caller's sub-word stores -/

/-- `store_byte(a, x)`: one lane, `a mod 4` (R46, D22). -/
def storeByte (inst : Nat) (addr value : Int) (s : State) : Host.Outcome State Fault Refusal :=
  let lane := (addr % 4).toNat
  memWrite inst (addr - addr % 4) ((trunc 8 value).toNat <<< (8 * lane) : Nat) (0b0001#4 <<< lane) s

/-- `store_half(a, x)`: two adjacent lanes; an odd address is refused (R46, D22, I12; log 8). DESIGN CHOICE: the odd
address is refused before the instance is looked up, so an odd halfword store on an instance that no `new` made is
refused and the machine goes on; the spec orders the two nowhere (log 27). -/
def storeHalf (inst : Nat) (addr value : Int) (s : State) : Host.Outcome State Fault Refusal :=
  if addr % 2 ≠ 0 then reject (.oddHalfword addr) s
  else
    let lane := (addr % 4).toNat
    memWrite inst (addr - addr % 4) ((trunc 16 value).toNat <<< (8 * lane) : Nat) (0b0011#4 <<< lane) s

/-- `store_word(a, x)`: all four lanes (R46). -/
def storeWord (inst : Nat) (addr value : Int) (s : State) : Host.Outcome State Fault Refusal :=
  memWrite inst addr value 0b1111#4 s

end Sys2Proof.Machine
end

