-- ==== Sys2Proof/Machine/Operands.lean ====
section
/-! DEFINITION. Text and the operand forms of the assembler: white space, tokens, integer literals, register names,
immediates, memory operands, and the operands of each instruction group (44_assembler.md). -/

namespace Sys2Proof.Machine

/-! ### Characters and tokens -/

/-- White space. Space, tab, line feed and carriage return are (R161, D34; 95_test_vectors.md section 5), the
printing ASCII characters are not, and any other character is left open (log 9). -/
def isSpace (c : Char) : Bool :=
  if c = ' ' ∨ c = '\t' ∨ c = '\n' ∨ c = '\r' then true
  else if '!' ≤ c ∧ c ≤ '~' then false
  else Config.otherWhitespace c

/-- Drop leading and trailing white space (R161). -/
def trim (t : Text) : Text := ((t.dropWhile isSpace).reverse.dropWhile isSpace).reverse

/-- Split at each character that `sep` holds of; one piece more than there are such characters. -/
def splitAt (sep : Char → Bool) : Text → List Text
  | [] => [[]]
  | c :: rest =>
    if sep c then [] :: splitAt sep rest
    else
      match splitAt sep rest with
      | [] => [[c]]
      | piece :: pieces => (c :: piece) :: pieces

/-- Split on runs of white space (R168). -/
def splitSpaces (t : Text) : List Text := (splitAt isSpace t).filter (fun piece => !piece.isEmpty)

/-- Lowercase an ASCII letter (R168). -/
def lowerAscii (c : Char) : Char := if 'A' ≤ c ∧ c ≤ 'Z' then Char.ofNat (c.toNat + 32) else c

/-! ### Integer literals -/

/-- The value of a decimal digit. -/
def decimalDigit (c : Char) : Option Nat := if '0' ≤ c ∧ c ≤ '9' then some (c.toNat - 48) else none

/-- The value of an octal digit (R173). -/
def octalDigit (c : Char) : Option Nat := if '0' ≤ c ∧ c ≤ '7' then some (c.toNat - 48) else none

/-- The value of a binary digit (R173). -/
def binaryDigit (c : Char) : Option Nat := if c = '0' then some 0 else if c = '1' then some 1 else none

/-- The value of a hexadecimal digit, either case (R173). -/
def hexDigit (c : Char) : Option Nat :=
  if '0' ≤ c ∧ c ≤ '9' then some (c.toNat - 48)
  else if 'a' ≤ c ∧ c ≤ 'f' then some (c.toNat - 87)
  else if 'A' ≤ c ∧ c ≤ 'F' then some (c.toNat - 55)
  else none

/-- The number that digits write after the digits read so far. -/
def digitsFrom (base : Nat) (digit : Char → Option Nat) (read : Nat) : Text → Option Nat
  | [] => some read
  | c :: rest =>
    match digit c with
    | none => none
    | some d => digitsFrom base digit (read * base + d) rest

/-- One or more digits (R173). -/
def digits (base : Nat) (digit : Char → Option Nat) (t : Text) : Option Nat :=
  if t.isEmpty then none else digitsFrom base digit 0 t

/-- A literal without its sign: decimal, or `0x`, `0o`, `0b` and digits of that base (R173). -/
def unsignedLiteral : Text → Option Nat
  | '0' :: 'x' :: t => digits 16 hexDigit t
  | '0' :: 'X' :: t => digits 16 hexDigit t
  | '0' :: 'o' :: t => digits 8 octalDigit t
  | '0' :: 'O' :: t => digits 8 octalDigit t
  | '0' :: 'b' :: t => digits 2 binaryDigit t
  | '0' :: 'B' :: t => digits 2 binaryDigit t
  | t => digits 10 decimalDigit t

/-- An optional sign and then a number that `unsigned` reads (R54, R173). -/
def signed (unsigned : Text → Option Nat) : Text → Option Int
  | '+' :: t => (unsigned t).map Int.ofNat
  | '-' :: t => (unsigned t).map (fun n => -Int.ofNat n)
  | t => (unsigned t).map Int.ofNat

/-- The integer literal of an immediate operand (R173, D13). -/
def literal : Text → Option Int := signed unsignedLiteral

/-- A token of an initialization string: an optionally signed decimal integer (R54, D24). -/
def decimalInteger : Text → Option Int := signed (digits 10 decimalDigit)

/-! ### Registers -/

/-- The index of a name in the ABI names (R103). -/
def abiIndex : List Text → Nat → Text → Option Nat
  | [], _, _ => none
  | n :: rest, i, name => if n = name then some i else abiIndex rest (i + 1) name

/-- The literal form `x<N>` with `0 <= N <= 31`, leading zeros allowed (R102, D14). -/
def literalIndex : Text → Option Nat
  | 'x' :: t =>
    match digits 10 decimalDigit t with
    | some n => if n ≤ 31 then some n else none
    | none => none
  | _ => none

/-- `register_index_of(name)` (R102). -/
def registerIndexOf (cfg : Config) (line : Option Nat) (name : Text) : Except CoreError Nat :=
  match abiIndex cfg.abiNames 0 name with
  | some n => .ok n
  | none =>
    match literalIndex name with
    | some n => .ok n
    | none => .error (.invalidRegister line name)

/-! ### Immediates and memory operands -/

/-- The label table, the latest definition first (R166; 00_scope.md glossary). -/
abbrev Labels := List (Text × Nat)

/-- The byte offset of a label; a later definition replaces an earlier one (R166, D15). -/
def labelOffset : Labels → Text → Option Nat
  | [], _ => none
  | entry :: rest, name => if entry.1 = name then some entry.2 else labelOffset rest name

/-- `resolve_imm(tok, pc, labels)`: a literal first, then a label, which is relative to the pc (R172, D16). -/
def resolveImm (line pc : Nat) (labels : Labels) (tok : Text) : Except CoreError Int :=
  match literal tok with
  | some v => .ok v
  | none =>
    match labelOffset labels tok with
    | some offset => .ok ((offset : Int) - (pc : Int))
    | none => .error (.undefinedLabel (some line) tok)

/-- The two parts of a memory operand `OFF(REG)`: the text before the first `(`, not empty, and the text between it
and the final `)` (R174). -/
def memoryParts (tok : Text) : Option (Text × Text) :=
  let off := tok.takeWhile (· ≠ '(')
  match tok.dropWhile (· ≠ '(') with
  | [] => none
  | _ :: rest =>
    match rest.reverse with
    | ')' :: reg => if off.isEmpty then none else some (off, reg.reverse)
    | _ => none

/-- A memory operand: its shape, then `OFF`, then `REG` (R174, R175; log 12). -/
def memoryOperand (cfg : Config) (line pc : Nat) (labels : Labels) (tok : Text) : Except CoreError (Int × Nat) :=
  match memoryParts tok with
  | none => .error (.malformedInput (some line) tok)
  | some (off, reg) => do
    let imm ← resolveImm line pc labels off
    let rs1 ← registerIndexOf cfg (some line) reg
    return (imm, rs1)

/-! ### The operands of each group -/

/-- The operand syntax of an instruction group (R170). -/
inductive OperandShape where
  /-- `m R, R, R`: rd, rs1, rs2. -/
  | threeRegisters
  /-- `m R, R, IMM`: rd, rs1, imm. -/
  | twoRegistersImm
  /-- `m R, R, IMM`: rd, rs1, shamt. -/
  | twoRegistersShamt
  /-- `m R, MEM`: rd, (imm, rs1). -/
  | load
  /-- `m R, MEM`: rs2, (imm, rs1). -/
  | store
  /-- `m R, R, IMM`: rs1, rs2, imm. -/
  | branch
  /-- `m R, IMM`: rd, imm. -/
  | registerImm
deriving DecidableEq, Repr

/-- The operand syntax of a mnemonic (R170); `unknown` is in no row and has none. -/
def operandShape : Mnemonic → Option OperandShape
  | .add | .sub | .sll | .slt | .sltu | .xor | .srl | .sra | .or | .and => some .threeRegisters
  | .addi | .slti | .sltiu | .xori | .ori | .andi | .jalr => some .twoRegistersImm
  | .slli | .srli | .srai => some .twoRegistersShamt
  | .lb | .lh | .lw | .lbu | .lhu => some .load
  | .sb | .sh | .sw => some .store
  | .beq | .bne | .blt | .bge | .bltu | .bgeu => some .branch
  | .lui | .auipc | .jal => some .registerImm
  | .unknown => none

/-- Read the operand tokens of an instruction, left to right; a wrong count comes first and is `MalformedInput` of
the instruction's text (R170, R175, R306). -/
def readOperands (cfg : Config) (line pc : Nat) (labels : Labels) (text : Text) (shape : OperandShape)
    (operands : List Text) : Except CoreError OperandValues :=
  match shape, operands with
  | .threeRegisters, [a, b, c] => do
    let rd ← registerIndexOf cfg (some line) a
    let rs1 ← registerIndexOf cfg (some line) b
    let rs2 ← registerIndexOf cfg (some line) c
    return { rd := rd, rs1 := rs1, rs2 := rs2 }
  | .twoRegistersImm, [a, b, c] => do
    let rd ← registerIndexOf cfg (some line) a
    let rs1 ← registerIndexOf cfg (some line) b
    let imm ← resolveImm line pc labels c
    return { rd := rd, rs1 := rs1, imm := imm }
  | .twoRegistersShamt, [a, b, c] => do
    let rd ← registerIndexOf cfg (some line) a
    let rs1 ← registerIndexOf cfg (some line) b
    let shamt ← resolveImm line pc labels c
    return { rd := rd, rs1 := rs1, shamt := shamt }
  | .load, [a, b] => do
    let rd ← registerIndexOf cfg (some line) a
    let (imm, rs1) ← memoryOperand cfg line pc labels b
    return { rd := rd, rs1 := rs1, imm := imm }
  | .store, [a, b] => do
    let rs2 ← registerIndexOf cfg (some line) a
    let (imm, rs1) ← memoryOperand cfg line pc labels b
    return { rs1 := rs1, rs2 := rs2, imm := imm }
  | .branch, [a, b, c] => do
    let rs1 ← registerIndexOf cfg (some line) a
    let rs2 ← registerIndexOf cfg (some line) b
    let imm ← resolveImm line pc labels c
    return { rs1 := rs1, rs2 := rs2, imm := imm }
  | .registerImm, [a, b] => do
    let rd ← registerIndexOf cfg (some line) a
    let imm ← resolveImm line pc labels b
    return { rd := rd, imm := imm }
  | _, _ => .error (.malformedInput (some line) text)

end Sys2Proof.Machine
end

