-- ==== Sys2Proof/Machine/Assembler.lean ====
section
/-! DEFINITION. The encoder's dispatch stage (R106, R149), the two-pass assembler (44_assembler.md) and the creation
of a memory instance from an initialization string (R54). -/

namespace Sys2Proof.Machine

/-! ### Dispatch -/

/-- `select(mnemonic)`: the row whose mnemonic has this name (R106). -/
def selectRow (cfg : Config) (line : Option Nat) (mnemonic : Text) : Except CoreError TableRow :=
  match cfg.mnemonicTable.find? (fun row => row.mnemonic.name == mnemonic) with
  | some row => .ok row
  | none => .error (.unknownInstruction line mnemonic)

/-- The row is one of the three shifts by an immediate amount (R149). -/
def isShiftImm : Mnemonic → Bool
  | .slli => true
  | .srli => true
  | .srai => true
  | _ => false

/-- A constant field of a row, as the integer a packer takes; an absent one is not packed (R106). -/
def constField {n : Nat} (field : Option (BitVec n)) : Int :=
  match field with
  | some v => v.toNat
  | none => 0

/-- The packer of the row's format, called with the row's constants and the operand values (R149). A row without a
format packs nothing; no row of the table is one (R104). -/
def packRow (cfg : Config) (row : TableRow) (ops : OperandValues) : Word :=
  let op : Int := row.opcode.toNat
  let f3 := constField row.funct3
  let f7 := constField row.funct7
  match row.format with
  | .R => Sys2Proof.encodeR op ops.rd f3 ops.rs1 ops.rs2 f7
  | .I =>
    if isShiftImm row.mnemonic then
      Sys2Proof.encodeI op ops.rd f3 ops.rs1 (shiftImm (trunc 7 f7) (trunc 5 ops.shamt)).toNat
    else Sys2Proof.encodeI op ops.rd f3 ops.rs1 ops.imm
  | .S => Sys2Proof.encodeS op f3 ops.rs1 ops.rs2 ops.imm
  | .B => Sys2Proof.encodeB op f3 ops.rs1 ops.rs2 ops.imm
  | .U => Sys2Proof.encodeU cfg.uOperandForm op ops.rd ops.imm
  | .J => Sys2Proof.encodeJ op ops.rd ops.imm
  | .NONE => 0#32

/-- `encode(mnemonic, operands)` (R149). -/
def encodeDispatch (cfg : Config) (line : Option Nat) (mnemonic : Text) (ops : OperandValues) :
    Except CoreError Word :=
  match selectRow cfg line mnemonic with
  | .error e => .error e
  | .ok row => .ok (packRow cfg row ops)

/-! ### Lines -/

/-- The class of a source line (R163). -/
inductive LineClass where
  /-- Blank, or a comment only (R161). -/
  | blank
  /-- `name:` (R162). -/
  | labelOnly (name : Text)
  /-- `name: rest`; the instruction text is `rest` (R162). -/
  | labelled (name text : Text)
  /-- An instruction without a label. -/
  | plain (text : Text)
deriving DecidableEq, Repr

/-- The lines of a source: split at each line feed (R161, D34). -/
def splitLines (source : Text) : List Text := splitAt (· = '\n') source

/-- The text of a line before its first `#`, trimmed (R161). -/
def stripComment (line : Text) : Text := trim (line.takeWhile (· ≠ '#'))

/-- A character that no label name holds (R162). -/
def notInLabel (c : Char) : Bool := isSpace c || c == ',' || c == '(' || c == ')'

/-- The text before the first `:` is a label's name (R162): not empty, and with no white space, `,`, `(` or `)` in it,
so white space before the colon makes it none. -/
def isLabelName (before : Text) : Bool := !before.isEmpty && !before.any notInLabel

/-- The class of a line (R161 to R163). -/
def classify (line : Text) : LineClass :=
  let t := stripComment line
  let before := t.takeWhile (· ≠ ':')
  if t.isEmpty then .blank
  else
    match t.dropWhile (· ≠ ':') with
    | [] => .plain t
    | _ :: after =>
      if isLabelName before then
        (if (trim after).isEmpty then .labelOnly before else .labelled before (trim after))
      else .plain t

/-- The instruction text of an instruction-bearing line (R163). -/
def LineClass.instruction : LineClass → Option Text
  | .blank => none
  | .labelOnly _ => none
  | .labelled _ text => some text
  | .plain text => some text

/-- The label a line defines (R162). -/
def LineClass.label : LineClass → Option Text
  | .blank => none
  | .labelOnly name => some name
  | .labelled name _ => some name
  | .plain _ => none

/-- The assembly-time pc after a line (R164, R165). -/
def pcAfter (cfg : Config) (pc : Nat) : LineClass → Nat
  | .blank => pc
  | .labelOnly _ => if cfg.labelOnlyLineAdvancesPc then pc + 4 else pc
  | .labelled _ _ => pc + 4
  | .plain _ => pc + 4

/-- A line's label, if it has one, names the pc before the line (R166). -/
def defineLabel (pc : Nat) (labels : Labels) (line : LineClass) : Labels :=
  match line.label with
  | some name => (name, pc) :: labels
  | none => labels

/-! ### The two passes -/

/-- Pass 1, the label scan (R166). It raises nothing. -/
def pass1 (cfg : Config) (pc : Nat) (labels : Labels) : List LineClass → Labels
  | [] => labels
  | line :: rest => pass1 cfg (pcAfter cfg pc line) (defineLabel pc labels line) rest

/-- The tokens of an instruction text: every comma is a space, and the text is split on white space (R168). -/
def tokensOf (text : Text) : List Text := splitSpaces (text.map (fun c => if c = ',' then ' ' else c))

/-- `encode_line(text, pc, labels)`: the mnemonic, then the operand count, then each operand (R168 to R175). -/
def encodeLine (cfg : Config) (line pc : Nat) (labels : Labels) (text : Text) : Except CoreError Word :=
  match tokensOf text with
  | [] =>
    .error (if Config.noTokenIsMalformed then .malformedInput (some line) text
      else .unknownInstruction (some line) [])
  | first :: operands => do
    let row ← selectRow cfg (some line) (first.map lowerAscii)
    match operandShape row.mnemonic with
    | none => .error (.malformedInput (some line) text)
    | some shape =>
      let ops ← readOperands cfg line pc labels text shape operands
      return packRow cfg row ops

/-- Pass 2, the encoding (R167): the first failing line ends it with no words (R302, R306). -/
def pass2 (cfg : Config) (labels : Labels) (number pc : Nat) : List LineClass → Except CoreError (List Word)
  | [] => .ok []
  | line :: rest =>
    match line.instruction with
    | none => pass2 cfg labels (number + 1) (pcAfter cfg pc line) rest
    | some text =>
      match encodeLine cfg number pc labels text with
      | .error e => .error e
      | .ok w =>
        match pass2 cfg labels (number + 1) (pcAfter cfg pc line) rest with
        | .error e => .error e
        | .ok ws => .ok (w :: ws)

/-- The lines of a source, classified. -/
def linesOf (source : Text) : List LineClass := (splitLines source).map classify

/-- `assemble(source)`: both passes start with pc 0, pass 1 with no label, and lines count from 1
(R160, R161, R177, R333). -/
def assemble (cfg : Config) (source : Text) : Except CoreError (List Word) :=
  pass2 cfg (pass1 cfg 0 [] (linesOf source)) 1 0 (linesOf source)

/-! ### Creation from an initialization string -/

/-- The integers of an initialization string's tokens; a token that is none raises `MalformedInput` (R54). DESIGN CHOICE:
of several such tokens the error carries the leftmost; the spec says only that the error is raised (R54, R303, R306; log 28). -/
def parseInitialWords : List Text → Except CoreError (List Int)
  | [] => .ok []
  | tok :: rest =>
    match decimalInteger tok with
    | none => .error (.malformedInput none tok)
    | some v =>
      match parseInitialWords rest with
      | .error e => .error e
      | .ok vs => .ok (v :: vs)

/-- `new` from an initialization string: the string is parsed before its count is compared (R54, R306). A negative
capacity is refused first (D25; log 21). -/
def memNewFromString (byteCapacity : Int) (initialization : Text) (s : State) : Host.Outcome State Fault Refusal :=
  if byteCapacity < 0 then reject (.negativeCapacity byteCapacity) s
  else
    match parseInitialWords (splitSpaces initialization) with
    | .error e => raiseError e s
    | .ok vs => memNew byteCapacity vs s

end Sys2Proof.Machine
end

