-- ==== Sys2Proof/Machine/BType.lean ====
section
/-! DEFINITION. The B-type instructions (48_b_type.md). Each presents the decoder's record of its word and
changes no state: it "computes nothing in this core", writes no flag and raises nothing at decode (log 3). -/

namespace Sys2Proof.Machine

/-- `beq rs1, rs2, offset`: the record carries rs1, rs2 and the offset in imm_b; no branch is evaluated (R241). -/
def execBeq (rs1 rs2 : Reg) (offset : BitVec 13) (s : State) : Host.Outcome State Fault Refusal :=
  present .B .beq (packB 0x63#7 0b000#3 rs1 rs2 offset) s

/-- `bne rs1, rs2, offset`: the record carries rs1, rs2 and the offset in imm_b; no branch is evaluated (R242). -/
def execBne (rs1 rs2 : Reg) (offset : BitVec 13) (s : State) : Host.Outcome State Fault Refusal :=
  present .B .bne (packB 0x63#7 0b001#3 rs1 rs2 offset) s

/-- `blt rs1, rs2, offset`: the record carries rs1, rs2 and the offset in imm_b; no branch is evaluated (R243). -/
def execBlt (rs1 rs2 : Reg) (offset : BitVec 13) (s : State) : Host.Outcome State Fault Refusal :=
  present .B .blt (packB 0x63#7 0b100#3 rs1 rs2 offset) s

/-- `bge rs1, rs2, offset`: the record carries rs1, rs2 and the offset in imm_b; no branch is evaluated (R244). -/
def execBge (rs1 rs2 : Reg) (offset : BitVec 13) (s : State) : Host.Outcome State Fault Refusal :=
  present .B .bge (packB 0x63#7 0b101#3 rs1 rs2 offset) s

/-- `bltu rs1, rs2, offset`: the record carries rs1, rs2 and the offset in imm_b; no branch is evaluated (R245). -/
def execBltu (rs1 rs2 : Reg) (offset : BitVec 13) (s : State) : Host.Outcome State Fault Refusal :=
  present .B .bltu (packB 0x63#7 0b110#3 rs1 rs2 offset) s

/-- `bgeu rs1, rs2, offset`: the record carries rs1, rs2 and the offset in imm_b; no branch is evaluated (R246). -/
def execBgeu (rs1 rs2 : Reg) (offset : BitVec 13) (s : State) : Host.Outcome State Fault Refusal :=
  present .B .bgeu (packB 0x63#7 0b111#3 rs1 rs2 offset) s

end Sys2Proof.Machine
end

