-- ==== Sys2Proof/Machine/IType.lean ====
section
/-! DEFINITION. The I-type instructions (46_i_type.md). Each presents the decoder's record of its word and
changes no state: it "computes nothing in this core", writes no flag and raises nothing at decode (log 3). -/

namespace Sys2Proof.Machine

/-- `addi rd, rs1, imm`: the record carries rd, rs1 and imm_i (R212). -/
def execAddi (rd rs1 : Reg) (imm : BitVec 12) (s : State) : Host.Outcome State Fault Refusal :=
  present .I .addi (packI 0x13#7 rd 0b000#3 rs1 imm) s

/-- `slti rd, rs1, imm`: the record carries rd, rs1 and imm_i (R213). -/
def execSlti (rd rs1 : Reg) (imm : BitVec 12) (s : State) : Host.Outcome State Fault Refusal :=
  present .I .slti (packI 0x13#7 rd 0b010#3 rs1 imm) s

/-- `sltiu rd, rs1, imm`: the record carries rd, rs1 and imm_i (R214). -/
def execSltiu (rd rs1 : Reg) (imm : BitVec 12) (s : State) : Host.Outcome State Fault Refusal :=
  present .I .sltiu (packI 0x13#7 rd 0b011#3 rs1 imm) s

/-- `xori rd, rs1, imm`: the record carries rd, rs1 and imm_i (R215). -/
def execXori (rd rs1 : Reg) (imm : BitVec 12) (s : State) : Host.Outcome State Fault Refusal :=
  present .I .xori (packI 0x13#7 rd 0b100#3 rs1 imm) s

/-- `ori rd, rs1, imm`: the record carries rd, rs1 and imm_i (R216). -/
def execOri (rd rs1 : Reg) (imm : BitVec 12) (s : State) : Host.Outcome State Fault Refusal :=
  present .I .ori (packI 0x13#7 rd 0b110#3 rs1 imm) s

/-- `andi rd, rs1, imm`: the record carries rd, rs1 and imm_i (R217). -/
def execAndi (rd rs1 : Reg) (imm : BitVec 12) (s : State) : Host.Outcome State Fault Refusal :=
  present .I .andi (packI 0x13#7 rd 0b111#3 rs1 imm) s

/-- `slli rd, rs1, shamt`: the record carries rd, rs1, shamt in rs2 and the selector in funct7 (R218). -/
def execSlli (rd rs1 : Reg) (shamt : BitVec 5) (s : State) : Host.Outcome State Fault Refusal :=
  present .I .slli (packI 0x13#7 rd 0b001#3 rs1 (shiftImm 0b0000000#7 shamt)) s

/-- `srli rd, rs1, shamt`: the record carries rd, rs1, shamt in rs2 and the selector in funct7 (R219). -/
def execSrli (rd rs1 : Reg) (shamt : BitVec 5) (s : State) : Host.Outcome State Fault Refusal :=
  present .I .srli (packI 0x13#7 rd 0b101#3 rs1 (shiftImm 0b0000000#7 shamt)) s

/-- `srai rd, rs1, shamt`: the record carries rd, rs1, shamt in rs2 and the selector in funct7 (R220). -/
def execSrai (rd rs1 : Reg) (shamt : BitVec 5) (s : State) : Host.Outcome State Fault Refusal :=
  present .I .srai (packI 0x13#7 rd 0b101#3 rs1 (shiftImm 0b0100000#7 shamt)) s

/-- `lb rd, offset(rs1)`: the record carries rd, rs1 and the offset in imm_i; the core performs no load (R221). -/
def execLb (rd rs1 : Reg) (offset : BitVec 12) (s : State) : Host.Outcome State Fault Refusal :=
  present .I .lb (packI 0x03#7 rd 0b000#3 rs1 offset) s

/-- `lh rd, offset(rs1)`: the record carries rd, rs1 and the offset in imm_i; the core performs no load (R222). -/
def execLh (rd rs1 : Reg) (offset : BitVec 12) (s : State) : Host.Outcome State Fault Refusal :=
  present .I .lh (packI 0x03#7 rd 0b001#3 rs1 offset) s

/-- `lw rd, offset(rs1)`: the record carries rd, rs1 and the offset in imm_i; the core performs no load (R223). -/
def execLw (rd rs1 : Reg) (offset : BitVec 12) (s : State) : Host.Outcome State Fault Refusal :=
  present .I .lw (packI 0x03#7 rd 0b010#3 rs1 offset) s

/-- `lbu rd, offset(rs1)`: the record carries rd, rs1 and the offset in imm_i; the core performs no load (R224). -/
def execLbu (rd rs1 : Reg) (offset : BitVec 12) (s : State) : Host.Outcome State Fault Refusal :=
  present .I .lbu (packI 0x03#7 rd 0b100#3 rs1 offset) s

/-- `lhu rd, offset(rs1)`: the record carries rd, rs1 and the offset in imm_i; the core performs no load (R225). -/
def execLhu (rd rs1 : Reg) (offset : BitVec 12) (s : State) : Host.Outcome State Fault Refusal :=
  present .I .lhu (packI 0x03#7 rd 0b101#3 rs1 offset) s

/-- `jalr rd, rs1, imm`: the record carries rd, rs1 and imm_i, bit 0 of the immediate among it (R226). -/
def execJalr (rd rs1 : Reg) (imm : BitVec 12) (s : State) : Host.Outcome State Fault Refusal :=
  present .I .jalr (packI 0x67#7 rd 0b000#3 rs1 imm) s

end Sys2Proof.Machine
end

