-- ==== Sys2Proof/Machine/RType.lean ====
section
/-! DEFINITION. The R-type instructions (45_r_type.md). Each presents the decoder's record of its word and
changes no state: it "computes nothing in this core", writes no flag and raises nothing at decode (log 3). -/

namespace Sys2Proof.Machine

/-- `add rd, rs1, rs2`: the record carries rd, rs1, rs2 and the constant opcode, funct3 and funct7 (R201). -/
def execAdd (rd rs1 rs2 : Reg) (s : State) : Host.Outcome State Fault Refusal :=
  present .R .add (packR 0x33#7 rd 0b000#3 rs1 rs2 0b0000000#7) s

/-- `sub rd, rs1, rs2`: the record carries rd, rs1, rs2 and the constant opcode, funct3 and funct7 (R202). -/
def execSub (rd rs1 rs2 : Reg) (s : State) : Host.Outcome State Fault Refusal :=
  present .R .sub (packR 0x33#7 rd 0b000#3 rs1 rs2 0b0100000#7) s

/-- `sll rd, rs1, rs2`: the record carries rd, rs1, rs2 and the constant opcode, funct3 and funct7 (R203). -/
def execSll (rd rs1 rs2 : Reg) (s : State) : Host.Outcome State Fault Refusal :=
  present .R .sll (packR 0x33#7 rd 0b001#3 rs1 rs2 0b0000000#7) s

/-- `slt rd, rs1, rs2`: the record carries rd, rs1, rs2 and the constant opcode, funct3 and funct7 (R204). -/
def execSlt (rd rs1 rs2 : Reg) (s : State) : Host.Outcome State Fault Refusal :=
  present .R .slt (packR 0x33#7 rd 0b010#3 rs1 rs2 0b0000000#7) s

/-- `sltu rd, rs1, rs2`: the record carries rd, rs1, rs2 and the constant opcode, funct3 and funct7 (R205). -/
def execSltu (rd rs1 rs2 : Reg) (s : State) : Host.Outcome State Fault Refusal :=
  present .R .sltu (packR 0x33#7 rd 0b011#3 rs1 rs2 0b0000000#7) s

/-- `xor rd, rs1, rs2`: the record carries rd, rs1, rs2 and the constant opcode, funct3 and funct7 (R206). -/
def execXor (rd rs1 rs2 : Reg) (s : State) : Host.Outcome State Fault Refusal :=
  present .R .xor (packR 0x33#7 rd 0b100#3 rs1 rs2 0b0000000#7) s

/-- `srl rd, rs1, rs2`: the record carries rd, rs1, rs2 and the constant opcode, funct3 and funct7 (R207). -/
def execSrl (rd rs1 rs2 : Reg) (s : State) : Host.Outcome State Fault Refusal :=
  present .R .srl (packR 0x33#7 rd 0b101#3 rs1 rs2 0b0000000#7) s

/-- `sra rd, rs1, rs2`: the record carries rd, rs1, rs2 and the constant opcode, funct3 and funct7 (R208). -/
def execSra (rd rs1 rs2 : Reg) (s : State) : Host.Outcome State Fault Refusal :=
  present .R .sra (packR 0x33#7 rd 0b101#3 rs1 rs2 0b0100000#7) s

/-- `or rd, rs1, rs2`: the record carries rd, rs1, rs2 and the constant opcode, funct3 and funct7 (R209). -/
def execOr (rd rs1 rs2 : Reg) (s : State) : Host.Outcome State Fault Refusal :=
  present .R .or (packR 0x33#7 rd 0b110#3 rs1 rs2 0b0000000#7) s

/-- `and rd, rs1, rs2`: the record carries rd, rs1, rs2 and the constant opcode, funct3 and funct7 (R210). -/
def execAnd (rd rs1 rs2 : Reg) (s : State) : Host.Outcome State Fault Refusal :=
  present .R .and (packR 0x33#7 rd 0b111#3 rs1 rs2 0b0000000#7) s

end Sys2Proof.Machine
end

