-- ==== Sys2Proof/Machine/SType.lean ====
section
/-! DEFINITION. The S-type instructions (47_s_type.md). Each presents the decoder's record of its word and
changes no state: it "computes nothing in this core", writes no flag and raises nothing at decode (log 3). -/

namespace Sys2Proof.Machine

/-- `sb rs2, offset(rs1)`: the record carries rs1, rs2 and the offset in imm_s; the core performs no store (R231). -/
def execSb (rs1 rs2 : Reg) (offset : BitVec 12) (s : State) : Host.Outcome State Fault Refusal :=
  present .S .sb (packS 0x23#7 0b000#3 rs1 rs2 offset) s

/-- `sh rs2, offset(rs1)`: the record carries rs1, rs2 and the offset in imm_s; the core performs no store (R232). -/
def execSh (rs1 rs2 : Reg) (offset : BitVec 12) (s : State) : Host.Outcome State Fault Refusal :=
  present .S .sh (packS 0x23#7 0b001#3 rs1 rs2 offset) s

/-- `sw rs2, offset(rs1)`: the record carries rs1, rs2 and the offset in imm_s; the core performs no store (R233). -/
def execSw (rs1 rs2 : Reg) (offset : BitVec 12) (s : State) : Host.Outcome State Fault Refusal :=
  present .S .sw (packS 0x23#7 0b010#3 rs1 rs2 offset) s

end Sys2Proof.Machine
end

