-- ==== Sys2Proof/Machine/UJType.lean ====
section
/-! DEFINITION. The U-type and J-type instructions (49_u_j_type.md). Each presents the decoder's record of its word and
changes no state: it "computes nothing in this core", writes no flag and raises nothing at decode (log 3). -/

namespace Sys2Proof.Machine

/-- `lui rd, imm20`: the record carries rd and imm_u (R251). -/
def execLui (rd : Reg) (imm20 : BitVec 20) (s : State) : Host.Outcome State Fault Refusal :=
  present .U .lui (packU 0x37#7 rd imm20) s

/-- `auipc rd, imm20`: the record carries rd and imm_u (R252). -/
def execAuipc (rd : Reg) (imm20 : BitVec 20) (s : State) : Host.Outcome State Fault Refusal :=
  present .U .auipc (packU 0x17#7 rd imm20) s

/-- `jal rd, offset`: the record carries rd and the offset in imm_j; no jump is taken and no link written (R253). -/
def execJal (rd : Reg) (offset : BitVec 21) (s : State) : Host.Outcome State Fault Refusal :=
  present .J .jal (packJ 0x6F#7 rd offset) s

end Sys2Proof.Machine
end

