-- ==== Sys2Proof/Machine/Serve.lean ====
section
/-! DEFINITION. Serving one operation that a caller asked for: a word for the decoder, a packer, a table lookup, the
assembler, or a memory operation. -/

namespace Sys2Proof.Machine

/-- Serve one operation. A word handed to the decoder runs the meaning of the instruction it stands for; a word that
stands for none gets its record with the mnemonic `unknown` (R83, R130). -/
def serve (r : Request) (s : State) : Host.Outcome State Fault Refusal :=
  match r with
  | .decode w =>
    match Sys2Proof.decode w with
    | .ok i => exec i s
    | .error _ => presentUnknown w s
  | .encodeR op rd f3 rs1 rs2 f7 => .next (s.answer (.encoded (Sys2Proof.encodeR op rd f3 rs1 rs2 f7)))
  | .encodeI op rd f3 rs1 imm => .next (s.answer (.encoded (Sys2Proof.encodeI op rd f3 rs1 imm)))
  | .encodeS op f3 rs1 rs2 imm => .next (s.answer (.encoded (Sys2Proof.encodeS op f3 rs1 rs2 imm)))
  | .encodeB op f3 rs1 rs2 imm => .next (s.answer (.encoded (Sys2Proof.encodeB op f3 rs1 rs2 imm)))
  | .encodeU op rd imm => .next (s.answer (.encoded (Sys2Proof.encodeU machineConfig.uOperandForm op rd imm)))
  | .encodeJ op rd imm => .next (s.answer (.encoded (Sys2Proof.encodeJ op rd imm)))
  | .encode mnemonic operands => answerWith s .encoded (encodeDispatch machineConfig none mnemonic operands)
  | .formatOf op => .next (s.answer (.format (Sys2Proof.formatOf machineConfig op)))
  | .mnemonicOf op f3 f7 => .next (s.answer (.mnemonic (Sys2Proof.mnemonicOf machineConfig op f3 f7)))
  | .registerIndexOf name => answerWith s .registerIndex (registerIndexOf machineConfig none name)
  | .select mnemonic => answerWith s .row (selectRow machineConfig none mnemonic)
  | .assemble source => answerWith s .words (assemble machineConfig source)
  | .memNew byteCapacity initialWords => memNew byteCapacity initialWords s
  | .memNewFromString byteCapacity initialization => memNewFromString byteCapacity initialization s
  | .memRead inst addr => memRead inst addr s
  | .memWrite inst addr value be => memWrite inst addr value be s
  | .memReset inst => memReset inst s
  | .storeByte inst addr value => storeByte inst addr value s
  | .storeHalf inst addr value => storeHalf inst addr value s
  | .storeWord inst addr value => storeWord inst addr value s

end Sys2Proof.Machine
end

