-- ==== Sys2Proof/Machine/Step.lean ====
section
/-! DEFINITION. One step: the oldest operation asked for is served, whole (R57, R58). -/

namespace Sys2Proof.Machine

/-- One step: the oldest pending operation is taken from the list and served. With nothing asked for, nothing
happens (R307, R317; log 15). -/
def step (s : State) : Host.Outcome State Fault Refusal :=
  match s.pending with
  | [] => .next s
  | r :: rest => serve r { s with pending := rest }

/-- The state in which the very next step decodes and runs the opcode table's word `w`: the CORE fetches nothing
(R61), so the caller hands the word to the decoder before anything else asked for (log 4). -/
def State.withFetchWord (s : State) (nbits w : Nat) : State :=
  { s with pending := .decode (tableWord nbits w) :: s.pending }

end Sys2Proof.Machine
end

