-- ==== Sys2Proof/Safety.lean ====
section
/-! DEFINITION. What a safe run is, in the terms the statements use: every memory instance keeps its canonical form,
and no step stops the machine. -/

namespace Sys2Proof.Machine

/-- Every memory instance is in canonical form: its bytes lie in its slots and are listed once (R20, R29). -/
def State.Inv (s : State) : Prop := ∀ m ∈ s.instances, m.wf

/-- The instance an operation names, if it names one. -/
def Request.target : Request → Option Nat
  | .memRead inst _ => some inst
  | .memWrite inst _ _ _ => some inst
  | .memReset inst => some inst
  | .storeByte inst _ _ => some inst
  | .storeHalf inst _ _ => some inst
  | .storeWord inst _ _ => some inst
  | .decode _ => none
  | .encodeR _ _ _ _ _ _ => none
  | .encodeI _ _ _ _ _ => none
  | .encodeS _ _ _ _ _ => none
  | .encodeB _ _ _ _ _ => none
  | .encodeU _ _ _ => none
  | .encodeJ _ _ _ => none
  | .encode _ _ => none
  | .formatOf _ => none
  | .mnemonicOf _ _ _ => none
  | .registerIndexOf _ => none
  | .select _ => none
  | .assemble _ => none
  | .memNew _ _ => none
  | .memNewFromString _ _ => none

/-- The caller keeps R335: it has created the instance that the operation names. -/
def State.admits (s : State) (r : Request) : Prop := ∀ k, r.target = some k → k < s.instances.length

/-- A state that a run from power-on reaches, the caller asking for operations at any time. -/
inductive Reachable : State → Prop where
  /-- The state after reset. -/
  | reset : Reachable State.reset
  /-- The caller asks for one more operation. -/
  | ask (s : State) (r : Request) : Reachable s → Reachable { s with pending := s.pending ++ [r] }
  /-- The machine steps. -/
  | step (s t : State) : Reachable s → Sys2Proof.Machine.step s = .next t → Reachable t

end Sys2Proof.Machine
end

