-- ==== Sys2Proof/Certificates/Slice0/Obligations.lean ====
section
/-! DEFINITION. The statements for the provers, and the few functions they are said in. -/

namespace Sys2Proof.Stated

open Sys2Proof.Machine

/-- `v[hi:lo]` of a mathematical integer: `floor(v / 2^lo) mod 2^(hi-lo+1)` (R9). -/
def bitsOf (v : Int) (hi lo : Nat) : Nat := (v / 2 ^ lo % 2 ^ (hi - lo + 1)).toNat

/-- `toSigned_N` of an unsigned integer below `2^N` (R11). -/
def toSigned (n v : Nat) : Int := if 2 ^ (n - 1) ≤ v then (v : Int) - 2 ^ n else v

/-- The word of slot `k` after a masked write: per lane, the value's byte or the old byte (R44). -/
def mergeLanes (old v : Word) (be : ByteEnable) : Word :=
  let lane (i : Nat) : Byte := if be.getLsbD i then v.extractLsb' (8 * i) 8 else old.extractLsb' (8 * i) 8
  lane 3 ++ lane 2 ++ lane 1 ++ lane 0

/-- The decoder's record in terms of the six raw fields of a word (R73, R121 to R126). -/
def recordOfFields (format : Format) (mnemonic : Mnemonic) (op : Opcode) (rd : Reg) (f3 : Funct3) (rs1 rs2 : Reg)
    (f7 : Funct7) : Decoded where
  opcode := op
  rd := rd
  funct3 := f3
  rs1 := rs1
  rs2 := rs2
  funct7 := f7
  immI := (f7 ++ rs2).signExtend 32
  immS := (f7 ++ rd).signExtend 32
  immB := (f7.extractLsb' 6 1 ++ rd.extractLsb' 0 1 ++ f7.extractLsb' 0 6 ++ rd.extractLsb' 1 4 ++ 0#1).signExtend 32
  immU := f7 ++ rs2 ++ rs1 ++ f3 ++ 0#12
  immJ := (f7.extractLsb' 6 1 ++ rs1 ++ f3 ++ rs2.extractLsb' 0 1 ++ f7.extractLsb' 0 6 ++ rs2.extractLsb' 1 4
    ++ 0#1).signExtend 32
  format := format
  mnemonic := mnemonic

/-- The record of an I-type word in terms of its 12-bit immediate (R73, R74). -/
def recordOfI (mnemonic : Mnemonic) (op : Opcode) (rd : Reg) (f3 : Funct3) (rs1 : Reg) (imm : BitVec 12) : Decoded :=
  { recordOfFields .I mnemonic op rd f3 rs1 (imm.extractLsb' 0 5) (imm.extractLsb' 5 7) with
    immI := imm.signExtend 32 }

/-- The record of an S-type word in terms of its 12-bit immediate (R73, R75). -/
def recordOfS (mnemonic : Mnemonic) (op : Opcode) (f3 : Funct3) (rs1 rs2 : Reg) (imm : BitVec 12) : Decoded :=
  { recordOfFields .S mnemonic op (imm.extractLsb' 0 5) f3 rs1 rs2 (imm.extractLsb' 5 7) with
    immS := imm.signExtend 32 }

/-- The record of a B-type word in terms of its byte offset; an odd offset comes back as the even one below it
(R73, R76, R150). -/
def recordOfB (mnemonic : Mnemonic) (op : Opcode) (f3 : Funct3) (rs1 rs2 : Reg) (offset : BitVec 13) : Decoded :=
  { recordOfFields .B mnemonic op (offset.extractLsb' 1 4 ++ offset.extractLsb' 11 1) f3 rs1 rs2
      (offset.extractLsb' 12 1 ++ offset.extractLsb' 5 6) with
    immB := if evenOffset offset then offset.signExtend 32 else (offset - 1#13).signExtend 32 }

/-- The record of a U-type word in terms of its 20 upper bits (R73, R77). -/
def recordOfU (mnemonic : Mnemonic) (op : Opcode) (rd : Reg) (upper : BitVec 20) : Decoded :=
  { recordOfFields .U mnemonic op rd (upper.extractLsb' 0 3) (upper.extractLsb' 3 5) (upper.extractLsb' 8 5)
      (upper.extractLsb' 13 7) with
    immU := upper ++ 0#12 }

/-- The record of a J-type word in terms of its byte offset; an odd offset comes back as the even one below it
(R73, R78, R150). -/
def recordOfJ (mnemonic : Mnemonic) (op : Opcode) (rd : Reg) (offset : BitVec 21) : Decoded :=
  { recordOfFields .J mnemonic op rd (offset.extractLsb' 12 3) (offset.extractLsb' 15 5)
      (offset.extractLsb' 1 4 ++ offset.extractLsb' 11 1) (offset.extractLsb' 20 1 ++ offset.extractLsb' 5 6) with
    immJ := if evenOffset offset then offset.signExtend 32 else (offset - 1#21).signExtend 32 }

/-- The instruction answers a next state: the record is the response and nothing else changes. -/
def Presents (i : Instr) (s : State) (d : Decoded) : Prop :=
  exec i s = .next { s with response := some (.decoded d) }

/-- A step serves the oldest operation: it is taken from the list, `a` is the response of R40, nothing else changes
(the list and the response are fields of the model's own, logs 1 and 2). -/
def StepAnswers (s : State) (rest : List Request) (a : Response) : Prop :=
  step s = .next { s with pending := rest, response := some a }

/-- The instruction-bearing lines, each with its number (R161, R163). -/
def instructionLines (number : Nat) : List LineClass → List (Nat × Text)
  | [] => []
  | line :: rest =>
    match line.instruction with
    | some text => (number, text) :: instructionLines (number + 1) rest
    | none => instructionLines (number + 1) rest

/-- The operand count of a mnemonic (R175). -/
def arity (m : Mnemonic) : Nat :=
  match operandShape m with
  | some .load => 2
  | some .store => 2
  | some .registerImm => 2
  | _ => 3

/-- The decimal value of digit characters (R102). -/
def decimalValue (ds : Text) : Nat := ds.foldl (fun n c => 10 * n + (c.toNat - 48)) 0

/-- The table row's mnemonic and the operand values of an instruction, as the assembler would hand them over. -/
def operandsOf : Instr → Mnemonic × OperandValues
  | .add rd rs1 rs2 => (.add, { rd := rd.toNat, rs1 := rs1.toNat, rs2 := rs2.toNat })
  | .sub rd rs1 rs2 => (.sub, { rd := rd.toNat, rs1 := rs1.toNat, rs2 := rs2.toNat })
  | .sll rd rs1 rs2 => (.sll, { rd := rd.toNat, rs1 := rs1.toNat, rs2 := rs2.toNat })
  | .slt rd rs1 rs2 => (.slt, { rd := rd.toNat, rs1 := rs1.toNat, rs2 := rs2.toNat })
  | .sltu rd rs1 rs2 => (.sltu, { rd := rd.toNat, rs1 := rs1.toNat, rs2 := rs2.toNat })
  | .xor rd rs1 rs2 => (.xor, { rd := rd.toNat, rs1 := rs1.toNat, rs2 := rs2.toNat })
  | .srl rd rs1 rs2 => (.srl, { rd := rd.toNat, rs1 := rs1.toNat, rs2 := rs2.toNat })
  | .sra rd rs1 rs2 => (.sra, { rd := rd.toNat, rs1 := rs1.toNat, rs2 := rs2.toNat })
  | .or rd rs1 rs2 => (.or, { rd := rd.toNat, rs1 := rs1.toNat, rs2 := rs2.toNat })
  | .and rd rs1 rs2 => (.and, { rd := rd.toNat, rs1 := rs1.toNat, rs2 := rs2.toNat })
  | .addi rd rs1 imm => (.addi, { rd := rd.toNat, rs1 := rs1.toNat, imm := imm.toInt })
  | .slti rd rs1 imm => (.slti, { rd := rd.toNat, rs1 := rs1.toNat, imm := imm.toInt })
  | .sltiu rd rs1 imm => (.sltiu, { rd := rd.toNat, rs1 := rs1.toNat, imm := imm.toInt })
  | .xori rd rs1 imm => (.xori, { rd := rd.toNat, rs1 := rs1.toNat, imm := imm.toInt })
  | .ori rd rs1 imm => (.ori, { rd := rd.toNat, rs1 := rs1.toNat, imm := imm.toInt })
  | .andi rd rs1 imm => (.andi, { rd := rd.toNat, rs1 := rs1.toNat, imm := imm.toInt })
  | .slli rd rs1 shamt => (.slli, { rd := rd.toNat, rs1 := rs1.toNat, shamt := shamt.toNat })
  | .srli rd rs1 shamt => (.srli, { rd := rd.toNat, rs1 := rs1.toNat, shamt := shamt.toNat })
  | .srai rd rs1 shamt => (.srai, { rd := rd.toNat, rs1 := rs1.toNat, shamt := shamt.toNat })
  | .lb rd rs1 offset => (.lb, { rd := rd.toNat, rs1 := rs1.toNat, imm := offset.toInt })
  | .lh rd rs1 offset => (.lh, { rd := rd.toNat, rs1 := rs1.toNat, imm := offset.toInt })
  | .lw rd rs1 offset => (.lw, { rd := rd.toNat, rs1 := rs1.toNat, imm := offset.toInt })
  | .lbu rd rs1 offset => (.lbu, { rd := rd.toNat, rs1 := rs1.toNat, imm := offset.toInt })
  | .lhu rd rs1 offset => (.lhu, { rd := rd.toNat, rs1 := rs1.toNat, imm := offset.toInt })
  | .jalr rd rs1 imm => (.jalr, { rd := rd.toNat, rs1 := rs1.toNat, imm := imm.toInt })
  | .sb rs1 rs2 offset => (.sb, { rs1 := rs1.toNat, rs2 := rs2.toNat, imm := offset.toInt })
  | .sh rs1 rs2 offset => (.sh, { rs1 := rs1.toNat, rs2 := rs2.toNat, imm := offset.toInt })
  | .sw rs1 rs2 offset => (.sw, { rs1 := rs1.toNat, rs2 := rs2.toNat, imm := offset.toInt })
  | .beq rs1 rs2 offset => (.beq, { rs1 := rs1.toNat, rs2 := rs2.toNat, imm := offset.toInt })
  | .bne rs1 rs2 offset => (.bne, { rs1 := rs1.toNat, rs2 := rs2.toNat, imm := offset.toInt })
  | .blt rs1 rs2 offset => (.blt, { rs1 := rs1.toNat, rs2 := rs2.toNat, imm := offset.toInt })
  | .bge rs1 rs2 offset => (.bge, { rs1 := rs1.toNat, rs2 := rs2.toNat, imm := offset.toInt })
  | .bltu rs1 rs2 offset => (.bltu, { rs1 := rs1.toNat, rs2 := rs2.toNat, imm := offset.toInt })
  | .bgeu rs1 rs2 offset => (.bgeu, { rs1 := rs1.toNat, rs2 := rs2.toNat, imm := offset.toInt })
  | .lui rd imm20 => (.lui, { rd := rd.toNat, imm := imm20.toInt })
  | .auipc rd imm20 => (.auipc, { rd := rd.toNat, imm := imm20.toInt })
  | .jal rd offset => (.jal, { rd := rd.toNat, imm := offset.toInt })

/-- The instruction that a mnemonic and any integer operand values stand for: each operand taken modulo the width of its
field, bit 0 of a B or J offset dropped (R147 to R150). -/
def instrOf (m : Mnemonic) (v : OperandValues) : Option Instr :=
  let rd : Reg := trunc 5 v.rd
  let rs1 : Reg := trunc 5 v.rs1
  let rs2 : Reg := trunc 5 v.rs2
  let imm12 : BitVec 12 := trunc 12 v.imm
  let shamt : BitVec 5 := trunc 5 v.shamt
  let imm13 : BitVec 13 := trunc 12 (v.imm / 2) ++ 0#1
  match m with
  | .add => some (.add rd rs1 rs2)
  | .sub => some (.sub rd rs1 rs2)
  | .sll => some (.sll rd rs1 rs2)
  | .slt => some (.slt rd rs1 rs2)
  | .sltu => some (.sltu rd rs1 rs2)
  | .xor => some (.xor rd rs1 rs2)
  | .srl => some (.srl rd rs1 rs2)
  | .sra => some (.sra rd rs1 rs2)
  | .or => some (.or rd rs1 rs2)
  | .and => some (.and rd rs1 rs2)
  | .addi => some (.addi rd rs1 imm12)
  | .slti => some (.slti rd rs1 imm12)
  | .sltiu => some (.sltiu rd rs1 imm12)
  | .xori => some (.xori rd rs1 imm12)
  | .ori => some (.ori rd rs1 imm12)
  | .andi => some (.andi rd rs1 imm12)
  | .slli => some (.slli rd rs1 shamt)
  | .srli => some (.srli rd rs1 shamt)
  | .srai => some (.srai rd rs1 shamt)
  | .lb => some (.lb rd rs1 imm12)
  | .lh => some (.lh rd rs1 imm12)
  | .lw => some (.lw rd rs1 imm12)
  | .lbu => some (.lbu rd rs1 imm12)
  | .lhu => some (.lhu rd rs1 imm12)
  | .jalr => some (.jalr rd rs1 imm12)
  | .sb => some (.sb rs1 rs2 imm12)
  | .sh => some (.sh rs1 rs2 imm12)
  | .sw => some (.sw rs1 rs2 imm12)
  | .beq => some (.beq rs1 rs2 imm13)
  | .bne => some (.bne rs1 rs2 imm13)
  | .blt => some (.blt rs1 rs2 imm13)
  | .bge => some (.bge rs1 rs2 imm13)
  | .bltu => some (.bltu rs1 rs2 imm13)
  | .bgeu => some (.bgeu rs1 rs2 imm13)
  | .lui => some (.lui rd (trunc 20 v.imm))
  | .auipc => some (.auipc rd (trunc 20 v.imm))
  | .jal => some (.jal rd (trunc 20 (v.imm / 2) ++ 0#1))
  | .unknown => none

/-- One or more characters, each a digit of the base (R173). -/
def Digits (base : Nat) (ds : Text) : Prop :=
  ds ≠ [] ∧ ∀ c ∈ ds,
    (base = 10 ∧ '0' ≤ c ∧ c ≤ '9') ∨ (base = 8 ∧ '0' ≤ c ∧ c ≤ '7') ∨ (base = 2 ∧ (c = '0' ∨ c = '1')) ∨
    (base = 16 ∧ ('0' ≤ c ∧ c ≤ '9' ∨ 'a' ≤ c ∧ c ≤ 'f' ∨ 'A' ≤ c ∧ c ≤ 'F'))

/-- The number that digit characters write in a base; a hexadecimal letter of either case counts from 10. -/
def valueOf (base : Nat) (ds : Text) : Nat :=
  ds.foldl (fun n c => base * n + (if c ≤ '9' then c.toNat - 48 else if 'a' ≤ c then c.toNat - 87 else c.toNat - 55)) 0

/-- The unsigned literals: decimal, or a prefix of either case and digits of its base (R173). -/
def UnsignedForm (body : Text) (n : Nat) : Prop :=
  ∃ base ds, Digits base ds ∧ n = valueOf base ds ∧
    ((base = 10 ∧ body = ds) ∨ (base = 16 ∧ (body = '0' :: 'x' :: ds ∨ body = '0' :: 'X' :: ds)) ∨
      (base = 8 ∧ (body = '0' :: 'o' :: ds ∨ body = '0' :: 'O' :: ds)) ∨
      (base = 2 ∧ (body = '0' :: 'b' :: ds ∨ body = '0' :: 'B' :: ds)))

/-- A text that is `body` with an optional sign, where `body` writes `n` (R54, R173). -/
def SignedForm (form : Text → Nat → Prop) (t : Text) (v : Int) : Prop :=
  ∃ body n, form body n ∧ (((t = body ∨ t = '+' :: body) ∧ v = (n : Int)) ∨ (t = '-' :: body ∧ v = -(n : Int)))

/-- Not empty, and no white space at either end (R161). -/
def Trimmed (t : Text) : Prop :=
  t ≠ [] ∧ (∀ c, t.head? = some c → isSpace c = false) ∧ ∀ c, t.getLast? = some c → isSpace c = false

/-- A character that a label's name does not hold (R162). -/
def OutOfName (c : Char) : Prop := isSpace c = true ∨ c = ',' ∨ c = '(' ∨ c = ')'

/-- A label's name, as it stands before the first `:` of a line without a comment (R161, R162). -/
def LabelName (name : Text) : Prop := name ≠ [] ∧ ∀ c ∈ name, ¬OutOfName c ∧ c ≠ ':' ∧ c ≠ '#'

/-- A register operand written `x<N>` (R102). -/
def regText (n : Int) : Text := 'x' :: Nat.toDigits 10 n.toNat

/-- An immediate operand written in decimal, with a `-` if it is negative (R173). -/
def immText (v : Int) : Text := if v < 0 then '-' :: Nat.toDigits 10 v.natAbs else Nat.toDigits 10 v.natAbs

/-- The assembly text of a mnemonic and its operand values, in the order of its group (R170). -/
def assemblyText (m : Mnemonic) (v : OperandValues) : Text :=
  m.name ++ " ".toList ++
  match operandShape m with
  | some .threeRegisters => regText v.rd ++ ", ".toList ++ regText v.rs1 ++ ", ".toList ++ regText v.rs2
  | some .twoRegistersImm => regText v.rd ++ ", ".toList ++ regText v.rs1 ++ ", ".toList ++ immText v.imm
  | some .twoRegistersShamt => regText v.rd ++ ", ".toList ++ regText v.rs1 ++ ", ".toList ++ immText v.shamt
  | some .load => regText v.rd ++ ", ".toList ++ immText v.imm ++ "(".toList ++ regText v.rs1 ++ ")".toList
  | some .store => regText v.rs2 ++ ", ".toList ++ immText v.imm ++ "(".toList ++ regText v.rs1 ++ ")".toList
  | some .branch => regText v.rs1 ++ ", ".toList ++ regText v.rs2 ++ ", ".toList ++ immText v.imm
  | some .registerImm => regText v.rd ++ ", ".toList ++ immText v.imm
  | none => []

end Sys2Proof.Stated

open Sys2Proof Sys2Proof.Machine Sys2Proof.Stated

/-! ### The decoder -/

/-- R71, R121: the six fields stand at their positions in every word, whatever the tables. -/
def Obligations.DecoderReadsEachFieldAtItsPosition : Prop :=
  ∀ (cfg : Config) (w : Word),
    (Decoded.ofWord cfg w).opcode.toNat = w.toNat % 2 ^ 7 ∧
    (Decoded.ofWord cfg w).rd.toNat = w.toNat / 2 ^ 7 % 2 ^ 5 ∧
    (Decoded.ofWord cfg w).funct3.toNat = w.toNat / 2 ^ 12 % 2 ^ 3 ∧
    (Decoded.ofWord cfg w).rs1.toNat = w.toNat / 2 ^ 15 % 2 ^ 5 ∧
    (Decoded.ofWord cfg w).rs2.toNat = w.toNat / 2 ^ 20 % 2 ^ 5 ∧
    (Decoded.ofWord cfg w).funct7.toNat = w.toNat / 2 ^ 25 % 2 ^ 7

/-- R74 to R78, R122 to R126: the five immediates of every word, as signed numbers (the U-immediate as the word's
upper bits), whatever its format. -/
def Obligations.DecoderReconstructsTheFiveImmediates : Prop :=
  ∀ (cfg : Config) (w : Word),
    (Decoded.ofWord cfg w).immI.toInt = toSigned 12 (w.toNat / 2 ^ 20) ∧
    (Decoded.ofWord cfg w).immS.toInt = toSigned 12 (w.toNat / 2 ^ 25 * 2 ^ 5 + w.toNat / 2 ^ 7 % 2 ^ 5) ∧
    (Decoded.ofWord cfg w).immB.toInt
      = toSigned 13 (w.toNat / 2 ^ 31 * 2 ^ 12 + w.toNat / 2 ^ 7 % 2 * 2 ^ 11 + w.toNat / 2 ^ 25 % 2 ^ 6 * 2 ^ 5
          + w.toNat / 2 ^ 8 % 2 ^ 4 * 2) ∧
    (Decoded.ofWord cfg w).immU.toNat = w.toNat / 2 ^ 12 * 2 ^ 12 ∧
    (Decoded.ofWord cfg w).immJ.toInt
      = toSigned 21 (w.toNat / 2 ^ 31 * 2 ^ 20 + w.toNat / 2 ^ 12 % 2 ^ 8 * 2 ^ 12 + w.toNat / 2 ^ 20 % 2 * 2 ^ 11
          + w.toNat / 2 ^ 21 % 2 ^ 10 * 2)

/-- R79: bit 31 of the word is the sign of each of the five immediates. -/
def Obligations.WordBit31IsTheSignOfEveryImmediate : Prop :=
  ∀ (cfg : Config) (w : Word),
    (Decoded.ofWord cfg w).immI.msb = w.getLsbD 31 ∧ (Decoded.ofWord cfg w).immS.msb = w.getLsbD 31 ∧
    (Decoded.ofWord cfg w).immB.msb = w.getLsbD 31 ∧ (Decoded.ofWord cfg w).immU.msb = w.getLsbD 31 ∧
    (Decoded.ofWord cfg w).immJ.msb = w.getLsbD 31

/-- R80: exactly the values of each format's range come out of the decoder. -/
def Obligations.ImmediatesTakeExactlyTheirRanges : Prop :=
  ∀ (cfg : Config) (v : Int),
    ((∃ w, (Decoded.ofWord cfg w).immI.toInt = v) ↔ -2048 ≤ v ∧ v ≤ 2047) ∧
    ((∃ w, (Decoded.ofWord cfg w).immS.toInt = v) ↔ -2048 ≤ v ∧ v ≤ 2047) ∧
    ((∃ w, (Decoded.ofWord cfg w).immB.toInt = v) ↔ -4096 ≤ v ∧ v ≤ 4094 ∧ v % 2 = 0) ∧
    ((∃ w, (Decoded.ofWord cfg w).immU.toInt = v) ↔ -2 ^ 31 ≤ v ∧ v ≤ 2 ^ 31 - 4096 ∧ v % 4096 = 0) ∧
    ((∃ w, (Decoded.ofWord cfg w).immJ.toInt = v) ↔ -1048576 ≤ v ∧ v ≤ 1048574 ∧ v % 2 = 0)

/-- R130, R132: a step on ANY of the 2^32 words answers that word's record and changes nothing else. It never
fails, and the record depends on the word and the tables alone. -/
def Obligations.StepOnAnyWordAnswersItsRecord : Prop :=
  ∀ (s : State) (w : Word) (rest : List Request), s.pending = .decode w :: rest →
    StepAnswers s rest (.decoded (Decoded.ofWord machineConfig w))

/-- Decoding the word of a well-formed instruction gives it back, with every operand. -/
def Obligations.DecodeOfEncodeIsTheInstruction : Prop :=
  ∀ i : Instr, i.wellFormed = true → decode (encode i) = .ok i

/-- A word that decodes to an instruction is that instruction's word, and the instruction is well-formed: no word
decodes to an instruction by falling through to a neighbour. -/
def Obligations.EncodeOfDecodeIsTheWord : Prop :=
  ∀ (w : Word) (i : Instr), decode w = .ok i → i.wellFormed = true ∧ encode i = w

/-- Words written out in 45_r_type.md to 49_u_j_type.md, one or two of each family, decode to their instruction. -/
def Obligations.WordsOfTheSpecDecodeToTheirInstruction : Prop :=
  decode 0b00000000001100010000000010110011#32 = .ok (.add 1 2 3) ∧
  decode 0b01000000110001011101010100110011#32 = .ok (.sra 10 11 12) ∧
  decode 0b11111111101100010000000010010011#32 = .ok (.addi 1 2 0xFFB) ∧
  decode 0b01000000000100010101000010010011#32 = .ok (.srai 1 2 1) ∧
  decode 0b10000000000001011101010100000011#32 = .ok (.lhu 10 11 0x800) ∧
  decode 0b00000000010000101000000011100111#32 = .ok (.jalr 1 5 4) ∧
  decode 0b11111110101000010001111100100011#32 = .ok (.sh 2 10 0xFFE) ∧
  decode 0b11111110000000101001111011100011#32 = .ok (.bne 5 0 0x1FFC) ∧
  decode 0b00010010001101000101001010110111#32 = .ok (.lui 5 0x12345) ∧
  decode 0b00000000000100000000000011101111#32 = .ok (.jal 1 2048)

/-- R83: the two cases of a word without an instruction. The mnemonic is `unknown` exactly if no row of the table has
the word's key, and a row that has it gives its mnemonic and format. An opcode that is none of the nine of R82 has
format `NONE` and no row; one of the nine keeps its format also where no row matches. In both cases the decoder names the
miss; in every other the word decodes to an instruction. -/
def Obligations.WordsOfNoRowDecodeAsUnknown : Prop :=
  ∀ w : Word,
    let d := Decoded.ofWord machineConfig w
    let known := [0x03#7, 0x13#7, 0x17#7, 0x23#7, 0x33#7, 0x37#7, 0x63#7, 0x67#7, 0x6F#7]
    let unmatched := ∀ row ∈ isaTable, row.hits d.opcode d.funct3 d.funct7 = false
    (d.mnemonic = .unknown ↔ unmatched) ∧
    (∀ row ∈ isaTable, row.hits d.opcode d.funct3 d.funct7 = true →
      d.mnemonic = row.mnemonic ∧ d.format = row.format) ∧
    (d.format = .NONE ↔ d.opcode ∉ known) ∧
    (d.opcode ∉ known → unmatched ∧ decode w = .error (.unknownOpcode d.opcode)) ∧
    (d.opcode ∈ known → unmatched → decode w = .error (.noMatchingRow d.format d.funct3 d.funct7)) ∧
    (d.opcode = 0x33#7 → d.format = .R) ∧ (d.opcode ∈ [0x13#7, 0x03#7, 0x67#7] → d.format = .I) ∧
    (d.opcode = 0x23#7 → d.format = .S) ∧ (d.opcode = 0x63#7 → d.format = .B) ∧
    (d.opcode ∈ [0x37#7, 0x17#7] → d.format = .U) ∧ (d.opcode = 0x6F#7 → d.format = .J) ∧
    (¬unmatched → ∃ i, decode w = .ok i)

/-- R84, R85: the words of opcodes without a format (FENCE, SYSTEM, custom and reserved ones, and every opcode whose
low bits are not `11`), of the multiply/divide rows, of unassigned funct3 values and of wrong shift selectors decode as
`unknown`; and the name depends on opcode, funct3 and funct7 alone, so a hint is its base instruction. -/
def Obligations.ExcludedEncodingsDecodeAsUnknown : Prop :=
  (∀ w : Word,
    let d := Decoded.ofWord machineConfig w
    (d.opcode.extractLsb' 0 2 ≠ 3#2 → d.format = .NONE ∧ d.mnemonic = .unknown) ∧
    (d.opcode = 0x0F#7 ∨ d.opcode = 0x73#7 → d.format = .NONE ∧ d.mnemonic = .unknown) ∧
    (d.opcode ∉ [0x03#7, 0x13#7, 0x17#7, 0x23#7, 0x33#7, 0x37#7, 0x63#7, 0x67#7, 0x6F#7] →
      d.format = .NONE ∧ d.mnemonic = .unknown) ∧
    (d.opcode = 0x33#7 → d.funct7 = 1#7 → d.format = .R ∧ d.mnemonic = .unknown) ∧
    (d.opcode = 0x13#7 → d.funct3 = 1#3 → d.funct7 ≠ 0#7 → d.format = .I ∧ d.mnemonic = .unknown) ∧
    (d.opcode = 0x13#7 → d.funct3 = 5#3 → d.funct7 ≠ 0#7 → d.funct7 ≠ 0x20#7 →
      d.format = .I ∧ d.mnemonic = .unknown) ∧
    (d.opcode = 0x03#7 → d.funct3 ∈ [3#3, 6#3, 7#3] → d.format = .I ∧ d.mnemonic = .unknown) ∧
    (d.opcode = 0x67#7 → d.funct3 ≠ 0#3 → d.format = .I ∧ d.mnemonic = .unknown) ∧
    (d.opcode = 0x23#7 → d.funct3 ∉ [0#3, 1#3, 2#3] → d.format = .S ∧ d.mnemonic = .unknown) ∧
    (d.opcode = 0x63#7 → d.funct3 ∈ [2#3, 3#3] → d.format = .B ∧ d.mnemonic = .unknown) ∧
    (d.opcode = 0x13#7 → d.funct3 = 0#3 → d.format = .I ∧ d.mnemonic = .addi)) ∧
  (∀ w w' : Word,
    let d := Decoded.ofWord machineConfig w
    let d' := Decoded.ofWord machineConfig w'
    d.opcode = d'.opcode → d.funct3 = d'.funct3 → d.funct7 = d'.funct7 →
      d.format = d'.format ∧ d.mnemonic = d'.mnemonic)

/-- R107: the mnemonics are distinct, no key matches two rows, and naming the word that a row's packer made gives
the row's mnemonic and format back, whatever the operand values. -/
def Obligations.MnemonicTableKeepsItsThreeProperties : Prop :=
  (isaTable.map (fun row => row.mnemonic.name)).Nodup ∧
  (∀ (op : Opcode) (f3 : Funct3) (f7 : Funct7) (r r' : TableRow), r ∈ isaTable → r' ∈ isaTable →
    r.hits op f3 f7 = true → r'.hits op f3 f7 = true → r = r') ∧
  (∀ (row : TableRow) (ops : OperandValues), row ∈ isaTable →
    (Decoded.ofWord machineConfig (packRow machineConfig row ops)).mnemonic = row.mnemonic ∧
    (Decoded.ofWord machineConfig (packRow machineConfig row ops)).format = row.format)

/-! ### The encoder -/

/-- R141, R142, R143: `encode_R`, `encode_I` and `encode_S` are their formulas of shifted and ORed slices, for every
integer in every place, and give the rules' example words. -/
def Obligations.PackersRISAreTheirFormulas : Prop :=
  (∀ op rd f3 rs1 rs2 f7 : Int,
    (encodeR op rd f3 rs1 rs2 f7).toNat
      = (bitsOf f7 6 0 <<< 25) ||| (bitsOf rs2 4 0 <<< 20) ||| (bitsOf rs1 4 0 <<< 15) ||| (bitsOf f3 2 0 <<< 12)
        ||| (bitsOf rd 4 0 <<< 7) ||| bitsOf op 6 0) ∧
  (∀ op rd f3 rs1 imm : Int,
    (encodeI op rd f3 rs1 imm).toNat
      = (bitsOf imm 11 0 <<< 20) ||| (bitsOf rs1 4 0 <<< 15) ||| (bitsOf f3 2 0 <<< 12) ||| (bitsOf rd 4 0 <<< 7)
        ||| bitsOf op 6 0) ∧
  (∀ op f3 rs1 rs2 imm : Int,
    (encodeS op f3 rs1 rs2 imm).toNat
      = (bitsOf imm 11 5 <<< 25) ||| (bitsOf rs2 4 0 <<< 20) ||| (bitsOf rs1 4 0 <<< 15) ||| (bitsOf f3 2 0 <<< 12)
        ||| (bitsOf imm 4 0 <<< 7) ||| bitsOf op 6 0) ∧
  encodeR 0x33 1 0 2 3 0 = 0x003100B3#32 ∧ encodeI 0x13 1 0 2 (-5) = 0xFFB10093#32 ∧
  encodeS 0x23 2 2 1 2047 = 0x7E112FA3#32

/-- R144, R145, R146: `encode_B`, `encode_U` (with `U_OPERAND_FORM = UPPER20`) and `encode_J` are their formulas, for
every integer in every place, and give the rules' example words. -/
def Obligations.PackersBUJAreTheirFormulas : Prop :=
  (∀ op f3 rs1 rs2 imm : Int,
    (encodeB op f3 rs1 rs2 imm).toNat
      = (bitsOf imm 12 12 <<< 31) ||| (bitsOf imm 10 5 <<< 25) ||| (bitsOf rs2 4 0 <<< 20) ||| (bitsOf rs1 4 0 <<< 15)
        ||| (bitsOf f3 2 0 <<< 12) ||| (bitsOf imm 4 1 <<< 8) ||| (bitsOf imm 11 11 <<< 7) ||| bitsOf op 6 0) ∧
  (∀ op rd imm : Int,
    (encodeU .upper20 op rd imm).toNat
      = (bitsOf imm 19 0 <<< 12) ||| (bitsOf rd 4 0 <<< 7) ||| bitsOf op 6 0) ∧
  (∀ op rd imm : Int,
    (encodeJ op rd imm).toNat
      = (bitsOf imm 20 20 <<< 31) ||| (bitsOf imm 10 1 <<< 21) ||| (bitsOf imm 11 11 <<< 20)
        ||| (bitsOf imm 19 12 <<< 12) ||| (bitsOf rd 4 0 <<< 7) ||| bitsOf op 6 0) ∧
  encodeB 0x63 1 5 0 (-4) = 0xFE029EE3#32 ∧ encodeU .upper20 0x37 5 0x12345 = 0x123452B7#32 ∧
  encodeJ 0x6F 1 2048 = 0x001000EF#32

/-- R151: decoding a packed word gives back the register and function fields modulo their widths and the immediate
modulo its format, and the immediate exactly when it is in range (and even, for B and J). -/
def Obligations.DecodingAPackedWordGivesItsOperandsBack : Prop :=
  ∀ (cfg : Config) (op rd f3 rs1 rs2 f7 imm : Int),
    (let d := Decoded.ofWord cfg (encodeR op rd f3 rs1 rs2 f7)
     d.opcode = trunc 7 op ∧ d.rd = trunc 5 rd ∧ d.funct3 = trunc 3 f3 ∧ d.rs1 = trunc 5 rs1 ∧ d.rs2 = trunc 5 rs2 ∧
       d.funct7 = trunc 7 f7) ∧
    (let d := Decoded.ofWord cfg (encodeI op rd f3 rs1 imm)
     d.opcode = trunc 7 op ∧ d.rd = trunc 5 rd ∧ d.funct3 = trunc 3 f3 ∧ d.rs1 = trunc 5 rs1 ∧
       d.immI.toInt = toSigned 12 (bitsOf imm 11 0) ∧ (d.immI.toInt = imm ↔ -2048 ≤ imm ∧ imm ≤ 2047)) ∧
    (let d := Decoded.ofWord cfg (encodeS op f3 rs1 rs2 imm)
     d.opcode = trunc 7 op ∧ d.funct3 = trunc 3 f3 ∧ d.rs1 = trunc 5 rs1 ∧ d.rs2 = trunc 5 rs2 ∧
       d.immS.toInt = toSigned 12 (bitsOf imm 11 0) ∧ (d.immS.toInt = imm ↔ -2048 ≤ imm ∧ imm ≤ 2047)) ∧
    (let d := Decoded.ofWord cfg (encodeB op f3 rs1 rs2 imm)
     d.opcode = trunc 7 op ∧ d.funct3 = trunc 3 f3 ∧ d.rs1 = trunc 5 rs1 ∧ d.rs2 = trunc 5 rs2 ∧
       d.immB.toInt = toSigned 13 (2 * bitsOf imm 12 1) ∧
       (d.immB.toInt = imm ↔ imm % 2 = 0 ∧ -4096 ≤ imm ∧ imm ≤ 4094)) ∧
    (let d := Decoded.ofWord cfg (encodeU .upper20 op rd imm)
     d.opcode = trunc 7 op ∧ d.rd = trunc 5 rd ∧ d.immU.toNat = 4096 * bitsOf imm 19 0) ∧
    (let d := Decoded.ofWord cfg (encodeJ op rd imm)
     d.opcode = trunc 7 op ∧ d.rd = trunc 5 rd ∧ d.immJ.toInt = toSigned 21 (2 * bitsOf imm 20 1) ∧
       (d.immJ.toInt = imm ↔ imm % 2 = 0 ∧ -1048576 ≤ imm ∧ imm ≤ 1048574))

/-- R147, R148, R150: two operand lists that agree on the bits a packer stores give the same word, however they
differ elsewhere; bit 0 of a B or J offset is one of the bits dropped, and an odd offset in range decodes as the even
one below it. -/
def Obligations.PackersDropWhatTheirFormatDoesNotHold : Prop :=
  (∀ op op' rd rd' f3 f3' rs1 rs1' rs2 rs2' f7 f7' imm imm' : Int,
    op % 128 = op' % 128 → rd % 32 = rd' % 32 → f3 % 8 = f3' % 8 → rs1 % 32 = rs1' % 32 → rs2 % 32 = rs2' % 32 →
    f7 % 128 = f7' % 128 →
    encodeR op rd f3 rs1 rs2 f7 = encodeR op' rd' f3' rs1' rs2' f7' ∧
    (imm % 4096 = imm' % 4096 → encodeI op rd f3 rs1 imm = encodeI op' rd' f3' rs1' imm' ∧
      encodeS op f3 rs1 rs2 imm = encodeS op' f3' rs1' rs2' imm') ∧
    (imm / 2 % 4096 = imm' / 2 % 4096 → encodeB op f3 rs1 rs2 imm = encodeB op' f3' rs1' rs2' imm') ∧
    (imm % 1048576 = imm' % 1048576 → encodeU .upper20 op rd imm = encodeU .upper20 op' rd' imm') ∧
    (imm / 2 % 1048576 = imm' / 2 % 1048576 → encodeJ op rd imm = encodeJ op' rd' imm')) ∧
  (∀ (cfg : Config) (op f3 rs1 rs2 imm : Int), imm % 2 = 1 → -4096 ≤ imm → imm ≤ 4095 →
    (Decoded.ofWord cfg (encodeB op f3 rs1 rs2 imm)).immB.toInt = imm - 1) ∧
  (∀ (cfg : Config) (op rd imm : Int), imm % 2 = 1 → -1048576 ≤ imm → imm ≤ 1048575 →
    (Decoded.ofWord cfg (encodeJ op rd imm)).immJ.toInt = imm - 1)

/-- R106, R147, R149: asking the dispatch stage for an instruction's mnemonic and operand values answers the
instruction's word; with any integers for operand values it answers the word of the instruction whose operands are
those values modulo their fields' widths (a shift amount modulo 32, an immediate modulo its format); a name of no row
answers `UnknownInstruction`, with no line of a source (the missing line is the model's choice, log 20). -/
def Obligations.DispatchGivesTheWordOrUnknownInstruction : Prop :=
  (∀ (s : State) (rest : List Request) (i : Instr), i.wellFormed = true →
    s.pending = .encode (operandsOf i).1.name (operandsOf i).2 :: rest → StepAnswers s rest (.encoded (encode i))) ∧
  (∀ (s : State) (rest : List Request) (m : Mnemonic) (ops : OperandValues) (i : Instr), instrOf m ops = some i →
    s.pending = .encode m.name ops :: rest → i.wellFormed = true ∧ StepAnswers s rest (.encoded (encode i))) ∧
  (∀ (s : State) (rest : List Request) (name : Text) (ops : OperandValues),
    (∀ row ∈ isaTable, row.mnemonic.name ≠ name) → s.pending = .encode name ops :: rest →
    StepAnswers s rest (.error (.unknownInstruction none name)))

/-! ### The instructions -/

/-- R200 to R210: each of the ten R-type instructions completes in every state, for every operand: the response is
the record with its constants, rd, rs1 and rs2, and nothing else changes
(that an instruction's meaning is this record is the model's reading of R5 and D32: log 3). -/
def Obligations.RTypeInstructionsPresentTheirRecord : Prop :=
  ∀ (rd rs1 rs2 : Reg) (s : State),
    Presents (.add rd rs1 rs2) s (recordOfFields .R .add 0x33#7 rd 0#3 rs1 rs2 0#7) ∧
    Presents (.sub rd rs1 rs2) s (recordOfFields .R .sub 0x33#7 rd 0#3 rs1 rs2 0x20#7) ∧
    Presents (.sll rd rs1 rs2) s (recordOfFields .R .sll 0x33#7 rd 1#3 rs1 rs2 0#7) ∧
    Presents (.slt rd rs1 rs2) s (recordOfFields .R .slt 0x33#7 rd 2#3 rs1 rs2 0#7) ∧
    Presents (.sltu rd rs1 rs2) s (recordOfFields .R .sltu 0x33#7 rd 3#3 rs1 rs2 0#7) ∧
    Presents (.xor rd rs1 rs2) s (recordOfFields .R .xor 0x33#7 rd 4#3 rs1 rs2 0#7) ∧
    Presents (.srl rd rs1 rs2) s (recordOfFields .R .srl 0x33#7 rd 5#3 rs1 rs2 0#7) ∧
    Presents (.sra rd rs1 rs2) s (recordOfFields .R .sra 0x33#7 rd 5#3 rs1 rs2 0x20#7) ∧
    Presents (.or rd rs1 rs2) s (recordOfFields .R .or 0x33#7 rd 6#3 rs1 rs2 0#7) ∧
    Presents (.and rd rs1 rs2) s (recordOfFields .R .and 0x33#7 rd 7#3 rs1 rs2 0#7)

/-- R212 to R217, R226: each register-immediate instruction and `jalr` completes in every state, for every operand:
the record's imm_i is the sign-extended immediate, and nothing else changes
(that an instruction's meaning is this record is the model's reading of R5 and D32: log 3). -/
def Obligations.ImmediateInstructionsPresentTheirRecord : Prop :=
  ∀ (rd rs1 : Reg) (imm : BitVec 12) (s : State),
    Presents (.addi rd rs1 imm) s (recordOfI .addi 0x13#7 rd 0#3 rs1 imm) ∧
    Presents (.slti rd rs1 imm) s (recordOfI .slti 0x13#7 rd 2#3 rs1 imm) ∧
    Presents (.sltiu rd rs1 imm) s (recordOfI .sltiu 0x13#7 rd 3#3 rs1 imm) ∧
    Presents (.xori rd rs1 imm) s (recordOfI .xori 0x13#7 rd 4#3 rs1 imm) ∧
    Presents (.ori rd rs1 imm) s (recordOfI .ori 0x13#7 rd 6#3 rs1 imm) ∧
    Presents (.andi rd rs1 imm) s (recordOfI .andi 0x13#7 rd 7#3 rs1 imm) ∧
    Presents (.jalr rd rs1 imm) s (recordOfI .jalr 0x67#7 rd 0#3 rs1 imm)

/-- R218 to R220: each shift by an immediate amount completes in every state, for every operand: the record's rs2
is the shift amount and its funct7 the selector, and nothing else changes
(that an instruction's meaning is this record is the model's reading of R5 and D32: log 3). -/
def Obligations.ShiftImmediatesPresentTheirRecord : Prop :=
  ∀ (rd rs1 : Reg) (shamt : BitVec 5) (s : State),
    Presents (.slli rd rs1 shamt) s (recordOfFields .I .slli 0x13#7 rd 1#3 rs1 shamt 0#7) ∧
    Presents (.srli rd rs1 shamt) s (recordOfFields .I .srli 0x13#7 rd 5#3 rs1 shamt 0#7) ∧
    Presents (.srai rd rs1 shamt) s (recordOfFields .I .srai 0x13#7 rd 5#3 rs1 shamt 0x20#7)

/-- R221 to R225: each load completes in every state, for every operand: the record's imm_i is the sign-extended
offset, no memory is read and nothing else changes
(that an instruction's meaning is this record is the model's reading of R5 and D32: log 3). -/
def Obligations.LoadsPresentTheirRecordAndReadNoMemory : Prop :=
  ∀ (rd rs1 : Reg) (offset : BitVec 12) (s : State),
    Presents (.lb rd rs1 offset) s (recordOfI .lb 0x03#7 rd 0#3 rs1 offset) ∧
    Presents (.lh rd rs1 offset) s (recordOfI .lh 0x03#7 rd 1#3 rs1 offset) ∧
    Presents (.lw rd rs1 offset) s (recordOfI .lw 0x03#7 rd 2#3 rs1 offset) ∧
    Presents (.lbu rd rs1 offset) s (recordOfI .lbu 0x03#7 rd 4#3 rs1 offset) ∧
    Presents (.lhu rd rs1 offset) s (recordOfI .lhu 0x03#7 rd 5#3 rs1 offset)

/-- R231 to R233: each store completes in every state, for every operand: the record's imm_s is the sign-extended
offset; the core performs no store, so every instance is as before, and nothing else changes
(that an instruction's meaning is this record is the model's reading of R5 and D32: log 3). -/
def Obligations.StoresPresentTheirRecordAndStoreNothing : Prop :=
  ∀ (rs1 rs2 : Reg) (offset : BitVec 12) (s : State),
    Presents (.sb rs1 rs2 offset) s (recordOfS .sb 0x23#7 0#3 rs1 rs2 offset) ∧
    Presents (.sh rs1 rs2 offset) s (recordOfS .sh 0x23#7 1#3 rs1 rs2 offset) ∧
    Presents (.sw rs1 rs2 offset) s (recordOfS .sw 0x23#7 2#3 rs1 rs2 offset)

/-- R241 to R246: each branch completes in every state, for every operand: the record's imm_b is the sign-extended
offset (of an odd one, the even offset below it); no branch is evaluated and nothing else changes
(that an instruction's meaning is this record is the model's reading of R5 and D32: log 3). -/
def Obligations.BranchesPresentTheirRecord : Prop :=
  ∀ (rs1 rs2 : Reg) (offset : BitVec 13) (s : State),
    Presents (.beq rs1 rs2 offset) s (recordOfB .beq 0x63#7 0#3 rs1 rs2 offset) ∧
    Presents (.bne rs1 rs2 offset) s (recordOfB .bne 0x63#7 1#3 rs1 rs2 offset) ∧
    Presents (.blt rs1 rs2 offset) s (recordOfB .blt 0x63#7 4#3 rs1 rs2 offset) ∧
    Presents (.bge rs1 rs2 offset) s (recordOfB .bge 0x63#7 5#3 rs1 rs2 offset) ∧
    Presents (.bltu rs1 rs2 offset) s (recordOfB .bltu 0x63#7 6#3 rs1 rs2 offset) ∧
    Presents (.bgeu rs1 rs2 offset) s (recordOfB .bgeu 0x63#7 7#3 rs1 rs2 offset)

/-- R251 to R253: `lui`, `auipc` and `jal` complete in every state, for every operand: the record's imm_u is the
upper immediate above twelve zeros, its imm_j the sign-extended offset (of an odd one, the even offset below it);
nothing is written, no jump is made and nothing else changes
(that an instruction's meaning is this record is the model's reading of R5 and D32: log 3). -/
def Obligations.UpperImmediatesAndJalPresentTheirRecord : Prop :=
  ∀ (rd : Reg) (imm20 : BitVec 20) (offset : BitVec 21) (s : State),
    Presents (.lui rd imm20) s (recordOfU .lui 0x37#7 rd imm20) ∧
    Presents (.auipc rd imm20) s (recordOfU .auipc 0x17#7 rd imm20) ∧
    Presents (.jal rd offset) s (recordOfJ .jal 0x6F#7 rd offset)

/-- Every instruction's meaning answers exactly the decoder's record of the instruction's word: the meanings, written
one by one from the rules of 45 to 49, and the table-driven decoder agree
(that an instruction's meaning is this record is the model's reading of R5 and D32: log 3). -/
def Obligations.ExecAnswersTheDecoderRecordOfTheWord : Prop :=
  ∀ (i : Instr) (s : State), Presents i s (Decoded.ofWord machineConfig (encode i))

/-- Frame of all 37 instructions: each answers a next state in which every byte of every instance reads as before,
every slot count is as before, and no pending operation is touched. -/
def Obligations.EveryInstructionLeavesEveryByteOfMemory : Prop :=
  ∀ (i : Instr) (s : State), ∃ t : State, exec i s = .next t ∧ t.pending = s.pending ∧
    t.instances.length = s.instances.length ∧
    (∀ (k : Nat) (m : Memory), s.instances[k]? = some m →
      ∃ m' : Memory, t.instances[k]? = some m' ∧ m'.slotCount = m.slotCount ∧ ∀ a, m'.byteAt a = m.byteAt a)

/-! ### The step -/

/-- When the word handed to the decoder decodes to `i`, the step is `exec i` at the state whose oldest operation has
been taken from the list. -/
def Obligations.StepRunsTheDecodedInstruction : Prop :=
  ∀ (s : State) (w : Word) (rest : List Request) (i : Instr), s.pending = .decode w :: rest → decode w = .ok i →
    step s = exec i { s with pending := rest }

/-- `withFetchWord` makes the very next step run the opcode table's word as an instruction, at the state as it was
(the way a word reaches the decoder is the model's choice, log 4). -/
def Obligations.WithFetchWordRunsTheWordNext : Prop :=
  ∀ (s : State) (nbits w : Nat) (i : Instr), decodeTableWord nbits w = some i →
    step (s.withFetchWord nbits w) = exec i s

/-- R58: operations are served one at a time, oldest first: a step takes exactly the oldest from the list and serves
it at the state that is left; what was answered before plays no part, and the response after the step is this
operation's (the list and the response are the model's own fields, logs 1 and 2). -/
def Obligations.EachStepServesExactlyTheOldestOperation : Prop :=
  ∀ (s : State) (r : Request) (rest : List Request), s.pending = r :: rest →
    step s = serve r { s with pending := rest } ∧
    (∀ q : Option Response, step { s with response := q } = step s) ∧
    ∀ t, step s = .next t → t.pending = rest ∧ t.response.isSome = true

/-- A step answers a next state on every operation that names no instance or one that was created, and answers
`refused` on none; where it stops, the operation names an instance that was never created. That this case stops is the
model's choice (log 7). So is it that the machine goes on where the spec treats a call as refused, a `new` of a negative
capacity and a halfword store at an odd address (I12, I13; log 8), and that a step with nothing asked for goes on
(log 15). -/
def Obligations.StepCompletesOnEveryAdmittedOperation : Prop :=
  ∀ s : State,
    ((∀ r rest, s.pending = r :: rest → s.admits r) → ∃ t, step s = .next t) ∧
    (∀ f, step s = .fault f → ∃ r rest k, s.pending = r :: rest ∧ r.target = some k ∧ s.instances.length ≤ k ∧
      f = .noSuchInstance k) ∧
    ∀ q, step s ≠ .refused q

/-- R21, R132, R153, R333: an operation that names no instance and creates none answers the same whatever the rest
of the state is: memory, earlier calls and later ones. -/
def Obligations.AnswersOfThePureBlocksIgnoreTheState : Prop :=
  ∀ (s s' : State) (r : Request) (rest rest' : List Request), s.pending = r :: rest → s'.pending = r :: rest' →
    r.target = none → (∀ c ws, r ≠ .memNew c ws) → (∀ c text, r ≠ .memNewFromString c text) →
    ∃ a, StepAnswers s rest a ∧ StepAnswers s' rest' a

/-! ### Memory -/

/-- R43: a read of an instance: misaligned first, then out of bounds, else the 32-bit word of the slot, and no state
changes but the response. (Which byte address each lane of the slot has is the model's, log 6.) -/
def Obligations.ReadAnswersTheSlotOrItsFirstFailingCheck : Prop :=
  ∀ (s : State) (inst : Nat) (addr : Int) (rest : List Request) (m : Memory),
    s.pending = .memRead inst addr :: rest → s.instances[inst]? = some m →
    (addr % 4 ≠ 0 → StepAnswers s rest (.error (.unaligned addr))) ∧
    (addr % 4 = 0 → (addr < 0 ∨ 4 * (m.slotCount : Int) ≤ addr) → StepAnswers s rest (.error (.outOfBounds addr))) ∧
    (addr % 4 = 0 → 0 ≤ addr → addr < 4 * (m.slotCount : Int) →
      ∃ k : Nat, 4 * (k : Int) = addr ∧ StepAnswers s rest (.rdata (m.slot k)) ∧
        ∀ i < 4, (m.slot k).extractLsb' (8 * i) 8 = m.byteAt (4 * k + i))

/-- R44: a masked write of an aligned address in bounds merges the enabled byte lanes of `trunc_32(value)` into the
slot and leaves every other slot; a failing check answers its error and changes nothing. -/
def Obligations.WriteMergesTheEnabledLanesIntoItsSlot : Prop :=
  ∀ (s : State) (inst : Nat) (addr value : Int) (be : ByteEnable) (rest : List Request) (m : Memory),
    s.pending = .memWrite inst addr value be :: rest → s.instances[inst]? = some m → m.wf →
    (addr % 4 ≠ 0 → StepAnswers s rest (.error (.unaligned addr))) ∧
    (addr % 4 = 0 → (addr < 0 ∨ 4 * (m.slotCount : Int) ≤ addr) → StepAnswers s rest (.error (.outOfBounds addr))) ∧
    (addr % 4 = 0 → 0 ≤ addr → addr < 4 * (m.slotCount : Int) →
      ∃ m', step s = .next { s with instances := s.instances.set inst m', pending := rest, response := some .done } ∧
        m'.slotCount = m.slotCount ∧
        ∀ k : Nat, m'.slot k
          = if 4 * (k : Int) = addr then mergeLanes (m.slot k) (trunc 32 value) be else m.slot k)

/-- R44, R45, R49: the frame of a masked write, byte by byte: every byte of the written instance outside the enabled
lanes of the addressed slot reads as before, whichever mask of the sixteen it is. (That byte address a stands for lane
a mod 4 of its slot is the caller's little-endian convention, R46 and D22; the block has no byte addresses inside a word,
R50, and that the model keys its cells so is log 6.) -/
def Obligations.WriteLeavesEveryByteOutsideItsEnabledLanes : Prop :=
  ∀ (s t : State) (inst : Nat) (addr value : Int) (be : ByteEnable) (rest : List Request) (m m' : Memory),
    s.pending = .memWrite inst addr value be :: rest → s.instances[inst]? = some m → m.wf → step s = .next t →
    t.instances[inst]? = some m' →
    ∀ a : Nat, ¬(addr ≤ (a : Int) ∧ (a : Int) < addr + 4 ∧ be.getLsbD (a % 4) = true) → m'.byteAt a = m.byteAt a

/-- R45: the source's four flags, most significant byte first: their value as a mask, the lane each enables, the bits of
a lane, and so the bits of a slot that a write with these flags takes from the value: flag 1 bits 31-24, flag 2 bits
23-16, flag 3 bits 15-8, flag 4 bits 7-0. -/
def Obligations.MaskFlagsAreMostSignificantFirst : Prop :=
  ∀ f1 f2 f3 f4 : Bool,
    (byteEnableOfFlags f1 f2 f3 f4).toNat = 8 * f1.toNat + 4 * f2.toNat + 2 * f3.toNat + f4.toNat ∧
    (∀ i : Nat, laneEnabled (byteEnableOfFlags f1 f2 f3 f4) i
      = if i = 3 then f1 else if i = 2 then f2 else if i = 1 then f3 else if i = 0 then f4 else false) ∧
    (∀ (w : Word) (i : Nat), i < 4 → (laneOf w i).toNat = w.toNat / 2 ^ (8 * i) % 256) ∧
    ∀ (m : Memory) (k : Nat) (value : Int), m.wf → k < m.slotCount →
      ∃ m', m.write (4 * k) value (byteEnableOfFlags f1 f2 f3 f4) = .ok m' ∧
        ∀ j < 32, (m'.slot k).getLsbD j
          = if (if 24 ≤ j then f1 else if 16 ≤ j then f2 else if 8 ≤ j then f3 else f4) = true
            then (trunc 32 value).getLsbD j else (m.slot k).getLsbD j

/-- R48: an all-false mask is a strict no-op where the address checks pass, and only there. -/
def Obligations.AllFalseMaskWritesNothing : Prop :=
  ∀ (s : State) (inst : Nat) (addr value : Int) (rest : List Request) (m : Memory),
    s.pending = .memWrite inst addr value 0#4 :: rest → s.instances[inst]? = some m →
    (addr % 4 = 0 → 0 ≤ addr → addr < 4 * (m.slotCount : Int) → StepAnswers s rest .done) ∧
    (addr % 4 ≠ 0 → StepAnswers s rest (.error (.unaligned addr))) ∧
    (addr % 4 = 0 → (addr < 0 ∨ 4 * (m.slotCount : Int) ≤ addr) → StepAnswers s rest (.error (.outOfBounds addr)))

/-- R58: a read that follows a whole-word write of the same slot answers the written value modulo 2^32, and a read
of another slot answers what it would have answered before the write. -/
def Obligations.ReadAfterWriteAnswersTheLastWrite : Prop :=
  ∀ (s : State) (inst k j : Nat) (value : Int) (rest : List Request) (m : Memory),
    s.pending = .memWrite inst (4 * k) value 0b1111#4 :: .memRead inst (4 * j) :: rest →
    s.instances[inst]? = some m → m.wf → k < m.slotCount → j < m.slotCount →
    ∃ t : State, Host.Core.run Sys2Proof.core 2 s = .next t ∧
      t.response = some (.rdata (if j = k then trunc 32 value else m.slot j))

/-- R57: repeating a masked write leaves the same memory as doing it once. -/
def Obligations.RepeatingAWriteIsTheSameAsDoingItOnce : Prop :=
  ∀ (m m' : Memory) (addr value : Int) (be : ByteEnable), m.wf → m.write addr value be = .ok m' →
    m'.write addr value be = .ok m'

/-- R55, R331: `reset()` never fails, sets every slot of its instance to 0 (initial words are not restored), keeps its
slot count, and touches no other instance. -/
def Obligations.ResetZeroesEverySlotOfItsInstance : Prop :=
  ∀ (s : State) (inst : Nat) (rest : List Request) (m : Memory),
    s.pending = .memReset inst :: rest → s.instances[inst]? = some m →
    ∃ t m', step s = .next t ∧ t.pending = rest ∧ t.response = some .done ∧ t.instances[inst]? = some m' ∧
      m'.slotCount = m.slotCount ∧ (∀ k, m'.slot k = 0#32) ∧ ∀ j, j ≠ inst → t.instances[j]? = s.instances[j]?

/-- R51, R52, R53: `new` with a capacity that is not negative makes an instance of `ceil(capacity/4)` slots that hold
the initial words and then zeros; with more words than slots it raises `OutOfBounds` and makes none. A negative capacity
is refused. (That an instance's number is its place in the list is the model's choice, log 5; that the machine goes on
after a refused call, log 8.) -/
def Obligations.NewLoadsTheInitialWordsOrMakesNoInstance : Prop :=
  ∀ (s : State) (byteCapacity : Int) (ws : List Int) (rest : List Request),
    s.pending = .memNew byteCapacity ws :: rest →
    (byteCapacity < 0 → StepAnswers s rest (.rejected (.negativeCapacity byteCapacity))) ∧
    (0 ≤ byteCapacity →
      ∃ n : Nat, byteCapacity ≤ 4 * (n : Int) ∧ 4 * (n : Int) < byteCapacity + 4 ∧
        (n < ws.length → StepAnswers s rest (.error (.tooManyWords ws.length n))) ∧
        (ws.length ≤ n → ∃ m,
          step s = .next { instances := s.instances ++ [m], pending := rest,
                           response := some (.created s.instances.length) } ∧
          m.slotCount = n ∧ m.wf ∧ ∀ k, m.slot k = (ws.map (trunc 32)).getD k 0#32))

/-- R54, R306: creation from a string: a token that is no decimal integer raises `MalformedInput`, whatever the count of
tokens (that of several such tokens the error carries the leftmost is the model's choice, log 28); with integers only, it is `new` of those integers. (Which tokens are decimal integers:
DecimalIntegersAreSignedDigitStrings; which pieces of the string are tokens: TokensAreSeparatedByWhiteSpaceAndCommas. That
the error carries no source line is the model's choice, log 20; that a negative capacity is refused before the string is
read, log 21; that the machine goes on after a refused call, log 8.) -/
def Obligations.NewFromStringParsesBeforeItCounts : Prop :=
  ∀ (s : State) (byteCapacity : Int) (text : Text) (rest : List Request),
    s.pending = .memNewFromString byteCapacity text :: rest →
    (byteCapacity < 0 → StepAnswers s rest (.rejected (.negativeCapacity byteCapacity))) ∧
    (0 ≤ byteCapacity → ∀ before tok after, splitSpaces text = before ++ tok :: after →
      (∀ t ∈ before, (decimalInteger t).isSome = true) → decimalInteger tok = none →
      StepAnswers s rest (.error (.malformedInput none tok))) ∧
    (0 ≤ byteCapacity → ∀ vs : List Int, (splitSpaces text).map decimalInteger = vs.map some →
      step s = step { s with pending := .memNew byteCapacity vs :: rest })

/-- R54: the decimal integers of an initialization string are exactly the optionally signed strings of one or more
digits, with the value they write. -/
def Obligations.DecimalIntegersAreSignedDigitStrings : Prop :=
  ∀ (t : Text) (v : Int),
    decimalInteger t = some v ↔ SignedForm (fun body n => Digits 10 body ∧ n = valueOf 10 body) t v

/-- R46: the caller's recipes, little-endian by D22: which bytes each store changes, and to what; all others stay. A
word address outside the slots and a misaligned word store raise what the one `write` raises. A halfword at an odd
address is refused and changes nothing (that the machine then goes on is the model's reading, log 8; that the recipes
are operations of the machine, log 26). -/
def Obligations.SubWordStoresWriteTheirBytesLittleEndian : Prop :=
  ∀ (s : State) (inst : Nat) (a x : Int) (rest : List Request) (m : Memory),
    s.instances[inst]? = some m → m.wf →
    (s.pending = .storeByte inst a x :: rest →
      ((a < 0 ∨ 4 * (m.slotCount : Int) ≤ a) → StepAnswers s rest (.error (.outOfBounds (a - a % 4)))) ∧
      (0 ≤ a → a < 4 * (m.slotCount : Int) → ∃ m',
        step s = .next { s with instances := s.instances.set inst m', pending := rest, response := some .done } ∧
        m'.slotCount = m.slotCount ∧ ∀ b : Nat, m'.byteAt b = if (b : Int) = a then trunc 8 x else m.byteAt b)) ∧
    (s.pending = .storeHalf inst a x :: rest →
      (a % 2 ≠ 0 → StepAnswers s rest (.rejected (.oddHalfword a))) ∧
      (a % 2 = 0 → (a < 0 ∨ 4 * (m.slotCount : Int) ≤ a) → StepAnswers s rest (.error (.outOfBounds (a - a % 4)))) ∧
      (a % 2 = 0 → 0 ≤ a → a < 4 * (m.slotCount : Int) → ∃ m',
        step s = .next { s with instances := s.instances.set inst m', pending := rest, response := some .done } ∧
        m'.slotCount = m.slotCount ∧
        ∀ b : Nat, m'.byteAt b
          = if (b : Int) = a then trunc 8 x else if (b : Int) = a + 1 then trunc 8 (x / 2 ^ 8) else m.byteAt b)) ∧
    (s.pending = .storeWord inst a x :: rest →
      (a % 4 ≠ 0 → StepAnswers s rest (.error (.unaligned a))) ∧
      (a % 4 = 0 → (a < 0 ∨ 4 * (m.slotCount : Int) ≤ a) → StepAnswers s rest (.error (.outOfBounds a))) ∧
      (a % 4 = 0 → 0 ≤ a → a < 4 * (m.slotCount : Int) → ∃ m',
        step s = .next { s with instances := s.instances.set inst m', pending := rest, response := some .done } ∧
        m'.slotCount = m.slotCount ∧
        ∀ b : Nat, m'.byteAt b
          = if a ≤ (b : Int) ∧ (b : Int) < a + 4 then trunc 8 (x / 2 ^ (8 * (b % 4))) else m.byteAt b))

/-! ### The whole machine -/

/-- The invariant: every memory instance keeps its canonical form (each listed byte lies in a slot, once, and is not
0), whatever the step does. -/
def Obligations.StepKeepsEveryInstanceCanonical : Prop :=
  ∀ s t : State, s.Inv → step s = .next t → t.Inv

/-- R330, R332: right after power-on no instance exists, so every instance is in canonical form. (That nothing is
pending and nothing answered is the model's choice, logs 1 and 2.) -/
def Obligations.ResetStateIsCanonicalAndHasNoInstance : Prop :=
  State.reset.Inv ∧ State.reset.instances = [] ∧ State.reset.pending = [] ∧ State.reset.response = none

/-- R20, R27: no operation changes an instance's slot count, and no instance goes away. -/
def Obligations.SlotCountsNeverChange : Prop :=
  ∀ (s t : State) (k : Nat) (m : Memory), step s = .next t → s.instances[k]? = some m →
    ∃ m', t.instances[k]? = some m' ∧ m'.slotCount = m.slotCount

/-- R20: two instances share no state: a step leaves every instance that its operation does not name exactly as it
was, for every operation there is. -/
def Obligations.AnOperationTouchesOnlyTheInstanceItNames : Prop :=
  ∀ (s t : State) (r : Request) (rest : List Request) (k : Nat), s.pending = r :: rest → step s = .next t →
    k < s.instances.length → r.target ≠ some k → t.instances[k]? = s.instances[k]?

/-- R305: a failed operation changes no state: whatever operation answers an error, or is refused, every instance is
as before and none was made. -/
def Obligations.FailedOperationsChangeNoState : Prop :=
  ∀ (s t : State) (r : Request) (rest : List Request), s.pending = r :: rest → step s = .next t →
    ((∃ e, t.response = some (.error e)) ∨ ∃ j, t.response = some (.rejected j)) → t.instances = s.instances

/-- R300, R301: which operation raises which kind of error: the decoder, the packers and `reset` none. (What the three
store recipes raise is what their one `write` raises, R41, R42 and R46; that they are operations of the machine is the
model's choice, log 26.) -/
def Obligations.EachOperationRaisesOnlyItsErrorKinds : Prop :=
  ∀ (s t : State) (r : Request) (rest : List Request) (e : CoreError), s.pending = r :: rest → step s = .next t →
    t.response = some (.error e) →
    match r with
    | .encode _ _ => errorKind e = .unknownInstruction
    | .select _ => errorKind e = .unknownInstruction
    | .registerIndexOf _ => errorKind e = .invalidRegister
    | .assemble _ => errorKind e ∈ [.unknownInstruction, .invalidRegister, .undefinedLabel, .malformedInput]
    | .memNew _ _ => errorKind e = .outOfBounds
    | .memNewFromString _ _ => errorKind e ∈ [.outOfBounds, .malformedInput]
    | .memRead _ _ => errorKind e ∈ [.unaligned, .outOfBounds]
    | .memWrite _ _ _ _ => errorKind e ∈ [.unaligned, .outOfBounds]
    | .storeByte _ _ _ => errorKind e = .outOfBounds
    | .storeHalf _ _ _ => errorKind e = .outOfBounds
    | .storeWord _ _ _ => errorKind e ∈ [.unaligned, .outOfBounds]
    | _ => False

/-! ### The assembler -/

/-- R102: a name is a register exactly if it is the ABI name of an index or `x` and decimal digits of value 0 to 31;
any other name raises `InvalidRegister`. -/
def Obligations.RegisterNamesAreTheAbiNamesAndXForms : Prop :=
  ∀ (line : Option Nat) (name : Text),
    (∀ n : Nat, registerIndexOf machineConfig line name = .ok n ↔
      (isaAbiNames[n]? = some name ∨
        ∃ ds : Text, name = 'x' :: ds ∧ ds ≠ [] ∧ (∀ c ∈ ds, '0' ≤ c ∧ c ≤ '9') ∧ decimalValue ds = n ∧ n ≤ 31)) ∧
    ((∀ n, registerIndexOf machineConfig line name ≠ .ok n) →
      registerIndexOf machineConfig line name = .error (.invalidRegister line name))

/-- R173: the integer literals are exactly the texts of the grammar, with the value they write: an optional sign, then
decimal digits, or a prefix of either case and digits of its base; so an underscore, a suffix or a prefix without digits
makes a token no literal. In particular each number written in each base is the literal of that number. -/
def Obligations.LiteralsOfEveryBaseReadBack : Prop :=
  (∀ (t : Text) (v : Int), literal t = some v ↔ SignedForm UnsignedForm t v) ∧
  ∀ n : Nat,
    literal (Nat.toDigits 10 n) = some (n : Int) ∧ literal ('+' :: Nat.toDigits 10 n) = some (n : Int) ∧
    literal ('-' :: Nat.toDigits 10 n) = some (-(n : Int)) ∧
    literal ('0' :: 'x' :: Nat.toDigits 16 n) = some (n : Int) ∧
    literal ('-' :: '0' :: 'X' :: Nat.toDigits 16 n) = some (-(n : Int)) ∧
    literal ('0' :: 'o' :: Nat.toDigits 8 n) = some (n : Int) ∧
    literal ('0' :: 'b' :: Nat.toDigits 2 n) = some (n : Int)

/-- R172: an immediate token that is a literal is its value, whatever labels there are; else a label is its distance
from the pc; else `UndefinedLabel`. -/
def Obligations.ImmediatesAreLiteralsThenRelativeLabels : Prop :=
  ∀ (line pc : Nat) (labels : Labels) (tok : Text),
    (∀ v, literal tok = some v → resolveImm line pc labels tok = .ok v) ∧
    (literal tok = none → ∀ a, labelOffset labels tok = some a →
      resolveImm line pc labels tok = .ok ((a : Int) - (pc : Int))) ∧
    (literal tok = none → labelOffset labels tok = none →
      resolveImm line pc labels tok = .error (.undefinedLabel (some line) tok))

/-- R174: a token that ends with `)` and has text before its first `(` is that text's immediate and the register between
that `(` and the final `)`; every other token raises `MalformedInput`. (That a bad offset is reported before a bad
register is the model's reading of left to right, log 12.) -/
def Obligations.MemoryOperandsAreOffsetAndRegister : Prop :=
  ∀ (line pc : Nat) (labels : Labels),
    (∀ off reg : Text, off ≠ [] → '(' ∉ off →
      (∀ v n, resolveImm line pc labels off = .ok v → registerIndexOf machineConfig (some line) reg = .ok n →
        memoryOperand machineConfig line pc labels (off ++ '(' :: (reg ++ [')'])) = .ok (v, n)) ∧
      (∀ e, resolveImm line pc labels off = .error e →
        memoryOperand machineConfig line pc labels (off ++ '(' :: (reg ++ [')'])) = .error e) ∧
      (∀ v e, resolveImm line pc labels off = .ok v → registerIndexOf machineConfig (some line) reg = .error e →
        memoryOperand machineConfig line pc labels (off ++ '(' :: (reg ++ [')'])) = .error e)) ∧
    (∀ tok : Text, (∀ off reg : Text, off ≠ [] → '(' ∉ off → tok ≠ off ++ '(' :: (reg ++ [')'])) →
      memoryOperand machineConfig line pc labels tok = .error (.malformedInput (some line) tok))

/-- R161, R162, R163: the lines of a source are its pieces between line feeds; a comment and white space at the ends
play no part; an empty line is blank; a name without white space and its `:` is a label, alone or before the text of an
instruction; every other line is an instruction without a label, as where the text before the first `:` is empty or
holds white space, `,`, `(` or `)`. -/
def Obligations.LinesAreBlankLabelledOrInstructions : Prop :=
  (∀ a b : Text, '\n' ∉ a → splitLines a = [a] ∧ splitLines (a ++ '\n' :: b) = a :: splitLines b) ∧
  (∀ a b : Text, classify (a ++ '#' :: b) = classify a) ∧
  (∀ (c : Char) (a : Text), isSpace c = true → classify (c :: a) = classify a ∧ classify (a ++ [c]) = classify a) ∧
  classify [] = .blank ∧
  (∀ name : Text, LabelName name → classify (name ++ [':']) = .labelOnly name) ∧
  (∀ name gap text : Text, LabelName name → (∀ c ∈ gap, isSpace c = true) → Trimmed text → '#' ∉ text →
    classify (name ++ ':' :: (gap ++ text)) = .labelled name text) ∧
  (∀ text : Text, Trimmed text → '#' ∉ text →
    (∀ name rest, text = name ++ ':' :: rest → ':' ∉ name → name = [] ∨ ∃ c ∈ name, OutOfName c) →
    classify text = .plain text)

/-- R161, R168, R54: white space and, in an instruction, commas separate tokens, and nothing else does; a token is left
as it is, but for the mnemonic, whose case does not matter. (Which characters outside ASCII are white space is open, log
9; that only A to Z are lowercased, log 13.) -/
def Obligations.TokensAreSeparatedByWhiteSpaceAndCommas : Prop :=
  (∀ c ∈ [' ', '\t', '\n', '\r'], isSpace c = true) ∧ (∀ c : Char, '!' ≤ c → c ≤ '~' → isSpace c = false) ∧
  splitSpaces [] = [] ∧ tokensOf [] = [] ∧
  (∀ (a b : Text) (c : Char), isSpace c = true → splitSpaces (a ++ c :: b) = splitSpaces a ++ splitSpaces b) ∧
  (∀ (a b : Text) (c : Char), isSpace c = true ∨ c = ',' → tokensOf (a ++ c :: b) = tokensOf a ++ tokensOf b) ∧
  (∀ t : Text, t ≠ [] → (∀ c ∈ t, isSpace c = false) → splitSpaces t = [t]) ∧
  (∀ t : Text, t ≠ [] → (∀ c ∈ t, isSpace c = false ∧ c ≠ ',') → tokensOf t = [t]) ∧
  ("ABCDEFGHIJKLMNOPQRSTUVWXYZ".toList.map lowerAscii = "abcdefghijklmnopqrstuvwxyz".toList) ∧
  (∀ c : Char, ¬('A' ≤ c ∧ c ≤ 'Z') → lowerAscii c = c) ∧
  (∀ (line pc : Nat) (labels : Labels) (text text' first first' : Text) (operands : List Text) (w : Word),
    tokensOf text = first :: operands → tokensOf text' = first' :: operands →
    first.map lowerAscii = first'.map lowerAscii →
    encodeLine machineConfig line pc labels text = .ok w → encodeLine machineConfig line pc labels text' = .ok w)

/-- R164, R166: the last line that defines a name fixes it, at four times the number of instruction-bearing lines
before that line; a label-only line has no width. So every label is a multiple of 4. -/
def Obligations.ALabelNamesTheOffsetOfTheNextInstruction : Prop :=
  ∀ (before after : List LineClass) (line : LineClass) (name : Text), line.label = some name →
    (∀ l ∈ after, l.label ≠ some name) →
    labelOffset (pass1 machineConfig 0 [] (before ++ line :: after)) name
      = some (4 * (instructionLines 1 before).length)

/-- R160, R163, R164, R167: a successful `assemble` gives one word for each instruction-bearing line, in source
order; the word of the line with `n` of them before it is that line encoded at pc `4n`. -/
def Obligations.AssembleGivesOneWordPerInstructionLine : Prop :=
  ∀ (source : Text) (ws : List Word), assemble machineConfig source = .ok ws →
    ws.length = (instructionLines 1 (linesOf source)).length ∧
    ∀ n number text, (instructionLines 1 (linesOf source))[n]? = some (number, text) →
      ∃ w, ws[n]? = some w ∧
        encodeLine machineConfig number (4 * n) (pass1 machineConfig 0 [] (linesOf source)) text = .ok w

/-- R302, R306: a failing `assemble` reports the first failing line in source order, every line before it encoding,
and gives no words. -/
def Obligations.AssembleReportsTheFirstFailingLine : Prop :=
  ∀ (source : Text) (e : CoreError), assemble machineConfig source = .error e →
    ∃ n number text, (instructionLines 1 (linesOf source))[n]? = some (number, text) ∧
      encodeLine machineConfig number (4 * n) (pass1 machineConfig 0 [] (linesOf source)) text = .error e ∧
      ∀ n' number' text', n' < n → (instructionLines 1 (linesOf source))[n']? = some (number', text') →
        ∃ w, encodeLine machineConfig number' (4 * n') (pass1 machineConfig 0 [] (linesOf source)) text' = .ok w

/-- R169, R175, R306: within a line the mnemonic is looked up first, then the operands are counted; both before any
operand is read. -/
def Obligations.MnemonicThenOperandCountAreCheckedFirst : Prop :=
  ∀ (line pc : Nat) (labels : Labels) (text first : Text) (operands : List Text), tokensOf text = first :: operands →
    ((∀ row ∈ isaTable, row.mnemonic.name ≠ first.map lowerAscii) →
      encodeLine machineConfig line pc labels text = .error (.unknownInstruction (some line) (first.map lowerAscii))) ∧
    (∀ row ∈ isaTable, row.mnemonic.name = first.map lowerAscii → operands.length ≠ arity row.mnemonic →
      encodeLine machineConfig line pc labels text = .error (.malformedInput (some line) text))

/-- R179: a line encodes the same wherever it stands and wherever its labels stand, as long as every label is as far
from the line; so forward and backward references of equal distance agree. -/
def Obligations.EqualDistancesEncodeAlike : Prop :=
  ∀ (line pc pc' : Nat) (labels labels' : Labels) (text : Text),
    (∀ name, (labelOffset labels name).map (fun a => (a : Int) - (pc : Int))
      = (labelOffset labels' name).map (fun a => (a : Int) - (pc' : Int))) →
    encodeLine machineConfig line pc labels text = encodeLine machineConfig line pc' labels' text

/-- R151, R170, R178: the assembly text of every well-formed instruction, its registers written `x<N>` and its
immediate in decimal, assembles to the one word of the instruction. -/
def Obligations.TextOfEveryInstructionAssemblesToItsWord : Prop :=
  ∀ i : Instr, i.wellFormed = true →
    assemble machineConfig (assemblyText (operandsOf i).1 (operandsOf i).2) = .ok [encode i]
end

