-- ==== Sys2Proof/Laws/Assembler.lean ====
section
/-! SUPPORT. What each operation of the assembler can do: the lookups, the operands, the lines and the two passes
(44_assembler.md). -/

namespace Sys2Proof.Machine

/-! ### Lookups -/

/-- Everything `select` can do (R106). -/
theorem selectRow_cases (cfg : Config) (line : Option Nat) (name : Text) :
    (∃ row ∈ cfg.mnemonicTable, row.mnemonic.name = name ∧ selectRow cfg line name = .ok row) ∨
    ((∀ row ∈ cfg.mnemonicTable, row.mnemonic.name ≠ name) ∧
      selectRow cfg line name = .error (.unknownInstruction line name)) := by
  unfold selectRow
  cases h : cfg.mnemonicTable.find? (fun row => row.mnemonic.name == name) with
  | none => exact .inr ⟨by simpa using h, rfl⟩
  | some row => exact .inl ⟨row, List.mem_of_find?_eq_some h, by simpa using List.find?_some h, rfl⟩

/-- Everything `register_index_of` can do (R102). -/
theorem registerIndexOf_cases (cfg : Config) (line : Option Nat) (name : Text) :
    (∃ n, abiIndex cfg.abiNames 0 name = some n ∧ registerIndexOf cfg line name = .ok n) ∨
    (∃ n, abiIndex cfg.abiNames 0 name = none ∧ literalIndex name = some n ∧ registerIndexOf cfg line name = .ok n) ∨
    (abiIndex cfg.abiNames 0 name = none ∧ literalIndex name = none ∧
      registerIndexOf cfg line name = .error (.invalidRegister line name)) := by
  unfold registerIndexOf
  cases abiIndex cfg.abiNames 0 name with
  | some n => exact .inl ⟨n, rfl, rfl⟩
  | none =>
    cases literalIndex name with
    | some n => exact .inr (.inl ⟨n, rfl, rfl, rfl⟩)
    | none => exact .inr (.inr ⟨rfl, rfl, rfl⟩)

/-- An index found in a list of names that is numbered from `i` on is the place of the name. -/
theorem abiIndex_sound {names : List Text} {i n : Nat} {name : Text} (h : abiIndex names i name = some n) :
    i ≤ n ∧ names[n - i]? = some name := by
  induction names generalizing i with
  | nil => cases h
  | cons first rest ih =>
    rw [abiIndex] at h
    split at h
    · cases h; rename_i hf; exact ⟨le_refl _, by simp [hf]⟩
    · obtain ⟨hle, hget⟩ := ih h
      exact ⟨by omega, by rw [show n - i = (n - (i + 1)) + 1 from by omega]; simpa using hget⟩

/-- Everything an immediate operand can resolve to (R172). -/
theorem resolveImm_cases (line pc : Nat) (labels : Labels) (tok : Text) :
    (∃ v, literal tok = some v ∧ resolveImm line pc labels tok = .ok v) ∨
    (∃ a : Nat, literal tok = none ∧ labelOffset labels tok = some a ∧
      resolveImm line pc labels tok = .ok ((a : Int) - (pc : Int))) ∨
    (literal tok = none ∧ labelOffset labels tok = none ∧
      resolveImm line pc labels tok = .error (.undefinedLabel (some line) tok)) := by
  unfold resolveImm
  cases literal tok with
  | some v => exact .inl ⟨v, rfl, rfl⟩
  | none =>
    cases labelOffset labels tok with
    | some a => exact .inr (.inl ⟨a, rfl, rfl, rfl⟩)
    | none => exact .inr (.inr ⟨rfl, rfl, rfl⟩)

/-! ### Digits -/

/-- Reading digits continues from the number that the digits before them wrote. -/
theorem digitsFrom_append (base : Nat) (digit : Char → Option Nat) (read : Nat) (xs ys : Text) :
    digitsFrom base digit read (xs ++ ys)
      = (digitsFrom base digit read xs).bind (fun n => digitsFrom base digit n ys) := by
  induction xs generalizing read with
  | nil => rfl
  | cons c rest ih =>
    simp only [List.cons_append, digitsFrom]
    cases digit c with
    | none => rfl
    | some d => exact ih _

/-- Everything reading digits can answer: a number, if each character is a digit, and the number they write. -/
theorem digitsFrom_eq_some_iff {base : Nat} {digit : Char → Option Nat} {IsDigit : Char → Prop} {value : Char → Nat}
    (hv : ∀ c, IsDigit c → digit c = some (value c)) (hd : ∀ c d, digit c = some d → IsDigit c)
    (read : Nat) (t : Text) (n : Nat) :
    digitsFrom base digit read t = some n ↔
      (∀ c ∈ t, IsDigit c) ∧ n = t.foldl (fun n c => base * n + value c) read := by
  induction t generalizing read with
  | nil => simpa [digitsFrom] using eq_comm
  | cons c rest ih =>
    simp only [digitsFrom]
    cases hc : digit c with
    | none =>
      simp only [reduceCtorEq, List.mem_cons, forall_eq_or_imp, false_iff, not_and]
      rintro ⟨h, -⟩
      rw [hv c h] at hc
      cases hc
    | some d =>
      have h := hd c d hc
      rw [hv c h] at hc
      cases hc
      simp [ih, h, Nat.mul_comm base]

/-! ### Pieces and white space -/

theorem splitAt_ne_nil (sep : Char → Bool) (t : Text) : splitAt sep t ≠ [] := by
  cases t with
  | nil => simp [splitAt]
  | cons c rest =>
    simp only [splitAt]
    split
    · simp
    · split <;> simp

/-- A separator splits the text into the pieces before it and the pieces after it. -/
theorem splitAt_append (sep : Char → Bool) (a b : Text) {c : Char} (h : sep c = true) :
    splitAt sep (a ++ c :: b) = splitAt sep a ++ splitAt sep b := by
  induction a with
  | nil => simp [splitAt, h]
  | cons d rest ih =>
    simp only [List.cons_append, splitAt, ih]
    split
    · rfl
    · cases hs : splitAt sep rest with
      | nil => exact absurd hs (splitAt_ne_nil sep rest)
      | cons piece pieces => rfl

/-- A text without a separator is its one piece. -/
theorem splitAt_none (sep : Char → Bool) (a : Text) (h : ∀ c ∈ a, sep c = false) : splitAt sep a = [a] := by
  induction a with
  | nil => rfl
  | cons d rest ih => simp [splitAt, h d (by simp), ih (fun c hc => h c (by simp [hc]))]

/-- White space before a text is trimmed. -/
theorem trim_cons {c : Char} (h : isSpace c = true) (a : Text) : trim (c :: a) = trim a := by simp [trim, h]

/-- White space after a text is trimmed. -/
theorem trim_snoc {c : Char} (h : isSpace c = true) (a : Text) : trim (a ++ [c]) = trim a := by
  unfold trim
  by_cases ha : ∀ x ∈ a, isSpace x = true
  · have hn : a.dropWhile isSpace = [] := by simpa using ha
    rw [List.dropWhile_append_of_pos ha]
    simp [h, hn]
  · have hn : (a ++ [c]).dropWhile isSpace = a.dropWhile isSpace ++ [c] := by
      rw [List.dropWhile_append]
      simp only [List.isEmpty_iff, ite_eq_right_iff]
      intro hh
      exact absurd hh (by simpa using ha)
    rw [hn]
    simp [h]

/-! ### Lines and passes -/

@[simp] theorem pass1_nil (cfg : Config) (pc : Nat) (labels : Labels) : pass1 cfg pc labels [] = labels := rfl

@[simp] theorem pass1_cons (cfg : Config) (pc : Nat) (labels : Labels) (line : LineClass) (rest : List LineClass) :
    pass1 cfg pc labels (line :: rest) = pass1 cfg (pcAfter cfg pc line) (defineLabel pc labels line) rest := rfl

/-- Pass 1 of two parts of a source, one after the other (R166). -/
theorem pass1_append (cfg : Config) (pc : Nat) (labels : Labels) (xs ys : List LineClass) :
    pass1 cfg pc labels (xs ++ ys) = pass1 cfg (xs.foldl (pcAfter cfg) pc) (pass1 cfg pc labels xs) ys := by
  induction xs generalizing pc labels with
  | nil => rfl
  | cons line rest ih => simpa using ih _ _

/-- The pc after a line, as this machine's parameter has it: 4 on for an instruction-bearing line (R164, R165). -/
theorem pcAfter_machineConfig (pc : Nat) (line : LineClass) :
    pcAfter machineConfig pc line = pc + 4 * (if line.instruction.isSome then 1 else 0) := by
  cases line <;> rfl

/-- A definition is found first, and hides an earlier one of its name (R166, D15). -/
@[simp] theorem labelOffset_cons (name other : Text) (pc : Nat) (labels : Labels) :
    labelOffset ((name, pc) :: labels) other = if name = other then some pc else labelOffset labels other := rfl

/-- A line without an instruction encodes to nothing in pass 2 (R167). -/
theorem pass2_skip {line : LineClass} (h : line.instruction = none) (cfg : Config) (labels : Labels)
    (number pc : Nat) (rest : List LineClass) :
    pass2 cfg labels number pc (line :: rest) = pass2 cfg labels (number + 1) (pcAfter cfg pc line) rest := by
  simp only [pass2, h]

/-- Everything pass 2 can do at an instruction-bearing line (R167, R302). -/
theorem pass2_cases {line : LineClass} {text : Text} (h : line.instruction = some text) (cfg : Config)
    (labels : Labels) (number pc : Nat) (rest : List LineClass) :
    (∃ e, encodeLine cfg number pc labels text = .error e ∧
      pass2 cfg labels number pc (line :: rest) = .error e) ∨
    (∃ w e, encodeLine cfg number pc labels text = .ok w ∧
      pass2 cfg labels (number + 1) (pcAfter cfg pc line) rest = .error e ∧
      pass2 cfg labels number pc (line :: rest) = .error e) ∨
    ∃ w ws, encodeLine cfg number pc labels text = .ok w ∧
      pass2 cfg labels (number + 1) (pcAfter cfg pc line) rest = .ok ws ∧
      pass2 cfg labels number pc (line :: rest) = .ok (w :: ws) := by
  simp only [pass2, h]
  cases encodeLine cfg number pc labels text with
  | error e => exact .inl ⟨e, rfl, rfl⟩
  | ok w =>
    cases pass2 cfg labels (number + 1) (pcAfter cfg pc line) rest with
    | error e => exact .inr (.inl ⟨w, e, rfl, rfl, rfl⟩)
    | ok ws => exact .inr (.inr ⟨w, ws, rfl, rfl, rfl⟩)

/-- Everything reading an initialization string can do at its first token (R54; that the leftmost bad token is the one
carried, log 28). -/
theorem parseInitialWords_cases (tok : Text) (rest : List Text) :
    (decimalInteger tok = none ∧ parseInitialWords (tok :: rest) = .error (.malformedInput none tok)) ∨
    (∃ v e, decimalInteger tok = some v ∧ parseInitialWords rest = .error e ∧
      parseInitialWords (tok :: rest) = .error e) ∨
    ∃ v vs, decimalInteger tok = some v ∧ parseInitialWords rest = .ok vs ∧
      parseInitialWords (tok :: rest) = .ok (v :: vs) := by
  simp only [parseInitialWords]
  cases decimalInteger tok with
  | none => exact .inl ⟨rfl, rfl⟩
  | some v =>
    cases parseInitialWords rest with
    | error e => exact .inr (.inl ⟨v, e, rfl, rfl, rfl⟩)
    | ok vs => exact .inr (.inr ⟨v, vs, rfl, rfl, rfl⟩)

end Sys2Proof.Machine
end

