-- ==== Sys2Proof/Laws/Decode.lean ====
section
/-! SUPPORT. The fields of a packed word, the immediates of a packed word, and the table's answers: what the proofs
about decoding and encoding cite instead of unfolding the packers and the tables. -/

namespace Sys2Proof

/-! ### Concatenation in numbers -/

theorem toNat_concat {m n : Nat} (x : BitVec m) (y : BitVec n) : (x ++ y).toNat = x.toNat * 2 ^ n + y.toNat := by
  rw [BitVec.toNat_append, ← Nat.shiftLeft_add_eq_or_of_lt y.isLt, Nat.shiftLeft_eq]

theorem packR_toNat (op : Opcode) (rd : Reg) (f3 : Funct3) (rs1 rs2 : Reg) (f7 : Funct7) :
    (packR op rd f3 rs1 rs2 f7).toNat
      = f7.toNat * 2 ^ 25 + rs2.toNat * 2 ^ 20 + rs1.toNat * 2 ^ 15 + f3.toNat * 2 ^ 12 + rd.toNat * 2 ^ 7 + op.toNat := by
  simp only [packR, toNat_concat]; omega

theorem packI_eq_packR (op : Opcode) (rd : Reg) (f3 : Funct3) (rs1 : Reg) (imm : BitVec 12) :
    packI op rd f3 rs1 imm = packR op rd f3 rs1 (imm.extractLsb' 0 5) (imm.extractLsb' 5 7) := by
  apply BitVec.eq_of_toNat_eq
  rw [packR_toNat]
  simp only [packI, toNat_concat, BitVec.extractLsb'_toNat, Nat.shiftRight_eq_div_pow]
  omega

theorem packS_eq_packR (op : Opcode) (f3 : Funct3) (rs1 rs2 : Reg) (imm : BitVec 12) :
    packS op f3 rs1 rs2 imm = packR op (imm.extractLsb' 0 5) f3 rs1 rs2 (imm.extractLsb' 5 7) := rfl

theorem packB_eq_packR (op : Opcode) (f3 : Funct3) (rs1 rs2 : Reg) (imm : BitVec 13) :
    packB op f3 rs1 rs2 imm
      = packR op (imm.extractLsb' 1 4 ++ imm.extractLsb' 11 1) f3 rs1 rs2
          (imm.extractLsb' 12 1 ++ imm.extractLsb' 5 6) := by
  apply BitVec.eq_of_toNat_eq
  rw [packR_toNat]
  simp only [packB, toNat_concat]
  omega

/-! ### The fields of an R word -/

section
variable (op : Opcode) (rd : Reg) (f3 : Funct3) (rs1 rs2 : Reg) (f7 : Funct7)

@[simp] theorem packR_opcode : (packR op rd f3 rs1 rs2 f7).extractLsb' 0 7 = op := by
  apply BitVec.eq_of_toNat_eq
  rw [BitVec.extractLsb'_toNat, packR_toNat, Nat.shiftRight_eq_div_pow]; omega

@[simp] theorem packR_rd : (packR op rd f3 rs1 rs2 f7).extractLsb' 7 5 = rd := by
  apply BitVec.eq_of_toNat_eq
  rw [BitVec.extractLsb'_toNat, packR_toNat, Nat.shiftRight_eq_div_pow]; omega

@[simp] theorem packR_funct3 : (packR op rd f3 rs1 rs2 f7).extractLsb' 12 3 = f3 := by
  apply BitVec.eq_of_toNat_eq
  rw [BitVec.extractLsb'_toNat, packR_toNat, Nat.shiftRight_eq_div_pow]; omega

@[simp] theorem packR_rs1 : (packR op rd f3 rs1 rs2 f7).extractLsb' 15 5 = rs1 := by
  apply BitVec.eq_of_toNat_eq
  rw [BitVec.extractLsb'_toNat, packR_toNat, Nat.shiftRight_eq_div_pow]; omega

@[simp] theorem packR_rs2 : (packR op rd f3 rs1 rs2 f7).extractLsb' 20 5 = rs2 := by
  apply BitVec.eq_of_toNat_eq
  rw [BitVec.extractLsb'_toNat, packR_toNat, Nat.shiftRight_eq_div_pow]; omega

@[simp] theorem packR_funct7 : (packR op rd f3 rs1 rs2 f7).extractLsb' 25 7 = f7 := by
  apply BitVec.eq_of_toNat_eq
  rw [BitVec.extractLsb'_toNat, packR_toNat, Nat.shiftRight_eq_div_pow]; omega

end

/-- A word is the R word of its six fields (R71, R73). -/
theorem packR_fields (w : Word) :
    packR (w.extractLsb' 0 7) (w.extractLsb' 7 5) (w.extractLsb' 12 3) (w.extractLsb' 15 5) (w.extractLsb' 20 5)
      (w.extractLsb' 25 7) = w := by
  apply BitVec.eq_of_toNat_eq
  rw [packR_toNat]
  simp only [BitVec.extractLsb'_toNat, Nat.shiftRight_eq_div_pow]
  omega

/-! ### The fields of the other formats -/

section
variable (op : Opcode) (rd : Reg) (f3 : Funct3) (rs1 rs2 : Reg)

@[simp] theorem packI_opcode (imm : BitVec 12) : (packI op rd f3 rs1 imm).extractLsb' 0 7 = op := by
  rw [packI_eq_packR, packR_opcode]

@[simp] theorem packI_rd (imm : BitVec 12) : (packI op rd f3 rs1 imm).extractLsb' 7 5 = rd := by
  rw [packI_eq_packR, packR_rd]

@[simp] theorem packI_funct3 (imm : BitVec 12) : (packI op rd f3 rs1 imm).extractLsb' 12 3 = f3 := by
  rw [packI_eq_packR, packR_funct3]

@[simp] theorem packI_rs1 (imm : BitVec 12) : (packI op rd f3 rs1 imm).extractLsb' 15 5 = rs1 := by
  rw [packI_eq_packR, packR_rs1]

@[simp] theorem packI_rs2 (imm : BitVec 12) : (packI op rd f3 rs1 imm).extractLsb' 20 5 = imm.extractLsb' 0 5 := by
  rw [packI_eq_packR, packR_rs2]

@[simp] theorem packI_funct7 (imm : BitVec 12) : (packI op rd f3 rs1 imm).extractLsb' 25 7 = imm.extractLsb' 5 7 := by
  rw [packI_eq_packR, packR_funct7]

@[simp] theorem packS_opcode (imm : BitVec 12) : (packS op f3 rs1 rs2 imm).extractLsb' 0 7 = op := by
  rw [packS_eq_packR, packR_opcode]

@[simp] theorem packS_funct3 (imm : BitVec 12) : (packS op f3 rs1 rs2 imm).extractLsb' 12 3 = f3 := by
  rw [packS_eq_packR, packR_funct3]

@[simp] theorem packS_rs1 (imm : BitVec 12) : (packS op f3 rs1 rs2 imm).extractLsb' 15 5 = rs1 := by
  rw [packS_eq_packR, packR_rs1]

@[simp] theorem packS_rs2 (imm : BitVec 12) : (packS op f3 rs1 rs2 imm).extractLsb' 20 5 = rs2 := by
  rw [packS_eq_packR, packR_rs2]

@[simp] theorem packS_rd (imm : BitVec 12) : (packS op f3 rs1 rs2 imm).extractLsb' 7 5 = imm.extractLsb' 0 5 := by
  rw [packS_eq_packR, packR_rd]

@[simp] theorem packS_funct7 (imm : BitVec 12) : (packS op f3 rs1 rs2 imm).extractLsb' 25 7 = imm.extractLsb' 5 7 := by
  rw [packS_eq_packR, packR_funct7]

@[simp] theorem packB_opcode (imm : BitVec 13) : (packB op f3 rs1 rs2 imm).extractLsb' 0 7 = op := by
  rw [packB_eq_packR, packR_opcode]

@[simp] theorem packB_funct3 (imm : BitVec 13) : (packB op f3 rs1 rs2 imm).extractLsb' 12 3 = f3 := by
  rw [packB_eq_packR, packR_funct3]

@[simp] theorem packB_rs1 (imm : BitVec 13) : (packB op f3 rs1 rs2 imm).extractLsb' 15 5 = rs1 := by
  rw [packB_eq_packR, packR_rs1]

@[simp] theorem packB_rs2 (imm : BitVec 13) : (packB op f3 rs1 rs2 imm).extractLsb' 20 5 = rs2 := by
  rw [packB_eq_packR, packR_rs2]

theorem packU_toNat (upper : BitVec 20) :
    (packU op rd upper).toNat = upper.toNat * 2 ^ 12 + rd.toNat * 2 ^ 7 + op.toNat := by
  simp only [packU, toNat_concat]; omega

@[simp] theorem packU_opcode (upper : BitVec 20) : (packU op rd upper).extractLsb' 0 7 = op := by
  apply BitVec.eq_of_toNat_eq
  rw [BitVec.extractLsb'_toNat, packU_toNat, Nat.shiftRight_eq_div_pow]; omega

@[simp] theorem packU_rd (upper : BitVec 20) : (packU op rd upper).extractLsb' 7 5 = rd := by
  apply BitVec.eq_of_toNat_eq
  rw [BitVec.extractLsb'_toNat, packU_toNat, Nat.shiftRight_eq_div_pow]; omega

@[simp] theorem packU_upper (upper : BitVec 20) : (packU op rd upper).extractLsb' 12 20 = upper := by
  apply BitVec.eq_of_toNat_eq
  rw [BitVec.extractLsb'_toNat, packU_toNat, Nat.shiftRight_eq_div_pow]; omega

/-- The upper 20 bits of a J word: the scattered immediate (R73). -/
theorem packJ_eq_packU (imm : BitVec 21) :
    packJ op rd imm
      = packU op rd (imm.extractLsb' 20 1 ++ imm.extractLsb' 1 10 ++ imm.extractLsb' 11 1 ++ imm.extractLsb' 12 8) := by
  apply BitVec.eq_of_toNat_eq
  simp only [packJ, packU, toNat_concat]

@[simp] theorem packJ_opcode (imm : BitVec 21) : (packJ op rd imm).extractLsb' 0 7 = op := by
  rw [packJ_eq_packU, packU_opcode]

@[simp] theorem packJ_rd (imm : BitVec 21) : (packJ op rd imm).extractLsb' 7 5 = rd := by
  rw [packJ_eq_packU, packU_rd]

end

@[simp] theorem shiftImm_shamt (f7 : Funct7) (shamt : BitVec 5) : (shiftImm f7 shamt).extractLsb' 0 5 = shamt := by
  apply BitVec.eq_of_toNat_eq
  simp only [shiftImm, toNat_concat, BitVec.extractLsb'_toNat, Nat.shiftRight_eq_div_pow]; omega

@[simp] theorem shiftImm_selector (f7 : Funct7) (shamt : BitVec 5) : (shiftImm f7 shamt).extractLsb' 5 7 = f7 := by
  apply BitVec.eq_of_toNat_eq
  simp only [shiftImm, toNat_concat, BitVec.extractLsb'_toNat, Nat.shiftRight_eq_div_pow]; omega

/-! ### The immediates of a packed word -/

theorem signExtend_low {n k : Nat} (x : BitVec k) (h : k ≤ n) : (x.signExtend n).extractLsb' 0 k = x := by
  ext i hi
  simp [BitVec.getLsbD_signExtend, hi]
  omega

theorem immIOf_packI (op : Opcode) (rd : Reg) (f3 : Funct3) (rs1 : Reg) (imm : BitVec 12) :
    immIOf (packI op rd f3 rs1 imm) = imm.signExtend 32 := by
  have h : (packI op rd f3 rs1 imm).extractLsb' 20 12 = imm := by
    apply BitVec.eq_of_toNat_eq
    simp only [packI, toNat_concat, BitVec.extractLsb'_toNat, Nat.shiftRight_eq_div_pow]
    omega
  rw [immIOf, h]

theorem immSOf_packS (op : Opcode) (f3 : Funct3) (rs1 rs2 : Reg) (imm : BitVec 12) :
    immSOf (packS op f3 rs1 rs2 imm) = imm.signExtend 32 := by
  rw [immSOf, packS_rd, packS_funct7]
  congr 1
  apply BitVec.eq_of_toNat_eq
  simp only [toNat_concat, BitVec.extractLsb'_toNat, Nat.shiftRight_eq_div_pow]
  omega

/-- The slices of a B word that hold its offset (R73, R144). -/
theorem packB_slices (op : Opcode) (f3 : Funct3) (rs1 rs2 : Reg) (imm : BitVec 13) :
    (packB op f3 rs1 rs2 imm).extractLsb' 31 1 = imm.extractLsb' 12 1 ∧
    (packB op f3 rs1 rs2 imm).extractLsb' 7 1 = imm.extractLsb' 11 1 ∧
    (packB op f3 rs1 rs2 imm).extractLsb' 25 6 = imm.extractLsb' 5 6 ∧
    (packB op f3 rs1 rs2 imm).extractLsb' 8 4 = imm.extractLsb' 1 4 := by
  generalize ha : imm.extractLsb' 12 1 = a
  generalize hb : imm.extractLsb' 5 6 = b
  generalize hc : imm.extractLsb' 1 4 = c
  generalize hd : imm.extractLsb' 11 1 = d
  refine ⟨?_, ?_, ?_, ?_⟩ <;>
  · apply BitVec.eq_of_toNat_eq
    rw [BitVec.extractLsb'_toNat, Nat.shiftRight_eq_div_pow]
    simp only [packB, ha, hb, hc, hd, toNat_concat]
    omega

/-- Bit 0 of a B offset is not stored: it comes back 0 (R150). -/
theorem immBOf_packB (op : Opcode) (f3 : Funct3) (rs1 rs2 : Reg) (imm : BitVec 13) :
    immBOf (packB op f3 rs1 rs2 imm) = (imm.extractLsb' 1 12 ++ 0#1).signExtend 32 := by
  obtain ⟨h31, h7, h25, h8⟩ := packB_slices op f3 rs1 rs2 imm
  rw [immBOf, h31, h7, h25, h8]
  congr 1
  apply BitVec.eq_of_toNat_eq
  simp only [toNat_concat, BitVec.extractLsb'_toNat, Nat.shiftRight_eq_div_pow, BitVec.toNat_ofNat]
  omega

theorem immUOf_packU (op : Opcode) (rd : Reg) (upper : BitVec 20) :
    immUOf (packU op rd upper) = upper ++ 0#12 := by
  rw [immUOf, packU_upper]

theorem upper_slice (upper : BitVec 20) : (upper ++ 0#12).extractLsb' 12 20 = upper := by
  apply BitVec.eq_of_toNat_eq
  simp only [toNat_concat, BitVec.extractLsb'_toNat, Nat.shiftRight_eq_div_pow, BitVec.toNat_ofNat]; omega

/-- The slices of a J word that hold its offset (R73, R146). -/
theorem packJ_slices (op : Opcode) (rd : Reg) (imm : BitVec 21) :
    (packJ op rd imm).extractLsb' 31 1 = imm.extractLsb' 20 1 ∧
    (packJ op rd imm).extractLsb' 12 8 = imm.extractLsb' 12 8 ∧
    (packJ op rd imm).extractLsb' 20 1 = imm.extractLsb' 11 1 ∧
    (packJ op rd imm).extractLsb' 21 10 = imm.extractLsb' 1 10 := by
  generalize ha : imm.extractLsb' 20 1 = a
  generalize hb : imm.extractLsb' 1 10 = b
  generalize hc : imm.extractLsb' 11 1 = c
  generalize hd : imm.extractLsb' 12 8 = d
  refine ⟨?_, ?_, ?_, ?_⟩ <;>
  · apply BitVec.eq_of_toNat_eq
    rw [BitVec.extractLsb'_toNat, Nat.shiftRight_eq_div_pow]
    simp only [packJ, ha, hb, hc, hd, toNat_concat]
    omega

/-- Bit 0 of a J offset is not stored: it comes back 0 (R150). -/
theorem immJOf_packJ (op : Opcode) (rd : Reg) (imm : BitVec 21) :
    immJOf (packJ op rd imm) = (imm.extractLsb' 1 20 ++ 0#1).signExtend 32 := by
  obtain ⟨h31, h12, h20, h21⟩ := packJ_slices op rd imm
  rw [immJOf, h31, h12, h20, h21]
  congr 1
  apply BitVec.eq_of_toNat_eq
  simp only [toNat_concat, BitVec.extractLsb'_toNat, Nat.shiftRight_eq_div_pow, BitVec.toNat_ofNat]
  omega

/-- An even offset is its stored bits with a 0 below. -/
theorem even_bits {n : Nat} (x : BitVec (n + 1)) (h : evenOffset x = true) :
    x.extractLsb' 1 n ++ 0#1 = x := by
  have h0 : x.getLsbD 0 = false := by simpa [evenOffset] using h
  ext i hi
  rw [BitVec.getElem_append]
  by_cases h1 : i = 0
  · subst h1; simpa using h0.symm
  · have h2 : ¬ i < 1 := by omega
    rw [dif_neg h2]
    simp [BitVec.getElem_extractLsb', show 1 + (i - 1) = i from by omega, BitVec.getLsbD_eq_getElem hi]

end Sys2Proof
end

