-- ==== Sys2Proof/Laws/Memory.lean ====
section
/-! SUPPORT. The bytes of a memory instance: read after write, the canonical form every operation keeps, and the words
of the slots. -/

namespace Sys2Proof.Machine

/-! ### Lists of cells -/

/-- Addresses strictly rising and no byte 0 listed. -/
abbrev CellsCanonical (cells : List Host.Cell) : Prop :=
  cells.Pairwise (fun a b => a.1 < b.1) ∧ ∀ c ∈ cells, c.2 ≠ 0#8

theorem cellAt_of_lt {cells : List Host.Cell} {a : Nat} (h : ∀ c ∈ cells, a < c.1) : cellAt cells a = 0#8 := by
  induction cells with
  | nil => rfl
  | cons c rest ih =>
    have hc := h c (by simp)
    rw [cellAt, if_neg (by omega)]
    exact ih (fun d hd => h d (by simp [hd]))

/-- Every entry of the list after a write is the new byte or an old entry. -/
theorem mem_setCell {cells : List Host.Cell} {a : Nat} {v : Byte} {c : Host.Cell} (h : c ∈ setCell cells a v) :
    (c = (a, v) ∧ v ≠ 0#8) ∨ c ∈ cells := by
  induction cells with
  | nil =>
    simp only [setCell] at h
    split at h <;> simp_all
  | cons d rest ih =>
    simp only [setCell] at h
    split at h
    · split at h
      · exact .inr h
      · rcases List.mem_cons.mp h with rfl | h
        · exact .inl ⟨rfl, ‹_›⟩
        · exact .inr h
    · split at h
      · split at h
        · exact .inr (by simp [h])
        · rcases List.mem_cons.mp h with rfl | h
          · exact .inl ⟨rfl, ‹_›⟩
          · exact .inr (by simp [h])
      · rcases List.mem_cons.mp h with rfl | h
        · exact .inr (by simp)
        · exact (ih h).imp id (by simp +contextual)

/-- A write keeps the canonical form. -/
theorem setCell_canonical {cells : List Host.Cell} (hc : CellsCanonical cells) (a : Nat) (v : Byte) :
    CellsCanonical (setCell cells a v) := by
  refine ⟨?_, fun c h => (mem_setCell h).elim (fun h => by rw [h.1]; exact h.2) (hc.2 c)⟩
  obtain ⟨hs, -⟩ := hc
  induction cells with
  | nil => simp only [setCell]; split <;> simp
  | cons d rest ih =>
    rw [List.pairwise_cons] at hs
    simp only [setCell]
    split
    · split
      · exact List.pairwise_cons.mpr hs
      · refine List.pairwise_cons.mpr ⟨fun c h => ?_, List.pairwise_cons.mpr hs⟩
        rcases List.mem_cons.mp h with rfl | h
        · assumption
        · exact Nat.lt_trans ‹_› (hs.1 c h)
    · split
      · split
        · exact hs.2
        · refine List.pairwise_cons.mpr ⟨fun c h => ?_, hs.2⟩
          have := hs.1 c h
          simp_all
      · refine List.pairwise_cons.mpr ⟨fun c h => ?_, ih hs.2⟩
        rcases mem_setCell h with ⟨rfl, -⟩ | h
        · show d.1 < a; omega
        · exact hs.1 c h

/-- Read after write: the address written reads as the byte written, every other address as before. -/
theorem cellAt_setCell {cells : List Host.Cell} (hc : CellsCanonical cells) (a b : Nat) (v : Byte) :
    cellAt (setCell cells a v) b = if b = a then v else cellAt cells b := by
  obtain ⟨hs, -⟩ := hc
  induction cells with
  | nil =>
    simp only [setCell]
    by_cases hb : b = a
    · split <;> simp_all [cellAt]
    · split <;> simp_all [cellAt, Ne.symm hb]
  | cons d rest ih =>
    rw [List.pairwise_cons] at hs
    simp only [setCell]
    split
    · have h0 : cellAt (d :: rest) a = 0#8 := cellAt_of_lt (fun c h => by
        rcases List.mem_cons.mp h with rfl | h
        · assumption
        · exact Nat.lt_trans ‹_› (hs.1 c h))
      split
      · split <;> simp_all
      · rw [cellAt]
        by_cases hb : b = a
        · simp [hb]
        · simp [hb, Ne.symm hb]
    · split
      · rename_i heq
        subst heq
        split
        · split
          · rename_i hb; subst hb
            rw [cellAt_of_lt hs.1]; simp_all
          · rw [cellAt, if_neg (by omega)]
        · simp only [cellAt]
          by_cases hb : b = d.1
          · simp [hb]
          · simp [hb, Ne.symm hb]
      · rw [cellAt, cellAt, ih hs.2]
        by_cases hd : d.1 = b
        · rw [if_pos hd, if_pos hd, if_neg (by omega)]
        · rw [if_neg hd, if_neg hd]

/-- Canonical lists that read alike everywhere are equal. -/
theorem canonical_ext {xs ys : List Host.Cell} (hx : CellsCanonical xs) (hy : CellsCanonical ys)
    (h : ∀ a, cellAt xs a = cellAt ys a) : xs = ys := by
  induction xs generalizing ys with
  | nil =>
    cases ys with
    | nil => rfl
    | cons d rest => exact absurd (by simpa [cellAt] using (h d.1).symm) (hy.2 d (by simp))
  | cons c cs ih =>
    cases ys with
    | nil => exact absurd (by simpa [cellAt] using h c.1) (hx.2 c (by simp))
    | cons d ds =>
      have hcs := List.pairwise_cons.mp hx.1
      have hds := List.pairwise_cons.mp hy.1
      have hcd : c.1 = d.1 := by
        rcases Nat.lt_trichotomy c.1 d.1 with hlt | heq | hgt
        · have := h c.1
          rw [cellAt_of_lt (cells := d :: ds) (fun e he => by
            rcases List.mem_cons.mp he with rfl | he
            · exact hlt
            · exact Nat.lt_trans hlt (hds.1 e he))] at this
          exact absurd (by simpa [cellAt] using this) (hx.2 c (by simp))
        · exact heq
        · have := h d.1
          rw [cellAt_of_lt (cells := c :: cs) (fun e he => by
            rcases List.mem_cons.mp he with rfl | he
            · exact hgt
            · exact Nat.lt_trans hgt (hcs.1 e he))] at this
          exact absurd (by simpa [cellAt] using this.symm) (hy.2 d (by simp))
      have hval : c.2 = d.2 := by simpa [cellAt, hcd] using h c.1
      have hhead : c = d := Prod.ext hcd hval
      subst hhead
      congr 1
      refine ih ⟨hcs.2, fun e he => hx.2 e (by simp [he])⟩ ⟨hds.2, fun e he => hy.2 e (by simp [he])⟩ (fun a => ?_)
      by_cases ha : a = c.1
      · subst ha; rw [cellAt_of_lt hcs.1, cellAt_of_lt hds.1]
      · simpa [cellAt, Ne.symm ha] using h a

/-! ### An instance -/

theorem Memory.wf.canonical {m : Memory} (h : m.wf) : CellsCanonical m.cells := ⟨h.1, fun c hc => (h.2 c hc).1⟩

@[simp] theorem Memory.setByte_slotCount (m : Memory) (a : Nat) (v : Byte) :
    (m.setByte a v).slotCount = m.slotCount := rfl

@[simp] theorem Memory.reset_slotCount (m : Memory) : m.reset.slotCount = m.slotCount := rfl

@[simp] theorem Memory.reset_byteAt (m : Memory) (a : Nat) : m.reset.byteAt a = 0#8 := rfl

theorem Memory.setByte_wf {m : Memory} (h : m.wf) {a : Nat} (ha : a < 4 * m.slotCount) (v : Byte) :
    (m.setByte a v).wf := by
  have hc := setCell_canonical h.canonical a v
  refine ⟨hc.1, fun c hm => ⟨hc.2 c hm, ?_⟩⟩
  rcases mem_setCell hm with ⟨rfl, -⟩ | hm
  · exact ha
  · exact (h.2 c hm).2

theorem Memory.setByte_byteAt {m : Memory} (h : m.wf) (a b : Nat) (v : Byte) :
    (m.setByte a v).byteAt b = if b = a then v else m.byteAt b :=
  cellAt_setCell h.canonical a b v

theorem Memory.reset_wf (m : Memory) : m.reset.wf := ⟨List.Pairwise.nil, by simp [Memory.reset]⟩

theorem Memory.ext_of_bytes {m n : Memory} (hm : m.wf) (hn : n.wf) (hc : m.slotCount = n.slotCount)
    (h : ∀ a, m.byteAt a = n.byteAt a) : m = n := by
  obtain ⟨c, cells⟩ := m
  obtain ⟨d, cells'⟩ := n
  have := canonical_ext hm.canonical hn.canonical h
  simp_all

/-! ### A masked write of a slot -/

@[simp] theorem Memory.writeLane_slotCount (m : Memory) (k : Nat) (v : Word) (be : ByteEnable) (i : Nat) :
    (m.writeLane k v be i).slotCount = m.slotCount := by
  unfold Memory.writeLane; split <;> rfl

@[simp] theorem Memory.writeSlot_slotCount (m : Memory) (k : Nat) (v : Word) (be : ByteEnable) :
    (m.writeSlot k v be).slotCount = m.slotCount := by
  simp [Memory.writeSlot]

theorem Memory.writeLane_wf {m : Memory} (h : m.wf) {k : Nat} (hk : k < m.slotCount) (v : Word) (be : ByteEnable)
    {i : Nat} (hi : i < 4) : (m.writeLane k v be i).wf := by
  unfold Memory.writeLane
  split
  · exact Memory.setByte_wf h (by omega) _
  · exact h

theorem Memory.writeLane_byteAt {m : Memory} (h : m.wf) (k : Nat) (v : Word) (be : ByteEnable) (i b : Nat) :
    (m.writeLane k v be i).byteAt b = if b = 4 * k + i ∧ laneEnabled be i = true then laneOf v i else m.byteAt b := by
  unfold Memory.writeLane
  split
  · rw [Memory.setByte_byteAt h]; simp_all
  · simp_all

/-- A masked write keeps the canonical form. -/
theorem Memory.writeSlot_wf {m : Memory} (h : m.wf) {k : Nat} (hk : k < m.slotCount) (v : Word) (be : ByteEnable) :
    (m.writeSlot k v be).wf := by
  unfold Memory.writeSlot
  refine Memory.writeLane_wf (Memory.writeLane_wf (Memory.writeLane_wf (Memory.writeLane_wf h hk v be ?_) ?_ v be ?_)
    ?_ v be ?_) ?_ v be ?_ <;> simp [hk]

/-- A masked write, byte by byte: an enabled lane of the slot takes its byte of the value, every other byte stays. -/
theorem Memory.writeSlot_byteAt {m : Memory} (h : m.wf) {k : Nat} (hk : k < m.slotCount) (v : Word) (be : ByteEnable)
    (b : Nat) :
    (m.writeSlot k v be).byteAt b
      = if b / 4 = k ∧ laneEnabled be (b % 4) = true then laneOf v (b % 4) else m.byteAt b := by
  have h0 := Memory.writeLane_wf h hk v be (i := 0) (by omega)
  have h1 := Memory.writeLane_wf h0 (k := k) (by simpa using hk) v be (i := 1) (by omega)
  have h2 := Memory.writeLane_wf h1 (k := k) (by simpa using hk) v be (i := 2) (by omega)
  unfold Memory.writeSlot
  rw [Memory.writeLane_byteAt h2, Memory.writeLane_byteAt h1, Memory.writeLane_byteAt h0, Memory.writeLane_byteAt h]
  by_cases hb : b / 4 = k
  · have hr : b % 4 = 0 ∨ b % 4 = 1 ∨ b % 4 = 2 ∨ b % 4 = 3 := by omega
    rcases hr with hr | hr | hr | hr <;>
    · have e0 : (b = 4 * k + 0) ↔ b % 4 = 0 := by omega
      have e1 : (b = 4 * k + 1) ↔ b % 4 = 1 := by omega
      have e2 : (b = 4 * k + 2) ↔ b % 4 = 2 := by omega
      have e3 : (b = 4 * k + 3) ↔ b % 4 = 3 := by omega
      simp only [e0, e1, e2, e3, hr, hb]
      simp
  · have e0 : ¬ b = 4 * k + 0 := by omega
    have e1 : ¬ b = 4 * k + 1 := by omega
    have e2 : ¬ b = 4 * k + 2 := by omega
    have e3 : ¬ b = 4 * k + 3 := by omega
    rw [Nat.add_zero] at e0
    simp [e0, e1, e2, e3, hb]

/-- Slots that agree on their four bytes are the same word. -/
theorem Memory.slot_congr {m n : Memory} {k : Nat} (h : ∀ i, i < 4 → m.byteAt (4 * k + i) = n.byteAt (4 * k + i)) :
    m.slot k = n.slot k := by
  have h0 := h 0 (by omega)
  have h1 := h 1 (by omega)
  have h2 := h 2 (by omega)
  have h3 := h 3 (by omega)
  simp only [Nat.add_zero] at h0
  simp only [Memory.slot, h0, h1, h2, h3]

/-- Byte lane `i` of a slot's word is the byte at its address. -/
theorem Memory.laneOf_slot (m : Memory) (k : Nat) {i : Nat} (hi : i < 4) :
    laneOf (m.slot k) i = m.byteAt (4 * k + i) := by
  have h : i = 0 ∨ i = 1 ∨ i = 2 ∨ i = 3 := by omega
  rcases h with rfl | rfl | rfl | rfl <;>
  · apply BitVec.eq_of_toNat_eq
    simp only [laneOf, Memory.slot, BitVec.extractLsb'_toNat, Nat.shiftRight_eq_div_pow, toNat_concat, Nat.add_zero]
    omega

end Sys2Proof.Machine
end

