-- ==== Sys2Proof/Laws/Ops.lean ====
section
/-! SUPPORT. For each shared operation one lemma that says everything it can do. -/

namespace Sys2Proof.Machine

/-! ### The checks of an access -/

/-- The three ways a check ends: misaligned, out of bounds, or a slot index inside the instance (R41, R42). -/
theorem Memory.slotIndex_cases (m : Memory) (addr : Int) :
    (addr % 4 ≠ 0 ∧ m.slotIndex addr = .error (.unaligned addr)) ∨
    (addr % 4 = 0 ∧ (addr < 0 ∨ 4 * (m.slotCount : Int) ≤ addr) ∧ m.slotIndex addr = .error (.outOfBounds addr)) ∨
    ∃ k : Nat, addr = 4 * (k : Int) ∧ k < m.slotCount ∧ m.slotIndex addr = .ok k := by
  unfold Memory.slotIndex
  by_cases h4 : addr % 4 = 0
  · rw [if_neg (by simpa using h4)]
    by_cases hb : addr / 4 < 0 ∨ (m.slotCount : Int) ≤ addr / 4
    · rw [if_pos hb]
      exact .inr (.inl ⟨h4, by omega, rfl⟩)
    · rw [if_neg hb]
      exact .inr (.inr ⟨(addr / 4).toNat, by omega, by omega, rfl⟩)
  · rw [if_pos h4]
    exact .inl ⟨h4, rfl⟩

/-- An aligned address inside the instance gives its slot index. -/
theorem Memory.slotIndex_slot (m : Memory) {k : Nat} (hk : k < m.slotCount) : m.slotIndex (4 * (k : Int)) = .ok k := by
  unfold Memory.slotIndex
  rw [if_neg (by omega), if_neg (by omega)]
  congr 1
  omega

/-! ### Creation -/

theorem Memory.empty_wf (n : Nat) : Memory.wf ⟨n, []⟩ := ⟨List.Pairwise.nil, by simp⟩

@[simp] theorem Memory.empty_byteAt (n a : Nat) : Memory.byteAt ⟨n, []⟩ a = 0#8 := rfl

/-- Loading words keeps the canonical form and the slot count, as long as they fit. -/
theorem Memory.load_wf {m : Memory} (h : m.wf) (k : Nat) (ws : List Int) (hk : k + ws.length ≤ m.slotCount) :
    (m.load k ws).wf ∧ (m.load k ws).slotCount = m.slotCount := by
  induction ws generalizing m k with
  | nil => exact ⟨h, rfl⟩
  | cons w rest ih =>
    simp only [List.length_cons] at hk
    have hw := Memory.writeSlot_wf h (k := k) (by omega) (trunc 32 w) 0b1111#4
    have := ih hw (k + 1) (by simp; omega)
    simpa [Memory.load] using this

/-- Everything `new` can do with a capacity that is not negative (R51 to R53). -/
theorem Memory.create_cases (byteCapacity : Int) (ws : List Int) :
    (slotCountOf byteCapacity < ws.length ∧
      Memory.create byteCapacity ws = .error (.tooManyWords ws.length (slotCountOf byteCapacity))) ∨
    ∃ m, Memory.create byteCapacity ws = .ok m ∧ ws.length ≤ slotCountOf byteCapacity ∧ m.wf ∧
      m.slotCount = slotCountOf byteCapacity ∧ m = Memory.load ⟨slotCountOf byteCapacity, []⟩ 0 ws := by
  unfold Memory.create
  by_cases h : slotCountOf byteCapacity < ws.length
  · exact .inl ⟨h, if_pos h⟩
  · have hw := Memory.load_wf (Memory.empty_wf (slotCountOf byteCapacity)) 0 ws (by simpa using h)
    exact .inr ⟨_, if_neg h, by omega, hw.1, hw.2, rfl⟩

/-! ### What an operation can leave -/

/-- The instances that an operation may leave: the same; one instance replaced by another of the same size in
canonical form; or one more. An error and a rejection leave them the same. -/
inductive InstancesAfter (s t : State) : Prop where
  | same (h : t.instances = s.instances)
  | replaced (k : Nat) (m m' : Memory) (hk : s.instances[k]? = some m)
      (hw : m.wf → m'.wf) (hc : m'.slotCount = m.slotCount) (hr : t.response = some .done)
      (h : t.instances = s.instances.set k m')
  | added (m : Memory) (hw : m.wf) (hr : t.response = some (.created s.instances.length))
      (h : t.instances = s.instances ++ [m])

/-- Everything `raiseError` can do: answer the error, change nothing else (R305). -/
theorem raiseError_eq (e : CoreError) (s : State) : raiseError e s = .next { s with response := some (.error e) } := rfl

/-- Everything `answerWith` can do: the value or the error is the response, and nothing else changes. -/
theorem answerWith_eq {α : Type} (s : State) (reply : α → Response) (r : Except CoreError α) :
    ∃ a, answerWith s reply r = .next (s.answer a) ∧
      ((∃ v, r = .ok v ∧ a = reply v) ∨ ∃ e, r = .error e ∧ a = .error e) := by
  cases r with
  | error e => exact ⟨.error e, rfl, .inr ⟨e, rfl, rfl⟩⟩
  | ok v => exact ⟨reply v, rfl, .inl ⟨v, rfl, rfl⟩⟩

/-- Everything `read` of an instance can do (R43). -/
theorem memRead_cases (inst : Nat) (addr : Int) (s : State) :
    (s.instances[inst]? = none ∧ memRead inst addr s = .fault (.noSuchInstance inst)) ∨
    ∃ m, s.instances[inst]? = some m ∧ memRead inst addr s = answerWith s .rdata (m.read addr) := by
  unfold memRead
  cases h : s.instances[inst]? with
  | none => exact .inl ⟨rfl, rfl⟩
  | some m => exact .inr ⟨m, rfl, rfl⟩

/-- Everything a masked write of an instance can do (R44, R305). -/
theorem memWrite_cases (inst : Nat) (addr value : Int) (be : ByteEnable) (s : State) :
    (s.instances[inst]? = none ∧ memWrite inst addr value be s = .fault (.noSuchInstance inst)) ∨
    (∃ m e, s.instances[inst]? = some m ∧ m.slotIndex addr = .error e ∧
      memWrite inst addr value be s = .next (s.answer (.error e))) ∨
    ∃ (m : Memory) (k : Nat), s.instances[inst]? = some m ∧ addr = 4 * (k : Int) ∧ k < m.slotCount ∧
      memWrite inst addr value be s
        = .next { s with instances := s.instances.set inst (m.writeSlot k (trunc 32 value) be), response := some .done } := by
  unfold memWrite
  cases h : s.instances[inst]? with
  | none => exact .inl ⟨rfl, rfl⟩
  | some m =>
    rcases m.slotIndex_cases addr with ⟨-, hm⟩ | ⟨-, -, hm⟩ | ⟨k, ha, hk, hm⟩
    · exact .inr (.inl ⟨m, _, rfl, hm, by simp only [Memory.write, hm]; rfl⟩)
    · exact .inr (.inl ⟨m, _, rfl, hm, by simp only [Memory.write, hm]; rfl⟩)
    · exact .inr (.inr ⟨m, k, rfl, ha, hk, by simp only [Memory.write, hm]⟩)

/-- Everything `reset` of an instance can do (R55). -/
theorem memReset_cases (inst : Nat) (s : State) :
    (s.instances[inst]? = none ∧ memReset inst s = .fault (.noSuchInstance inst)) ∨
    ∃ m, s.instances[inst]? = some m ∧
      memReset inst s = .next { s with instances := s.instances.set inst m.reset, response := some .done } := by
  unfold memReset
  cases h : s.instances[inst]? with
  | none => exact .inl ⟨rfl, rfl⟩
  | some m => exact .inr ⟨m, rfl, rfl⟩

/-- Everything `new` can do (R51 to R53, D25). -/
theorem memNew_cases (byteCapacity : Int) (ws : List Int) (s : State) :
    (byteCapacity < 0 ∧ memNew byteCapacity ws s = .next (s.answer (.rejected (.negativeCapacity byteCapacity)))) ∨
    (0 ≤ byteCapacity ∧ slotCountOf byteCapacity < ws.length ∧
      memNew byteCapacity ws s
        = .next (s.answer (.error (.tooManyWords ws.length (slotCountOf byteCapacity))))) ∨
    ∃ m, 0 ≤ byteCapacity ∧ ws.length ≤ slotCountOf byteCapacity ∧ m.wf ∧
      m = Memory.load ⟨slotCountOf byteCapacity, []⟩ 0 ws ∧
      memNew byteCapacity ws s
        = .next { s with instances := s.instances ++ [m], response := some (.created s.instances.length) } := by
  unfold memNew
  by_cases h : byteCapacity < 0
  · exact .inl ⟨h, by rw [if_pos h]; rfl⟩
  · rw [if_neg h]
    rcases Memory.create_cases byteCapacity ws with ⟨hl, hc⟩ | ⟨m, hc, hl, hw, -, hm⟩
    · exact .inr (.inl ⟨by omega, hl, by rw [hc]; rfl⟩)
    · exact .inr (.inr ⟨m, by omega, hl, hw, hm, by rw [hc]; rfl⟩)

/-- Everything `new` from a string can do (R54, R306). -/
theorem memNewFromString_cases (byteCapacity : Int) (text : Text) (s : State) :
    (byteCapacity < 0 ∧
      memNewFromString byteCapacity text s = .next (s.answer (.rejected (.negativeCapacity byteCapacity)))) ∨
    (∃ e, 0 ≤ byteCapacity ∧ parseInitialWords (splitSpaces text) = .error e ∧
      memNewFromString byteCapacity text s = .next (s.answer (.error e))) ∨
    ∃ ws, 0 ≤ byteCapacity ∧ parseInitialWords (splitSpaces text) = .ok ws ∧
      memNewFromString byteCapacity text s = memNew byteCapacity ws s := by
  unfold memNewFromString
  by_cases h : byteCapacity < 0
  · exact .inl ⟨h, by rw [if_pos h]; rfl⟩
  · rw [if_neg h]
    cases hp : parseInitialWords (splitSpaces text) with
    | error e => exact .inr (.inl ⟨e, by omega, rfl, rfl⟩)
    | ok ws => exact .inr (.inr ⟨ws, by omega, rfl, rfl⟩)

/-- Everything a halfword store can do: refused at an odd address, else one masked write (R46). -/
theorem storeHalf_cases (inst : Nat) (addr value : Int) (s : State) :
    (addr % 2 ≠ 0 ∧ storeHalf inst addr value s = .next (s.answer (.rejected (.oddHalfword addr)))) ∨
    (addr % 2 = 0 ∧ ∃ v be, storeHalf inst addr value s = memWrite inst (addr - addr % 4) v be s) := by
  unfold storeHalf
  by_cases h : addr % 2 = 0
  · exact .inr ⟨h, _, _, by rw [if_neg (by simpa using h)]⟩
  · exact .inl ⟨h, by rw [if_pos h]; rfl⟩

/-! ### The instances after a memory operation -/

theorem memWrite_instances {inst : Nat} {addr value : Int} {be : ByteEnable} {s t : State}
    (h : memWrite inst addr value be s = .next t) : InstancesAfter s t := by
  rcases memWrite_cases inst addr value be s with ⟨-, hw⟩ | ⟨m, e, -, -, hw⟩ | ⟨m, k, hm, -, hk, hw⟩
  · rw [hw] at h; cases h
  · rw [hw] at h; cases h; exact .same rfl
  · rw [hw] at h; cases h
    exact .replaced inst m _ hm (fun hwf => Memory.writeSlot_wf hwf hk _ _) (by simp) rfl rfl

theorem memReset_instances {inst : Nat} {s t : State} (h : memReset inst s = .next t) : InstancesAfter s t := by
  rcases memReset_cases inst s with ⟨-, hw⟩ | ⟨m, hm, hw⟩
  · rw [hw] at h; cases h
  · rw [hw] at h; cases h
    exact .replaced inst m _ hm (fun _ => Memory.reset_wf m) rfl rfl rfl

theorem memNew_instances {c : Int} {ws : List Int} {s t : State} (h : memNew c ws s = .next t) :
    InstancesAfter s t := by
  rcases memNew_cases c ws s with ⟨-, hw⟩ | ⟨-, -, hw⟩ | ⟨m, -, -, hwf, -, hw⟩
  · rw [hw] at h; cases h; exact .same rfl
  · rw [hw] at h; cases h; exact .same rfl
  · rw [hw] at h; cases h; exact .added m hwf rfl rfl

end Sys2Proof.Machine
end

