-- ==== Sys2Proof/Laws/Tables.lean ====
section
/-! SUPPORT. What the ISA tables answer for each key (41_isa_tables.md R101, R104, R105). -/

namespace Sys2Proof

@[simp] theorem mnemonicOf_add : mnemonicOf machineConfig 0x33#7 0b000#3 0b0000000#7 = .add := rfl
@[simp] theorem mnemonicOf_sub : mnemonicOf machineConfig 0x33#7 0b000#3 0b0100000#7 = .sub := rfl
@[simp] theorem mnemonicOf_sll : mnemonicOf machineConfig 0x33#7 0b001#3 0b0000000#7 = .sll := rfl
@[simp] theorem mnemonicOf_slt : mnemonicOf machineConfig 0x33#7 0b010#3 0b0000000#7 = .slt := rfl
@[simp] theorem mnemonicOf_sltu : mnemonicOf machineConfig 0x33#7 0b011#3 0b0000000#7 = .sltu := rfl
@[simp] theorem mnemonicOf_xor : mnemonicOf machineConfig 0x33#7 0b100#3 0b0000000#7 = .xor := rfl
@[simp] theorem mnemonicOf_srl : mnemonicOf machineConfig 0x33#7 0b101#3 0b0000000#7 = .srl := rfl
@[simp] theorem mnemonicOf_sra : mnemonicOf machineConfig 0x33#7 0b101#3 0b0100000#7 = .sra := rfl
@[simp] theorem mnemonicOf_or : mnemonicOf machineConfig 0x33#7 0b110#3 0b0000000#7 = .or := rfl
@[simp] theorem mnemonicOf_and : mnemonicOf machineConfig 0x33#7 0b111#3 0b0000000#7 = .and := rfl
@[simp] theorem mnemonicOf_slli : mnemonicOf machineConfig 0x13#7 0b001#3 0b0000000#7 = .slli := rfl
@[simp] theorem mnemonicOf_srli : mnemonicOf machineConfig 0x13#7 0b101#3 0b0000000#7 = .srli := rfl
@[simp] theorem mnemonicOf_srai : mnemonicOf machineConfig 0x13#7 0b101#3 0b0100000#7 = .srai := rfl

@[simp] theorem mnemonicOf_addi (f7 : Funct7) : mnemonicOf machineConfig 0x13#7 0b000#3 f7 = .addi := rfl
@[simp] theorem mnemonicOf_slti (f7 : Funct7) : mnemonicOf machineConfig 0x13#7 0b010#3 f7 = .slti := rfl
@[simp] theorem mnemonicOf_sltiu (f7 : Funct7) : mnemonicOf machineConfig 0x13#7 0b011#3 f7 = .sltiu := rfl
@[simp] theorem mnemonicOf_xori (f7 : Funct7) : mnemonicOf machineConfig 0x13#7 0b100#3 f7 = .xori := rfl
@[simp] theorem mnemonicOf_ori (f7 : Funct7) : mnemonicOf machineConfig 0x13#7 0b110#3 f7 = .ori := rfl
@[simp] theorem mnemonicOf_andi (f7 : Funct7) : mnemonicOf machineConfig 0x13#7 0b111#3 f7 = .andi := rfl
@[simp] theorem mnemonicOf_lb (f7 : Funct7) : mnemonicOf machineConfig 0x03#7 0b000#3 f7 = .lb := rfl
@[simp] theorem mnemonicOf_lh (f7 : Funct7) : mnemonicOf machineConfig 0x03#7 0b001#3 f7 = .lh := rfl
@[simp] theorem mnemonicOf_lw (f7 : Funct7) : mnemonicOf machineConfig 0x03#7 0b010#3 f7 = .lw := rfl
@[simp] theorem mnemonicOf_lbu (f7 : Funct7) : mnemonicOf machineConfig 0x03#7 0b100#3 f7 = .lbu := rfl
@[simp] theorem mnemonicOf_lhu (f7 : Funct7) : mnemonicOf machineConfig 0x03#7 0b101#3 f7 = .lhu := rfl
@[simp] theorem mnemonicOf_jalr (f7 : Funct7) : mnemonicOf machineConfig 0x67#7 0b000#3 f7 = .jalr := rfl
@[simp] theorem mnemonicOf_sb (f7 : Funct7) : mnemonicOf machineConfig 0x23#7 0b000#3 f7 = .sb := rfl
@[simp] theorem mnemonicOf_sh (f7 : Funct7) : mnemonicOf machineConfig 0x23#7 0b001#3 f7 = .sh := rfl
@[simp] theorem mnemonicOf_sw (f7 : Funct7) : mnemonicOf machineConfig 0x23#7 0b010#3 f7 = .sw := rfl
@[simp] theorem mnemonicOf_beq (f7 : Funct7) : mnemonicOf machineConfig 0x63#7 0b000#3 f7 = .beq := rfl
@[simp] theorem mnemonicOf_bne (f7 : Funct7) : mnemonicOf machineConfig 0x63#7 0b001#3 f7 = .bne := rfl
@[simp] theorem mnemonicOf_blt (f7 : Funct7) : mnemonicOf machineConfig 0x63#7 0b100#3 f7 = .blt := rfl
@[simp] theorem mnemonicOf_bge (f7 : Funct7) : mnemonicOf machineConfig 0x63#7 0b101#3 f7 = .bge := rfl
@[simp] theorem mnemonicOf_bltu (f7 : Funct7) : mnemonicOf machineConfig 0x63#7 0b110#3 f7 = .bltu := rfl
@[simp] theorem mnemonicOf_bgeu (f7 : Funct7) : mnemonicOf machineConfig 0x63#7 0b111#3 f7 = .bgeu := rfl

@[simp] theorem mnemonicOf_lui (f3 : Funct3) (f7 : Funct7) : mnemonicOf machineConfig 0x37#7 f3 f7 = .lui := rfl
@[simp] theorem mnemonicOf_auipc (f3 : Funct3) (f7 : Funct7) : mnemonicOf machineConfig 0x17#7 f3 f7 = .auipc := rfl
@[simp] theorem mnemonicOf_jal (f3 : Funct3) (f7 : Funct7) : mnemonicOf machineConfig 0x6F#7 f3 f7 = .jal := rfl

@[simp] theorem formatOf_0x33 : formatOf machineConfig 0x33#7 = .R := rfl
@[simp] theorem formatOf_0x13 : formatOf machineConfig 0x13#7 = .I := rfl
@[simp] theorem formatOf_0x03 : formatOf machineConfig 0x03#7 = .I := rfl
@[simp] theorem formatOf_0x67 : formatOf machineConfig 0x67#7 = .I := rfl
@[simp] theorem formatOf_0x23 : formatOf machineConfig 0x23#7 = .S := rfl
@[simp] theorem formatOf_0x63 : formatOf machineConfig 0x63#7 = .B := rfl
@[simp] theorem formatOf_0x37 : formatOf machineConfig 0x37#7 = .U := rfl
@[simp] theorem formatOf_0x17 : formatOf machineConfig 0x17#7 = .U := rfl
@[simp] theorem formatOf_0x6F : formatOf machineConfig 0x6F#7 = .J := rfl

/-- Everything `mnemonic_of` can answer: `unknown` when no row matches, else the mnemonic of a row that does. -/
theorem mnemonicOf_cases (cfg : Config) (op : Opcode) (f3 : Funct3) (f7 : Funct7) :
    (mnemonicOf cfg op f3 f7 = .unknown ∧ ∀ row ∈ cfg.mnemonicTable, row.hits op f3 f7 = false) ∨
    ∃ row ∈ cfg.mnemonicTable, row.hits op f3 f7 = true ∧ mnemonicOf cfg op f3 f7 = row.mnemonic := by
  unfold mnemonicOf
  cases h : cfg.mnemonicTable.find? (fun row => row.hits op f3 f7) with
  | none => exact .inl ⟨rfl, by simpa using h⟩
  | some row => exact .inr ⟨row, List.mem_of_find?_eq_some h, by simpa using List.find?_some h, rfl⟩

/-- A row's key matches exactly when its opcode is the word's and each key field it has is the word's (R105). -/
theorem TableRow.hits_iff (row : TableRow) (op : Opcode) (f3 : Funct3) (f7 : Funct7) :
    row.hits op f3 f7 = true ↔
      row.opcode = op ∧ (∀ k, row.funct3 = some k → k = f3) ∧ (∀ k, row.funct7 = some k → k = f7) := by
  obtain ⟨m, fmt, o, g3, g7⟩ := row
  cases g3 <;> cases g7 <;> simp [TableRow.hits, keyAdmits, and_assoc]

end Sys2Proof
end

