-- ==== Sys2Proof/Laws/PerInstr.lean ====
section
/-! SUPPORT. The family RoundTrip: decoding the word of a well-formed instruction gives it back, one lemma for each
constructor (R107, R151). -/

namespace Sys2Proof.Laws.RoundTrip

/-- Decoding the word of a well-formed instruction gives the instruction back. -/
def Statement (i : Instr) : Prop := i.wellFormed = true → decode (encode i) = .ok i

/-- A word whose record names `i` decodes to `i`. -/
theorem of_record {w : Word} {i : Instr} (h : (Decoded.ofWord machineConfig w).toInstr = some i) :
    decode w = .ok i := by
  simp only [decode, h]

theorem add (rd : Reg) (rs1 : Reg) (rs2 : Reg) : Statement (.add rd rs1 rs2) := fun _ => of_record (by
  simp [encode, Decoded.ofWord, Decoded.ofPorts, Decoded.toInstr])

theorem sub (rd : Reg) (rs1 : Reg) (rs2 : Reg) : Statement (.sub rd rs1 rs2) := fun _ => of_record (by
  simp [encode, Decoded.ofWord, Decoded.ofPorts, Decoded.toInstr])

theorem sll (rd : Reg) (rs1 : Reg) (rs2 : Reg) : Statement (.sll rd rs1 rs2) := fun _ => of_record (by
  simp [encode, Decoded.ofWord, Decoded.ofPorts, Decoded.toInstr])

theorem slt (rd : Reg) (rs1 : Reg) (rs2 : Reg) : Statement (.slt rd rs1 rs2) := fun _ => of_record (by
  simp [encode, Decoded.ofWord, Decoded.ofPorts, Decoded.toInstr])

theorem sltu (rd : Reg) (rs1 : Reg) (rs2 : Reg) : Statement (.sltu rd rs1 rs2) := fun _ => of_record (by
  simp [encode, Decoded.ofWord, Decoded.ofPorts, Decoded.toInstr])

theorem xor (rd : Reg) (rs1 : Reg) (rs2 : Reg) : Statement (.xor rd rs1 rs2) := fun _ => of_record (by
  simp [encode, Decoded.ofWord, Decoded.ofPorts, Decoded.toInstr])

theorem srl (rd : Reg) (rs1 : Reg) (rs2 : Reg) : Statement (.srl rd rs1 rs2) := fun _ => of_record (by
  simp [encode, Decoded.ofWord, Decoded.ofPorts, Decoded.toInstr])

theorem sra (rd : Reg) (rs1 : Reg) (rs2 : Reg) : Statement (.sra rd rs1 rs2) := fun _ => of_record (by
  simp [encode, Decoded.ofWord, Decoded.ofPorts, Decoded.toInstr])

theorem or (rd : Reg) (rs1 : Reg) (rs2 : Reg) : Statement (.or rd rs1 rs2) := fun _ => of_record (by
  simp [encode, Decoded.ofWord, Decoded.ofPorts, Decoded.toInstr])

theorem and (rd : Reg) (rs1 : Reg) (rs2 : Reg) : Statement (.and rd rs1 rs2) := fun _ => of_record (by
  simp [encode, Decoded.ofWord, Decoded.ofPorts, Decoded.toInstr])

theorem addi (rd : Reg) (rs1 : Reg) (imm : BitVec 12) : Statement (.addi rd rs1 imm) := fun _ => of_record (by
  simp [encode, Decoded.ofWord, Decoded.ofPorts, Decoded.toInstr, immIOf_packI, signExtend_low])

theorem slti (rd : Reg) (rs1 : Reg) (imm : BitVec 12) : Statement (.slti rd rs1 imm) := fun _ => of_record (by
  simp [encode, Decoded.ofWord, Decoded.ofPorts, Decoded.toInstr, immIOf_packI, signExtend_low])

theorem sltiu (rd : Reg) (rs1 : Reg) (imm : BitVec 12) : Statement (.sltiu rd rs1 imm) := fun _ => of_record (by
  simp [encode, Decoded.ofWord, Decoded.ofPorts, Decoded.toInstr, immIOf_packI, signExtend_low])

theorem xori (rd : Reg) (rs1 : Reg) (imm : BitVec 12) : Statement (.xori rd rs1 imm) := fun _ => of_record (by
  simp [encode, Decoded.ofWord, Decoded.ofPorts, Decoded.toInstr, immIOf_packI, signExtend_low])

theorem ori (rd : Reg) (rs1 : Reg) (imm : BitVec 12) : Statement (.ori rd rs1 imm) := fun _ => of_record (by
  simp [encode, Decoded.ofWord, Decoded.ofPorts, Decoded.toInstr, immIOf_packI, signExtend_low])

theorem andi (rd : Reg) (rs1 : Reg) (imm : BitVec 12) : Statement (.andi rd rs1 imm) := fun _ => of_record (by
  simp [encode, Decoded.ofWord, Decoded.ofPorts, Decoded.toInstr, immIOf_packI, signExtend_low])

theorem slli (rd : Reg) (rs1 : Reg) (shamt : BitVec 5) : Statement (.slli rd rs1 shamt) := fun _ => of_record (by
  simp [encode, Decoded.ofWord, Decoded.ofPorts, Decoded.toInstr])

theorem srli (rd : Reg) (rs1 : Reg) (shamt : BitVec 5) : Statement (.srli rd rs1 shamt) := fun _ => of_record (by
  simp [encode, Decoded.ofWord, Decoded.ofPorts, Decoded.toInstr])

theorem srai (rd : Reg) (rs1 : Reg) (shamt : BitVec 5) : Statement (.srai rd rs1 shamt) := fun _ => of_record (by
  simp [encode, Decoded.ofWord, Decoded.ofPorts, Decoded.toInstr])

theorem lb (rd : Reg) (rs1 : Reg) (imm : BitVec 12) : Statement (.lb rd rs1 imm) := fun _ => of_record (by
  simp [encode, Decoded.ofWord, Decoded.ofPorts, Decoded.toInstr, immIOf_packI, signExtend_low])

theorem lh (rd : Reg) (rs1 : Reg) (imm : BitVec 12) : Statement (.lh rd rs1 imm) := fun _ => of_record (by
  simp [encode, Decoded.ofWord, Decoded.ofPorts, Decoded.toInstr, immIOf_packI, signExtend_low])

theorem lw (rd : Reg) (rs1 : Reg) (imm : BitVec 12) : Statement (.lw rd rs1 imm) := fun _ => of_record (by
  simp [encode, Decoded.ofWord, Decoded.ofPorts, Decoded.toInstr, immIOf_packI, signExtend_low])

theorem lbu (rd : Reg) (rs1 : Reg) (imm : BitVec 12) : Statement (.lbu rd rs1 imm) := fun _ => of_record (by
  simp [encode, Decoded.ofWord, Decoded.ofPorts, Decoded.toInstr, immIOf_packI, signExtend_low])

theorem lhu (rd : Reg) (rs1 : Reg) (imm : BitVec 12) : Statement (.lhu rd rs1 imm) := fun _ => of_record (by
  simp [encode, Decoded.ofWord, Decoded.ofPorts, Decoded.toInstr, immIOf_packI, signExtend_low])

theorem jalr (rd : Reg) (rs1 : Reg) (imm : BitVec 12) : Statement (.jalr rd rs1 imm) := fun _ => of_record (by
  simp [encode, Decoded.ofWord, Decoded.ofPorts, Decoded.toInstr, immIOf_packI, signExtend_low])

theorem sb (rs1 : Reg) (rs2 : Reg) (offset : BitVec 12) : Statement (.sb rs1 rs2 offset) := fun _ => of_record (by
  simp [encode, Decoded.ofWord, Decoded.ofPorts, Decoded.toInstr, immSOf_packS, signExtend_low])

theorem sh (rs1 : Reg) (rs2 : Reg) (offset : BitVec 12) : Statement (.sh rs1 rs2 offset) := fun _ => of_record (by
  simp [encode, Decoded.ofWord, Decoded.ofPorts, Decoded.toInstr, immSOf_packS, signExtend_low])

theorem sw (rs1 : Reg) (rs2 : Reg) (offset : BitVec 12) : Statement (.sw rs1 rs2 offset) := fun _ => of_record (by
  simp [encode, Decoded.ofWord, Decoded.ofPorts, Decoded.toInstr, immSOf_packS, signExtend_low])

theorem beq (rs1 : Reg) (rs2 : Reg) (offset : BitVec 13) : Statement (.beq rs1 rs2 offset) := fun h => of_record (by
  simp [encode, Decoded.ofWord, Decoded.ofPorts, Decoded.toInstr, immBOf_packB, signExtend_low, even_bits offset h])

theorem bne (rs1 : Reg) (rs2 : Reg) (offset : BitVec 13) : Statement (.bne rs1 rs2 offset) := fun h => of_record (by
  simp [encode, Decoded.ofWord, Decoded.ofPorts, Decoded.toInstr, immBOf_packB, signExtend_low, even_bits offset h])

theorem blt (rs1 : Reg) (rs2 : Reg) (offset : BitVec 13) : Statement (.blt rs1 rs2 offset) := fun h => of_record (by
  simp [encode, Decoded.ofWord, Decoded.ofPorts, Decoded.toInstr, immBOf_packB, signExtend_low, even_bits offset h])

theorem bge (rs1 : Reg) (rs2 : Reg) (offset : BitVec 13) : Statement (.bge rs1 rs2 offset) := fun h => of_record (by
  simp [encode, Decoded.ofWord, Decoded.ofPorts, Decoded.toInstr, immBOf_packB, signExtend_low, even_bits offset h])

theorem bltu (rs1 : Reg) (rs2 : Reg) (offset : BitVec 13) : Statement (.bltu rs1 rs2 offset) := fun h => of_record (by
  simp [encode, Decoded.ofWord, Decoded.ofPorts, Decoded.toInstr, immBOf_packB, signExtend_low, even_bits offset h])

theorem bgeu (rs1 : Reg) (rs2 : Reg) (offset : BitVec 13) : Statement (.bgeu rs1 rs2 offset) := fun h => of_record (by
  simp [encode, Decoded.ofWord, Decoded.ofPorts, Decoded.toInstr, immBOf_packB, signExtend_low, even_bits offset h])

theorem lui (rd : Reg) (imm20 : BitVec 20) : Statement (.lui rd imm20) := fun _ => of_record (by
  simp [encode, Decoded.ofWord, Decoded.ofPorts, Decoded.toInstr, immUOf_packU, upper_slice])

theorem auipc (rd : Reg) (imm20 : BitVec 20) : Statement (.auipc rd imm20) := fun _ => of_record (by
  simp [encode, Decoded.ofWord, Decoded.ofPorts, Decoded.toInstr, immUOf_packU, upper_slice])

theorem jal (rd : Reg) (offset : BitVec 21) : Statement (.jal rd offset) := fun h => of_record (by
  simp [encode, Decoded.ofWord, Decoded.ofPorts, Decoded.toInstr, immJOf_packJ, signExtend_low, even_bits offset h])

end Sys2Proof.Laws.RoundTrip
end

