-- ==== Sys2Proof/Laws/Step.lean ====
section
/-! SUPPORT. What exec and step can do, said once. -/

namespace Sys2Proof.Machine

/-- Everything a meaning can do: it answers some decoder record, and changes nothing else. -/
theorem exec_next (i : Instr) (s : State) : ∃ d, exec i s = .next { s with response := some (.decoded d) } := by
  cases i <;> exact ⟨_, rfl⟩

/-- Every meaning presents the word of its instruction, with some format tag and mnemonic. -/
theorem exec_present (i : Instr) (s : State) : ∃ f m, exec i s = present f m (encode i) s := by
  cases i <;> exact ⟨_, _, rfl⟩

/-- Serving a word answers some decoder record, and changes nothing else. -/
theorem serve_decode (w : Word) (s : State) :
    ∃ d, serve (.decode w) s = .next { s with response := some (.decoded d) } := by
  simp only [serve]
  split
  · exact exec_next _ s
  · exact ⟨_, rfl⟩

/-- The pending operations are no business of the one being served. -/
theorem answerWith_instances {α : Type} {s t : State} {reply : α → Response} {r : Except CoreError α}
    (h : answerWith s reply r = .next t) : InstancesAfter s t := by
  obtain ⟨a, ha, -⟩ := answerWith_eq s reply r
  rw [ha] at h; cases h; exact .same rfl

/-- Everything serving one operation can do to the instances. -/
theorem serve_instances {r : Request} {s t : State} (h : serve r s = .next t) : InstancesAfter s t := by
  cases r with
  | decode w =>
    obtain ⟨d, hd⟩ := serve_decode w s
    rw [hd] at h; cases h; exact .same rfl
  | encodeR => cases h; exact .same rfl
  | encodeI => cases h; exact .same rfl
  | encodeS => cases h; exact .same rfl
  | encodeB => cases h; exact .same rfl
  | encodeU => cases h; exact .same rfl
  | encodeJ => cases h; exact .same rfl
  | encode m ops => exact answerWith_instances h
  | formatOf => cases h; exact .same rfl
  | mnemonicOf => cases h; exact .same rfl
  | registerIndexOf n => exact answerWith_instances h
  | select m => exact answerWith_instances h
  | assemble src => exact answerWith_instances h
  | memNew c ws => exact memNew_instances h
  | memNewFromString c text =>
    simp only [serve] at h
    rcases memNewFromString_cases c text s with ⟨-, hw⟩ | ⟨e, -, -, hw⟩ | ⟨ws, -, -, hw⟩
    · rw [hw] at h; cases h; exact .same rfl
    · rw [hw] at h; cases h; exact .same rfl
    · rw [hw] at h; exact memNew_instances h
  | memRead inst addr =>
    simp only [serve] at h
    rcases memRead_cases inst addr s with ⟨-, hw⟩ | ⟨m, -, hw⟩
    · rw [hw] at h; cases h
    · rw [hw] at h; exact answerWith_instances h
  | memWrite inst addr value be => exact memWrite_instances h
  | memReset inst => exact memReset_instances h
  | storeByte inst addr value => exact memWrite_instances h
  | storeHalf inst addr value =>
    simp only [serve] at h
    rcases storeHalf_cases inst addr value s with ⟨-, hw⟩ | ⟨-, v, be, hw⟩
    · rw [hw] at h; cases h; exact .same rfl
    · rw [hw] at h; exact memWrite_instances h
  | storeWord inst addr value => exact memWrite_instances h

/-- One step: nothing was asked for and nothing happens, or the oldest operation is served. -/
theorem step_cases (s : State) :
    (s.pending = [] ∧ step s = .next s) ∨
    ∃ r rest, s.pending = r :: rest ∧ step s = serve r { s with pending := rest } := by
  unfold step
  cases h : s.pending with
  | nil => exact .inl ⟨rfl, rfl⟩
  | cons r rest => exact .inr ⟨r, rest, rfl, rfl⟩

/-- A step with an oldest operation serves it. -/
theorem step_of_pending {s : State} {r : Request} {rest : List Request} (h : s.pending = r :: rest) :
    step s = serve r { s with pending := rest } := by
  simp only [step, h]

end Sys2Proof.Machine
end

