-- ==== Sys2Proof/Tests/Slice0.lean ====
section
/-! SUPPORT. Tests: expected results are the spec's own (the Example words of 45_r_type.md to 49_u_j_type.md and the
vectors of 95_test_vectors.md); and for each statement with hypotheses a concrete case that meets them. -/

namespace Sys2Proof.Tests

open Sys2Proof.Machine Sys2Proof.Stated

/-! ### Helpers -/

/-- A state with these memory instances and one operation asked for. -/
def asking (ms : List Memory) (r : Request) : State := ⟨ms, [r], none⟩

/-- The response after a step, if it goes on. -/
def answerOf : Host.Outcome State Fault Refusal → Option Response
  | .next t => t.response
  | .fault _ => none
  | .refused _ => none

/-- The slots of every instance after a step, if it goes on. -/
def slotsOf : Host.Outcome State Fault Refusal → List (List Word)
  | .next t => t.instances.map (fun m => (List.range m.slotCount).map m.slot)
  | .fault _ => []
  | .refused _ => []

/-- The memory operation stopped on an instance that does not exist. -/
def stopsOn (inst : Nat) : Host.Outcome State Fault Refusal → Bool
  | .fault (.noSuchInstance k) => k == inst
  | .next _ => false
  | .refused _ => false

/-- `new(8, [0x11223344])`: two slots. -/
def mem2 : Memory := ⟨2, [(0, 0x44#8), (1, 0x33#8), (2, 0x22#8), (3, 0x11#8)]⟩

/-- `new(10)`: three slots, all 0. -/
def mem3 : Memory := ⟨3, []⟩

/-- The word stands for this instruction, with this format tag and mnemonic, and a step on it answers its record. -/
abbrev decodes (w : Word) (i : Instr) (f : Format) (m : Mnemonic) : Prop :=
  decode w = .ok i ∧ (Decoded.ofWord machineConfig w).format = f ∧ (Decoded.ofWord machineConfig w).mnemonic = m ∧
    answerOf (step (State.reset.withFetchWord 32 w.toNat)) = some (.decoded (Decoded.ofWord machineConfig w))

/-- The words of a source that assembles. -/
def wordsOf (source : String) : Option (List Word) :=
  match assemble machineConfig source.toList with
  | .ok ws => some ws
  | .error _ => none

/-- The error of a source that does not assemble. -/
def errorOf (source : String) : Option CoreError :=
  match assemble machineConfig source.toList with
  | .ok _ => none
  | .error e => some e

/-- The decoder's record of a word. -/
def record (w : Word) : Decoded := Decoded.ofWord machineConfig w

/-- What a step answers to one operation, on these instances. -/
def answers (ms : List Memory) (r : Request) : Option Response := answerOf (step (asking ms r))

/-- The slots after one operation, on these instances. -/
def slots (ms : List Memory) (r : Request) : List (List Word) := slotsOf (step (asking ms r))

/-! ### WellFormed: an ill-formed term for each check is refused (R76, R78) -/

theorem test_ill_formed_beq : (Instr.beq 1 2 7).wellFormed = false := by decide
theorem test_ill_formed_bne : (Instr.bne 1 2 0x1FFF).wellFormed = false := by decide
theorem test_ill_formed_blt : (Instr.blt 1 2 1).wellFormed = false := by decide
theorem test_ill_formed_bge : (Instr.bge 1 2 3).wellFormed = false := by decide
theorem test_ill_formed_bltu : (Instr.bltu 1 2 5).wellFormed = false := by decide
theorem test_ill_formed_bgeu : (Instr.bgeu 1 2 0xFFF).wellFormed = false := by decide
theorem test_ill_formed_jal : (Instr.jal 1 3).wellFormed = false := by decide
theorem test_well_formed_edges : (Instr.beq 1 2 0xFFE).wellFormed = true ∧ (Instr.jal 1 0x1FFFFE).wellFormed = true ∧
    (Instr.jalr 1 2 0xFFF).wellFormed = true := by decide

/-! ### R-type: the Example words of 45_r_type.md -/

theorem test_add : decodes 0b00000000001100010000000010110011#32 (.add 1 2 3) .R .add ∧
    wordsOf "add x1, x2, x3" = some [0x003100B3#32] := by decide

theorem test_sub : decodes 0b01000000011100110000001010110011#32 (.sub 5 6 7) .R .sub ∧
    wordsOf "sub x5, x6, x7" = some [0x407302B3#32] := by decide

theorem test_sll : decodes 0b00000000011100110001001010110011#32 (.sll 5 6 7) .R .sll ∧
    wordsOf "sll t0, t1, t2" = some [0x007312B3#32] := by decide

theorem test_slt : decodes 0b00000000110001011010010100110011#32 (.slt 10 11 12) .R .slt ∧
    wordsOf "slt a0, a1, a2" = some [0x00C5A533#32] := by decide

theorem test_sltu : decodes 0b00000000110001011011010100110011#32 (.sltu 10 11 12) .R .sltu ∧
    wordsOf "sltu a0, a1, a2" = some [0x00C5B533#32] := by decide

theorem test_xor : decodes 0b00000001001001001100010000110011#32 (.xor 8 9 18) .R .xor ∧
    wordsOf "xor s0, s1, s2" = some [0x0124C433#32] := by decide

theorem test_srl : decodes 0b00000000110001011101010100110011#32 (.srl 10 11 12) .R .srl ∧
    wordsOf "srl x10, x11, x12" = some [0x00C5D533#32] := by decide

theorem test_sra : decodes 0b01000000110001011101010100110011#32 (.sra 10 11 12) .R .sra ∧
    wordsOf "sra x10, x11, x12" = some [0x40C5D533#32] := by decide

theorem test_or : decodes 0b00000001111011101110111000110011#32 (.or 28 29 30) .R .or ∧
    wordsOf "or t3, t4, t5" = some [0x01EEEE33#32] := by decide

theorem test_and : decodes 0b00000001111100000111111110110011#32 (.and 31 0 31) .R .and ∧
    wordsOf "and x31, x0, x31" = some [0x01F07FB3#32] := by decide

/-! ### I-type: the Example words of 46_i_type.md -/

theorem test_addi : decodes 0b11111111101100010000000010010011#32 (.addi 1 2 0xFFB) .I .addi ∧
    wordsOf "addi x1, x2, -5" = some [0xFFB10093#32] := by decide

theorem test_slti : decodes 0b11111111111101011010010100010011#32 (.slti 10 11 0xFFF) .I .slti ∧
    wordsOf "slti a0, a1, -1" = some [0xFFF5A513#32] := by decide

theorem test_sltiu : decodes 0b00000000000101011011010100010011#32 (.sltiu 10 11 0x1) .I .sltiu ∧
    wordsOf "sltiu a0, a1, 1" = some [0x0015B513#32] := by decide

theorem test_xori : decodes 0b11111111111101010100010100010011#32 (.xori 10 10 0xFFF) .I .xori ∧
    wordsOf "xori a0, a0, -1" = some [0xFFF54513#32] := by decide

theorem test_ori : decodes 0b01111111111100101110001010010011#32 (.ori 5 5 0x7FF) .I .ori ∧
    wordsOf "ori t0, t0, 0x7ff" = some [0x7FF2E293#32] := by decide

theorem test_andi : decodes 0b00001111111100101111001010010011#32 (.andi 5 5 0xFF) .I .andi ∧
    wordsOf "andi t0, t0, 255" = some [0x0FF2F293#32] := by decide

theorem test_slli : decodes 0b00000001111100010001000010010011#32 (.slli 1 2 31) .I .slli ∧
    wordsOf "slli x1, x2, 31" = some [0x01F11093#32] := by decide

theorem test_srli : decodes 0b00000000000100010101000010010011#32 (.srli 1 2 1) .I .srli ∧
    wordsOf "srli x1, x2, 1" = some [0x00115093#32] := by decide

theorem test_srai : decodes 0b01000000000100010101000010010011#32 (.srai 1 2 1) .I .srai ∧
    wordsOf "srai x1, x2, 1" = some [0x40115093#32] := by decide

theorem test_lb : decodes 0b11111111111100010000010100000011#32 (.lb 10 2 0xFFF) .I .lb ∧
    wordsOf "lb a0, -1(sp)" = some [0xFFF10503#32] := by decide

theorem test_lh : decodes 0b00000000001000010001010100000011#32 (.lh 10 2 0x2) .I .lh ∧
    wordsOf "lh a0, 2(sp)" = some [0x00211503#32] := by decide

theorem test_lw : decodes 0b00000000100000010010000010000011#32 (.lw 1 2 0x8) .I .lw ∧
    wordsOf "lw x1, 8(x2)" = some [0x00812083#32] := by decide

theorem test_lbu : decodes 0b00000000000001011100010100000011#32 (.lbu 10 11 0x0) .I .lbu ∧
    wordsOf "lbu a0, 0(a1)" = some [0x0005C503#32] := by decide

theorem test_lhu : decodes 0b10000000000001011101010100000011#32 (.lhu 10 11 0x800) .I .lhu ∧
    wordsOf "lhu a0, -2048(a1)" = some [0x8005D503#32] := by decide

theorem test_jalr : decodes 0b00000000010000101000000011100111#32 (.jalr 1 5 0x4) .I .jalr ∧
    wordsOf "jalr ra, t0, 4" = some [0x004280E7#32] := by decide

/-! ### S-type: the Example words of 47_s_type.md -/

theorem test_sb : decodes 0b00000000101000010000000110100011#32 (.sb 2 10 0x3) .S .sb ∧
    wordsOf "sb a0, 3(sp)" = some [0x00A101A3#32] := by decide

theorem test_sh : decodes 0b11111110101000010001111100100011#32 (.sh 2 10 0xFFE) .S .sh ∧
    wordsOf "sh a0, -2(sp)" = some [0xFEA11F23#32] := by decide

theorem test_sw : decodes 0b01111110000100010010111110100011#32 (.sw 2 1 0x7FF) .S .sw ∧
    wordsOf "sw ra, 2047(sp)" = some [0x7E112FA3#32] := by decide

/-! ### B-type: the Example words of 48_b_type.md -/

theorem test_beq : decodes 0b00000000001000001000010001100011#32 (.beq 1 2 0x8) .B .beq ∧
    wordsOf "beq x1, x2, 8" = some [0x00208463#32] := by decide

theorem test_bne : decodes 0b11111110000000101001111011100011#32 (.bne 5 0 0x1FFC) .B .bne ∧
    wordsOf "bne t0, zero, -4" = some [0xFE029EE3#32] := by decide

theorem test_blt : decodes 0b00000000101101010100000011100011#32 (.blt 10 11 0x800) .B .blt ∧
    wordsOf "blt a0, a1, 2048" = some [0x00B540E3#32] := by decide

theorem test_bge : decodes 0b10000000101101010101000001100011#32 (.bge 10 11 0x1000) .B .bge ∧
    wordsOf "bge a0, a1, -4096" = some [0x80B55063#32] := by decide

theorem test_bltu : decodes 0b01111110101101010110111111100011#32 (.bltu 10 11 0xFFE) .B .bltu ∧
    wordsOf "bltu a0, a1, 4094" = some [0x7EB56FE3#32] := by decide

theorem test_bgeu : decodes 0b00000000101101010111001101100011#32 (.bgeu 10 11 0x6) .B .bgeu ∧
    wordsOf "bgeu a0, a1, 6" = some [0x00B57363#32] := by decide

/-! ### U-type and J-type: the Example words of 49_u_j_type.md -/

theorem test_lui : decodes 0b00010010001101000101001010110111#32 (.lui 5 0x12345) .U .lui ∧
    wordsOf "lui x5, 0x12345" = some [0x123452B7#32] := by decide

theorem test_auipc : decodes 0b11111111111111111111001010010111#32 (.auipc 5 0xFFFFF) .U .auipc ∧
    wordsOf "auipc x5, 0xfffff" = some [0xFFFFF297#32] := by decide

theorem test_jal : decodes 0b00000000000100000000000011101111#32 (.jal 1 0x800) .J .jal ∧
    wordsOf "jal ra, 2048" = some [0x001000EF#32] := by decide

/-! ### The decoder vectors of 95_test_vectors.md section 3 -/

theorem test_decoder_vectors_1 :
    record 0x00000000 = ⟨0x00, 0, 0, 0, 0, 0x00, 0x00000000, 0x00000000, 0x00000000, 0x00000000, 0x00000000, .NONE, .unknown⟩ ∧
    record 0xFFFFFFFF = ⟨0x7F, 31, 7, 31, 31, 0x7F, 0xFFFFFFFF, 0xFFFFFFFF, 0xFFFFFFFE, 0xFFFFF000, 0xFFFFFFFE, .NONE, .unknown⟩ ∧
    record 0x0000000F = ⟨0x0F, 0, 0, 0, 0, 0x00, 0x00000000, 0x00000000, 0x00000000, 0x00000000, 0x00000000, .NONE, .unknown⟩ ∧
    record 0x00000073 = ⟨0x73, 0, 0, 0, 0, 0x00, 0x00000000, 0x00000000, 0x00000000, 0x00000000, 0x00000000, .NONE, .unknown⟩ ∧
    record 0x00100073 = ⟨0x73, 0, 0, 0, 1, 0x00, 0x00000001, 0x00000000, 0x00000000, 0x00100000, 0x00000800, .NONE, .unknown⟩ ∧
    record 0x02000033 = ⟨0x33, 0, 0, 0, 0, 0x01, 0x00000020, 0x00000020, 0x00000020, 0x02000000, 0x00000020, .R, .unknown⟩ ∧
    record 0x00002063 = ⟨0x63, 0, 2, 0, 0, 0x00, 0x00000000, 0x00000000, 0x00000000, 0x00002000, 0x00002000, .B, .unknown⟩ ∧
    record 0x40001013 = ⟨0x13, 0, 1, 0, 0, 0x20, 0x00000400, 0x00000400, 0x00000400, 0x40001000, 0x00001400, .I, .unknown⟩ := by decide

theorem test_decoder_vectors_2 :
    record 0x40005013 = ⟨0x13, 0, 5, 0, 0, 0x20, 0x00000400, 0x00000400, 0x00000400, 0x40005000, 0x00005400, .I, .srai⟩ ∧
    record 0x00001067 = ⟨0x67, 0, 1, 0, 0, 0x00, 0x00000000, 0x00000000, 0x00000000, 0x00001000, 0x00001000, .I, .unknown⟩ ∧
    record 0x00000001 = ⟨0x01, 0, 0, 0, 0, 0x00, 0x00000000, 0x00000000, 0x00000000, 0x00000000, 0x00000000, .NONE, .unknown⟩ ∧
    record 0x00003023 = ⟨0x23, 0, 3, 0, 0, 0x00, 0x00000000, 0x00000000, 0x00000000, 0x00003000, 0x00003000, .S, .unknown⟩ ∧
    record 0x00007003 = ⟨0x03, 0, 7, 0, 0, 0x00, 0x00000000, 0x00000000, 0x00000000, 0x00007000, 0x00007000, .I, .unknown⟩ ∧
    record 0x80000037 = ⟨0x37, 0, 0, 0, 0, 0x40, 0xFFFFF800, 0xFFFFF800, 0xFFFFF000, 0x80000000, 0xFFF00000, .U, .lui⟩ ∧
    record 0xFFB10093 = ⟨0x13, 1, 0, 2, 27, 0x7F, 0xFFFFFFFB, 0xFFFFFFE1, 0xFFFFFFE0, 0xFFB10000, 0xFFF10FFA, .I, .addi⟩ ∧
    record 0xFEA11F23 = ⟨0x23, 30, 1, 2, 10, 0x7F, 0xFFFFFFEA, 0xFFFFFFFE, 0xFFFFF7FE, 0xFEA11000, 0xFFF117EA, .S, .sh⟩ := by decide

theorem test_decoder_vectors_3 :
    record 0xFE029EE3 = ⟨0x63, 29, 1, 5, 0, 0x7F, 0xFFFFFFE0, 0xFFFFFFFD, 0xFFFFFFFC, 0xFE029000, 0xFFF297E0, .B, .bne⟩ ∧
    record 0x123452B7 = ⟨0x37, 5, 5, 8, 3, 0x09, 0x00000123, 0x00000125, 0x00000924, 0x12345000, 0x00045922, .U, .lui⟩ ∧
    record 0x001000EF = ⟨0x6F, 1, 0, 0, 1, 0x00, 0x00000001, 0x00000001, 0x00000800, 0x00100000, 0x00000800, .J, .jal⟩ ∧
    record 0x80000063 = ⟨0x63, 0, 0, 0, 0, 0x40, 0xFFFFF800, 0xFFFFF800, 0xFFFFF000, 0x80000000, 0xFFF00000, .B, .beq⟩ ∧
    record 0x800000EF = ⟨0x6F, 1, 0, 0, 0, 0x40, 0xFFFFF800, 0xFFFFF801, 0xFFFFF800, 0x80000000, 0xFFF00000, .J, .jal⟩ ∧
    record 0x00000013 = ⟨0x13, 0, 0, 0, 0, 0x00, 0x00000000, 0x00000000, 0x00000000, 0x00000000, 0x00000000, .I, .addi⟩ := by decide

/-! ### The texts of 95_test_vectors.md sections 2 and 4 -/

theorem test_r_type_texts :
    wordsOf "add x5, x5, x5" = some [0x005282B3#32] ∧
    wordsOf "sub x0, x1, x2" = some [0x40208033#32] ∧
    wordsOf "and x31, x31, x31" = some [0x01FFFFB3#32] ∧
    wordsOf "or zero, zero, zero" = some [0x00006033#32] ∧
    wordsOf "sll x1, x2, x3" = some [0x003110B3#32] ∧
    wordsOf "sra t6, t5, t4" = some [0x41DF5FB3#32] ∧
    wordsOf "sltu x1, x0, x2" = some [0x002030B3#32] ∧
    wordsOf "xor x07, x7, x0" = some [0x0003C3B3#32] ∧
    wordsOf "ADD x1, x2, x3" = some [0x003100B3#32] ∧
    wordsOf "add x1 x2 x3" = some [0x003100B3#32] := by decide

theorem test_i_type_texts_1 :
    wordsOf "addi x1, x2, 2047" = some [0x7FF10093#32] ∧
    wordsOf "addi x1, x2, -2048" = some [0x80010093#32] ∧
    wordsOf "addi x1, x2, 2048" = some [0x80010093#32] ∧
    wordsOf "addi x1, x2, 4095" = some [0xFFF10093#32] ∧
    wordsOf "addi x1, x2, -2049" = some [0x7FF10093#32] ∧
    wordsOf "addi x0, x0, 0" = some [0x00000013#32] ∧
    wordsOf "sltiu a0, a1, -1" = some [0xFFF5B513#32] ∧
    wordsOf "xori a0, a0, 0x800" = some [0x80054513#32] ∧
    wordsOf "andi a0, a0, -0x1" = some [0xFFF57513#32] ∧
    wordsOf "ori a0, a0, 0b101" = some [0x00556513#32] ∧
    wordsOf "addi a0, a0, 007" = some [0x00750513#32] ∧
    wordsOf "addi a0, a0, +12" = some [0x00C50513#32] ∧
    wordsOf "slli x1, x2, 0" = some [0x00011093#32] := by decide

theorem test_i_type_texts_2 :
    wordsOf "slli x1, x2, 31" = some [0x01F11093#32] ∧
    wordsOf "slli x1, x2, 32" = some [0x00011093#32] ∧
    wordsOf "srli x1, x2, 33" = some [0x00115093#32] ∧
    wordsOf "srai x1, x2, -1" = some [0x41F15093#32] ∧
    wordsOf "srai x1, x2, 0x3f" = some [0x41F15093#32] ∧
    wordsOf "lb a0, 2047(a1)" = some [0x7FF58503#32] ∧
    wordsOf "lh a0, -2048(zero)" = some [0x80001503#32] ∧
    wordsOf "lw a0, 0x7ff(sp)" = some [0x7FF12503#32] ∧
    wordsOf "lbu t0, 4096(t1)" = some [0x00034283#32] ∧
    wordsOf "lhu t0, -1(t1)" = some [0xFFF35283#32] ∧
    wordsOf "jalr ra, ra, 0" = some [0x000080E7#32] ∧
    wordsOf "jalr x0, x1, -1" = some [0xFFF08067#32] ∧
    wordsOf "jalr zero, t0, 2048" = some [0x80028067#32] := by decide

theorem test_s_type_texts :
    wordsOf "sb a0, -1(sp)" = some [0xFEA10FA3#32] ∧
    wordsOf "sb zero, 0(zero)" = some [0x00000023#32] ∧
    wordsOf "sh t0, 2047(t1)" = some [0x7E531FA3#32] ∧
    wordsOf "sw x31, -2048(x31)" = some [0x81FFA023#32] ∧
    wordsOf "sw ra, 2048(sp)" = some [0x80112023#32] ∧
    wordsOf "sh a0, 4095(a1)" = some [0xFEA59FA3#32] := by decide

theorem test_b_type_texts :
    wordsOf "beq x0, x0, 0" = some [0x00000063#32] ∧
    wordsOf "beq x1, x2, 4094" = some [0x7E208FE3#32] ∧
    wordsOf "bne x1, x2, -4096" = some [0x80209063#32] ∧
    wordsOf "blt x1, x2, 4096" = some [0x8020C063#32] ∧
    wordsOf "bge x1, x2, 7" = some [0x0020D363#32] ∧
    wordsOf "bltu x1, x2, -1" = some [0xFE20EFE3#32] ∧
    wordsOf "bgeu x1, x2, -2" = some [0xFE20FFE3#32] ∧
    wordsOf "beq x1, x2, 2" = some [0x00208163#32] ∧
    wordsOf "bne x31, x31, 8190" = some [0xFFFF9FE3#32] := by decide

theorem test_u_type_texts :
    wordsOf "lui x1, 0" = some [0x000000B7#32] ∧
    wordsOf "lui x1, 0xfffff" = some [0xFFFFF0B7#32] ∧
    wordsOf "lui x1, 0x80000" = some [0x800000B7#32] ∧
    wordsOf "lui x1, 0x100000" = some [0x000000B7#32] ∧
    wordsOf "lui x1, -1" = some [0xFFFFF0B7#32] ∧
    wordsOf "lui x1, 0x12345000" = some [0x450000B7#32] ∧
    wordsOf "auipc x1, 1" = some [0x00001097#32] ∧
    wordsOf "auipc x0, 0x7ffff" = some [0x7FFFF017#32] := by decide

theorem test_j_type_texts :
    wordsOf "jal x0, 0" = some [0x0000006F#32] ∧
    wordsOf "jal ra, 1048574" = some [0x7FFFF0EF#32] ∧
    wordsOf "jal ra, -1048576" = some [0x800000EF#32] ∧
    wordsOf "jal ra, 1048576" = some [0x800000EF#32] ∧
    wordsOf "jal ra, 3" = some [0x002000EF#32] ∧
    wordsOf "jal ra, -2" = some [0xFFFFF0EF#32] ∧
    wordsOf "jal x1, 2046" = some [0x7FE000EF#32] ∧
    wordsOf "jal x1, 4096" = some [0x000010EF#32] := by decide

theorem test_error_texts_1 :
    errorOf "foo x1, x2, x3" = some (.unknownInstruction (some 1) "foo".toList) ∧
    errorOf "foo" = some (.unknownInstruction (some 1) "foo".toList) ∧
    errorOf "nop" = some (.unknownInstruction (some 1) "nop".toList) ∧
    errorOf ".text" = some (.unknownInstruction (some 1) ".text".toList) ∧
    errorOf "add x1, x2" = some (.malformedInput (some 1) "add x1, x2".toList) ∧
    errorOf "add x1, x2, x3, x4" = some (.malformedInput (some 1) "add x1, x2, x3, x4".toList) ∧
    errorOf "addi x1, x2" = some (.malformedInput (some 1) "addi x1, x2".toList) ∧
    errorOf "add x1, x2, x32" = some (.invalidRegister (some 1) "x32".toList) ∧
    errorOf "add X1, x2, x3" = some (.invalidRegister (some 1) "X1".toList) := by decide

theorem test_error_texts_2 :
    errorOf "add x1, fp, x3" = some (.invalidRegister (some 1) "fp".toList) ∧
    errorOf "add x1, s12, x3" = some (.invalidRegister (some 1) "s12".toList) ∧
    errorOf "beq x1, x2, nowhere" = some (.undefinedLabel (some 1) "nowhere".toList) ∧
    errorOf "lw x1, 8 (x2)" = some (.malformedInput (some 1) "lw x1, 8 (x2)".toList) ∧
    errorOf "lw x1, (x2)" = some (.malformedInput (some 1) "(x2)".toList) ∧
    errorOf "lw x1, 8(x2" = some (.malformedInput (some 1) "8(x2".toList) ∧
    errorOf "lw x1, 8(x99)" = some (.invalidRegister (some 1) "x99".toList) ∧
    errorOf "lw x1, x2" = some (.malformedInput (some 1) "x2".toList) ∧
    errorOf "sw x1, lbl(x2)" = some (.undefinedLabel (some 1) "lbl".toList) := by decide

theorem test_error_texts_3 :
    errorOf "add x1, x99, nowhere" = some (.invalidRegister (some 1) "x99".toList) ∧
    errorOf "beq x99, x1, nowhere" = some (.invalidRegister (some 1) "x99".toList) ∧
    errorOf "foo x99" = some (.unknownInstruction (some 1) "foo".toList) ∧
    errorOf "addi x1, x2, 1_000" = some (.undefinedLabel (some 1) "1_000".toList) ∧
    errorOf "addi x1, x2, 0x" = some (.undefinedLabel (some 1) "0x".toList) ∧
    errorOf "addi x1, x2, 12abc" = some (.undefinedLabel (some 1) "12abc".toList) ∧
    errorOf "jalr x1, 0(x2)" = some (.malformedInput (some 1) "jalr x1, 0(x2)".toList) ∧
    errorOf "lui x1" = some (.malformedInput (some 1) "lui x1".toList) := by decide

/-! ### Programs of 95_test_vectors.md section 7 -/

/-- P1 (section 7.1). -/
def programP1 : String :=
  "# P1: count down from 3\n        addi t0, zero, 3      # t0 = 3\nloop:   addi t0, t0, -1\n        bne  t0, zero, loop\n" ++
  "        jal  zero, done\n        addi t1, zero, 1\n\ndone:\n        add  t2, t0, t1\n"

theorem test_program_P1 :
    wordsOf programP1 = some [0x00300293#32, 0xFFF28293#32, 0xFE029EE3#32, 0x0080006F#32, 0x00100313#32, 0x006283B3#32]
    := by decide +kernel

/-- The same with carriage returns (D34). -/
theorem test_program_crlf :
    wordsOf "start:\r\n addi x1, x0, 1\r\n beq x0, x0, start\r\n" = some [0x00100093#32, 0xFE000EE3#32]
    := by decide

/-- P2 (section 7.2). -/
def programP2 : String :=
  "start:\n        addi x1, x0, 1\n        beq  x0, x0, start\nmid:    addi x2, x0, 2\n        beq  x0, x0, mid\n" ++
  "        jal  x0, start\n"

theorem test_program_P2 :
    wordsOf programP2 = some [0x00100093#32, 0xFE000EE3#32, 0x00200113#32, 0xFE000EE3#32, 0xFF1FF06F#32]
    := by decide +kernel

/-- P2 under the reference's setting of `LABEL_ONLY_LINE_ADVANCES_PC`. -/
theorem test_program_P2_reference :
    (match assemble { machineConfig with labelOnlyLineAdvancesPc := true } programP2.toList with
      | .ok ws => ws
      | .error _ => []) = [0x00100093#32, 0xFE000CE3#32, 0x00200113#32, 0xFE000EE3#32, 0xFEDFF06F#32]
    := by decide +kernel

theorem test_program_P3 :
    wordsOf "lui  a0, 0x12345\naddi a0, a0, 0x678\nsw   a0, 0(sp)\nsb   a0, 5(sp)\nsh   a0, 6(sp)"
      = some [0x12345537#32, 0x67850513#32, 0x00A12023#32, 0x00A102A3#32, 0x00A11323#32] := by decide

theorem test_programs_P4 :
    errorOf ("addi x1, x0, 1\nbeq  x1, x0, fwd\nbne  x1, x0, nowhere\nfwd:    add  x2, x1, x1\nfoo  x1, x2, x3")
      = some (.undefinedLabel (some 3) "nowhere".toList) ∧
    errorOf "addi x1, x0, 1\nfoo  x1, x2, x3\nbne  x1, x0, nowhere" = some (.unknownInstruction (some 2) "foo".toList) ∧
    errorOf "lw   x1, 8(x2)\nsw   x1, 8 (x2)" = some (.malformedInput (some 2) "sw   x1, 8 (x2)".toList)
    := by decide

theorem test_program_P5 :
    wordsOf ("beq  x1, x2, target\naddi x0, x0, 0\ntarget: add  x1, x2, x3\nbeq  x1, x2, target\nbeq  x1, x2, 8\n" ++
        "beq  x1, x2, -4")
      = some [0x00208463#32, 0x00000013#32, 0x003100B3#32, 0xFE208EE3#32, 0x00208463#32, 0xFE208EE3#32]
    := by decide

theorem test_programs_P6 :
    errorOf "a: b: add x1, x2, x3" = some (.unknownInstruction (some 1) "b:".toList) ∧
    wordsOf "L: addi x1, x0, 1\nL: addi x2, x0, 2\n   jal x0, L\n   lw a0, L(sp)\n   lui a1, L"
      = some [0x00100093#32, 0x00200113#32, 0xFFDFF06F#32, 0xFF812503#32, 0xFFFF45B7#32] := by decide

/-- `U_OPERAND_FORM = FULL32` (R8, D7): the operand is the full word, and its bits 31..12 are stored. -/
theorem test_full_word_operand : encodeU .full32 0x37 5 0x12345678 = 0x123452B7#32 := by decide

/-! ### Memory: W2 to W4, W11 to W13 and 95_test_vectors.md section 5 -/

theorem test_new :
    slots [] (.memNew 10 []) = [[0#32, 0#32, 0#32]] ∧ answers [] (.memNew 10 []) = some (.created 0) ∧
    slots [] (.memNew 8 [1, 2]) = [[1#32, 2#32]] ∧ slots [] (.memNew 9 [1, 2, 3]) = [[1#32, 2#32, 3#32]] ∧
    answers [] (.memNew 8 [1, 2, 3]) = some (.error (.tooManyWords 3 2)) ∧ slots [] (.memNew 8 [1, 2, 3]) = [] ∧
    slots [] (.memNew 0 []) = [[]] ∧ answers [] (.memNew (-1) []) = some (.rejected (.negativeCapacity (-1))) := by decide

theorem test_new_from_string :
    answers [] (.memNewFromString 8 "1 2 x".toList) = some (.error (.malformedInput none "x".toList)) ∧
    answers [] (.memNewFromString 8 "1 2 3".toList) = some (.error (.tooManyWords 3 2)) ∧
    answers [] (.memNewFromString 8 "1 2 3 x".toList) = some (.error (.malformedInput none "x".toList)) ∧
    slots [] (.memNewFromString 12 "  -1\t4294967296 +7 ".toList) = [[0xFFFFFFFF#32, 0#32, 7#32]] ∧
    slots [] (.memNewFromString 8 "".toList) = [[0#32, 0#32]] := by decide

theorem test_read :
    answers [mem3] (.memRead 0 8) = some (.rdata 0#32) ∧ answers [mem3] (.memRead 0 12) = some (.error (.outOfBounds 12)) ∧
    answers [mem3] (.memRead 0 5) = some (.error (.unaligned 5)) ∧
    answers [mem3] (.memRead 0 (-4)) = some (.error (.outOfBounds (-4))) ∧
    answers [mem3] (.memRead 0 (-1)) = some (.error (.unaligned (-1))) ∧
    answers [mem2] (.memRead 0 4294967296) = some (.error (.outOfBounds 4294967296)) ∧
    answers [⟨0, []⟩] (.memRead 0 0) = some (.error (.outOfBounds 0)) ∧
    answers [⟨0, []⟩] (.memRead 0 2) = some (.error (.unaligned 2)) ∧
    answers [mem2] (.memRead 0 0) = some (.rdata 0x11223344#32) := by decide

theorem test_write :
    slots [⟨1, []⟩] (.memWrite 0 0 (-1) 0b0011#4) = [[0x0000FFFF#32]] ∧
    slots [⟨1, []⟩] (.memWrite 0 0 0x123456789 0b1111#4) = [[0x23456789#32]] ∧
    slots [mem2] (.memWrite 0 0 0xAABBCCDD 0b0101#4) = [[0x11BB33DD#32, 0#32]] ∧
    slots [mem2] (.memWrite 0 0 0xAABBCCDD 0b1001#4) = [[0xAA2233DD#32, 0#32]] ∧
    answers [mem2] (.memWrite 0 1 0 0b0000#4) = some (.error (.unaligned 1)) ∧
    answers [mem2] (.memWrite 0 8 0 0b0000#4) = some (.error (.outOfBounds 8)) ∧
    answers [mem2] (.memWrite 0 5 0 0b1111#4) = some (.error (.unaligned 5)) ∧
    slots [mem2] (.memWrite 0 5 0 0b1111#4) = [[0x11223344#32, 0#32]] ∧
    slots [mem2] (.memReset 0) = [[0#32, 0#32]] := by decide

theorem test_source_mask_examples :
    slots [⟨1, [(0, 255#8), (1, 255#8), (2, 255#8), (3, 255#8)]⟩]
      (.memWrite 0 0 0xAB000000 (byteEnableOfFlags true false false false)) = [[0xABFFFFFF#32]] ∧
    slots [⟨1, [(0, 255#8), (1, 255#8), (2, 255#8), (3, 255#8)]⟩]
      (.memWrite 0 0 0xAB000000 (byteEnableOfFlags false false false false)) = [[0xFFFFFFFF#32]] := by decide

theorem test_store_recipes :
    slots [⟨2, []⟩] (.storeByte 0 0 0x1AB) = [[0x000000AB#32, 0#32]] ∧
    slots [⟨2, [(0, 0xAB#8)]⟩] (.storeByte 0 3 0xCD) = [[0xCD0000AB#32, 0#32]] ∧
    slots [⟨2, []⟩] (.storeHalf 0 6 0xBEEF) = [[0#32, 0xBEEF0000#32]] ∧
    slots [⟨2, [(6, 0xEF#8), (7, 0xBE#8)]⟩] (.storeHalf 0 4 (-2)) = [[0#32, 0xBEEFFFFE#32]] ∧
    answers [⟨2, []⟩] (.storeHalf 0 5 1) = some (.rejected (.oddHalfword 5)) ∧
    slots [⟨2, [(4, 0xFE#8), (5, 0xFF#8), (6, 0xEF#8), (7, 0xBE#8)]⟩] (.storeByte 0 5 0) = [[0#32, 0xBEEF00FE#32]] ∧
    slots [⟨2, []⟩] (.storeWord 0 4 0x12345678) = [[0#32, 0x12345678#32]] := by decide

/-- The model's order (log 27): an odd halfword store is refused even where its instance does not exist, an even one
stops. -/
theorem test_odd_halfword_before_instance :
    answers [] (.storeHalf 0 1 0) = some (.rejected (.oddHalfword 1)) ∧
    stopsOn 0 (step (asking [] (.storeHalf 0 2 0))) = true := by decide

theorem test_no_instance_stops :
    stopsOn 0 (step (asking [] (.memRead 0 0))) = true ∧ stopsOn 1 (step (asking [mem2] (.memWrite 1 0 0 0#4))) = true ∧
    stopsOn 1 (step (asking [mem2] (.memReset 1))) = true := by decide

/-! ### The tables and the dispatch stage -/

theorem test_tables :
    answers [] (.formatOf 0x0F#7) = some (.format .NONE) ∧ answers [] (.formatOf 0x6F#7) = some (.format .J) ∧
    answers [] (.mnemonicOf 0x13#7 1#3 0x20#7) = some (.mnemonic .unknown) ∧
    answers [] (.registerIndexOf "x07".toList) = some (.registerIndex 7) ∧
    answers [] (.registerIndexOf "t6".toList) = some (.registerIndex 31) ∧
    answers [] (.registerIndexOf "fp".toList) = some (.error (.invalidRegister none "fp".toList)) ∧
    answers [] (.select "lui".toList) = some (.row ⟨.lui, .U, 0x37#7, none, none⟩) ∧
    answers [] (.select "LUI".toList) = some (.error (.unknownInstruction none "LUI".toList)) := by decide

theorem test_packers :
    answers [] (.encodeR 0x33 1 0 2 3 0) = some (.encoded 0x003100B3#32) ∧
    answers [] (.encodeI 0x13 1 0 2 (-5)) = some (.encoded 0xFFB10093#32) ∧
    answers [] (.encodeS 0x23 2 2 1 2047) = some (.encoded 0x7E112FA3#32) ∧
    answers [] (.encodeB 0x63 1 5 0 (-4)) = some (.encoded 0xFE029EE3#32) ∧
    answers [] (.encodeU 0x37 5 0x12345) = some (.encoded 0x123452B7#32) ∧
    answers [] (.encodeJ 0x6F 1 2048) = some (.encoded 0x001000EF#32) ∧
    answers [] (.encode "srai".toList { rd := 1, rs1 := 2, shamt := 33 }) = some (.encoded 0x40115093#32) := by
  decide

/-! ### Witnesses: a concrete case that meets the hypotheses of each statement that has some, and of each clause -/

theorem test_witness_StepOnAnyWordAnswersItsRecord :
    (asking [mem2] (.decode 0xFFFFFFFF#32)).pending = .decode 0xFFFFFFFF#32 :: [] ∧
    answers [mem2] (.decode 0xFFFFFFFF#32) = some (.decoded (record 0xFFFFFFFF#32)) := by decide

theorem test_witness_DecodeOfEncodeIsTheInstruction :
    (Instr.beq 31 0 0x1000).wellFormed = true ∧ (Instr.jal 0 0xFFFFE).wellFormed = true := by decide

theorem test_witness_EncodeOfDecodeIsTheWord : decode 0x80000063#32 = .ok (.beq 0 0 0x1000) := by decide

/-- A word for each case of R83: no format; a format and no row; a row. -/
theorem test_witness_WordsOfNoRowDecodeAsUnknown :
    (record 0x00000001#32).opcode ∉ [0x03#7, 0x13#7, 0x17#7, 0x23#7, 0x33#7, 0x37#7, 0x63#7, 0x67#7, 0x6F#7] ∧
    ((record 0x00002063#32).opcode ∈ [0x03#7, 0x13#7, 0x17#7, 0x23#7, 0x33#7, 0x37#7, 0x63#7, 0x67#7, 0x6F#7] ∧
      ∀ row ∈ isaTable, row.hits (record 0x00002063#32).opcode (record 0x00002063#32).funct3
        (record 0x00002063#32).funct7 = false) ∧
    ((⟨.sra, .R, 0x33#7, some 5#3, some 0x20#7⟩ : TableRow) ∈ isaTable ∧
      (⟨.sra, .R, 0x33#7, some 5#3, some 0x20#7⟩ : TableRow).hits (record 0x40C5D533#32).opcode
        (record 0x40C5D533#32).funct3 (record 0x40C5D533#32).funct7 = true) := by decide

/-- An opcode of each format. -/
theorem test_witness_WordsOfNoRow_formats :
    (record 0x40C5D533#32).opcode = 0x33#7 ∧ (record 0x00001067#32).opcode ∈ [0x13#7, 0x03#7, 0x67#7] ∧
    (record 0x00003023#32).opcode = 0x23#7 ∧ (record 0x00002063#32).opcode = 0x63#7 ∧
    (record 0x123452B7#32).opcode ∈ [0x37#7, 0x17#7] ∧ (record 0x001000EF#32).opcode = 0x6F#7 := by decide

/-- One word for each clause of R84 and R85. -/
theorem test_witness_ExcludedEncodingsDecodeAsUnknown :
    (record 0x00000000#32).opcode.extractLsb' 0 2 ≠ 3#2 ∧ (record 0x0000000F#32).opcode = 0x0F#7 ∧
    (record 0x00100073#32).opcode = 0x73#7 ∧
    (record 0x0000007B#32).opcode ∉ [0x03#7, 0x13#7, 0x17#7, 0x23#7, 0x33#7, 0x37#7, 0x63#7, 0x67#7, 0x6F#7] ∧
    ((record 0x02000033#32).opcode = 0x33#7 ∧ (record 0x02000033#32).funct7 = 1#7) ∧
    ((record 0x40001013#32).opcode = 0x13#7 ∧ (record 0x40001013#32).funct3 = 1#3 ∧
      (record 0x40001013#32).funct7 ≠ 0#7) ∧
    ((record 0xFE005013#32).opcode = 0x13#7 ∧ (record 0xFE005013#32).funct3 = 5#3 ∧
      (record 0xFE005013#32).funct7 ≠ 0#7 ∧ (record 0xFE005013#32).funct7 ≠ 0x20#7) ∧
    ((record 0x00007003#32).opcode = 0x03#7 ∧ (record 0x00007003#32).funct3 ∈ [3#3, 6#3, 7#3]) ∧
    ((record 0x00001067#32).opcode = 0x67#7 ∧ (record 0x00001067#32).funct3 ≠ 0#3) ∧
    ((record 0x00003023#32).opcode = 0x23#7 ∧ (record 0x00003023#32).funct3 ∉ [0#3, 1#3, 2#3]) ∧
    ((record 0x00002063#32).opcode = 0x63#7 ∧ (record 0x00002063#32).funct3 ∈ [2#3, 3#3]) ∧
    ((record 0x00000013#32).opcode = 0x13#7 ∧ (record 0x00000013#32).funct3 = 0#3) ∧
    ((record 0x00000013#32).opcode = (record 0x00108093#32).opcode ∧
      (record 0x00000013#32).funct3 = (record 0x00108093#32).funct3 ∧
      (record 0x00000013#32).funct7 = (record 0x00108093#32).funct7) := by decide

theorem test_witness_MnemonicTableKeepsItsThreeProperties :
    (⟨.srai, .I, 0x13#7, some 5#3, some 0x20#7⟩ : TableRow) ∈ isaTable ∧
    (⟨.srai, .I, 0x13#7, some 5#3, some 0x20#7⟩ : TableRow).hits 0x13#7 5#3 0x20#7 = true := by decide

theorem test_witness_PackersDropWhatTheirFormatDoesNotHold :
    (0x33 : Int) % 128 = 0xB3 % 128 ∧ (-1 : Int) % 32 = 31 % 32 ∧ (8 : Int) % 8 = 0 % 8 ∧
    (4095 : Int) % 4096 = (-1) % 4096 ∧ (7 : Int) / 2 % 4096 = 6 / 2 % 4096 ∧
    (1048576 : Int) % 1048576 = 0 % 1048576 ∧ (-1 : Int) / 2 % 1048576 = (-2) / 2 % 1048576 ∧
    ((4095 : Int) % 2 = 1 ∧ (-4096 : Int) ≤ 4095 ∧ (-4095 : Int) % 2 = 1) ∧
    ((1048575 : Int) % 2 = 1 ∧ (-1048576 : Int) ≤ 1048575 ∧ (-1048575 : Int) % 2 = 1) := by decide

theorem test_witness_DispatchGivesTheWordOrUnknownInstruction :
    (Instr.bge 10 11 0x1000).wellFormed = true ∧
    (asking [] (.encode (operandsOf (.bge 10 11 0x1000)).1.name (operandsOf (.bge 10 11 0x1000)).2)).pending
      = .encode (operandsOf (.bge 10 11 0x1000)).1.name (operandsOf (.bge 10 11 0x1000)).2 :: [] ∧
    (∀ row ∈ isaTable, row.mnemonic.name ≠ "foo".toList) ∧
    instrOf .srai { rd := 33, rs1 := 2, shamt := -1 } = some (.srai 1 2 31) ∧
    instrOf .bge { rs1 := 1, rs2 := 2, imm := 7 } = some (.bge 1 2 6) ∧
    instrOf .jal { rd := 1, imm := 1048576 } = some (.jal 1 0x100000) ∧
    instrOf .addi { rd := 1, rs1 := 2, imm := 2048 } = some (.addi 1 2 0x800) := by decide

theorem test_witness_EveryInstructionLeavesEveryByteOfMemory :
    (asking [mem2] (.memReset 0)).instances[0]? = some mem2 := by decide

theorem test_witness_StepRunsTheDecodedInstruction :
    (asking [mem2] (.decode 0x00208463#32)).pending = .decode 0x00208463#32 :: [] ∧
    decode 0x00208463#32 = .ok (.beq 1 2 8) := by decide

theorem test_witness_WithFetchWordRunsTheWordNext :
    decodeTableWord 32 0x001000EF = some (.jal 1 2048) ∧
    answerOf (step ((asking [mem2] (.memReset 0)).withFetchWord 32 0x001000EF))
      = some (.decoded (record 0x001000EF#32)) := by decide

theorem test_witness_EachStepServesExactlyTheOldestOperation :
    ∃ t : State, (⟨[mem2], [.memRead 0 0, .memReset 0], none⟩ : State).pending = .memRead 0 0 :: [.memReset 0] ∧
      step ⟨[mem2], [.memRead 0 0, .memReset 0], none⟩ = .next t ∧ t.pending = [.memReset 0] := ⟨_, rfl, rfl, rfl⟩

theorem test_witness_StepCompletesOnEveryAdmittedOperation :
    ∀ r rest, (asking [mem2] (.memRead 0 1)).pending = r :: rest → (asking [mem2] (.memRead 0 1)).admits r := by
  intro r rest h k hk
  cases h
  cases hk
  decide

theorem test_witness_AnswersOfThePureBlocksIgnoreTheState :
    (asking [] (.assemble "nop".toList)).pending = .assemble "nop".toList :: [] ∧
    (⟨[mem2], [.assemble "nop".toList, .memReset 0], none⟩ : State).pending = .assemble "nop".toList :: [.memReset 0] ∧
    (Request.assemble "nop".toList).target = none ∧ (∀ c ws, Request.assemble "nop".toList ≠ .memNew c ws) ∧
    (∀ c text, Request.assemble "nop".toList ≠ .memNewFromString c text) := by
  refine ⟨rfl, rfl, rfl, ?_, ?_⟩ <;> intro _ _ h <;> cases h

/-- The three clauses of a read: misaligned on each side of the range, out of bounds at each end, and the first and
last slot. -/
theorem test_witness_ReadAnswersTheSlotOrItsFirstFailingCheck :
    (asking [mem2] (.memRead 0 4)).pending = .memRead 0 4 :: [] ∧ [mem2][0]? = some mem2 ∧
    ((-1 : Int) % 4 ≠ 0 ∧ (9 : Int) % 4 ≠ 0) ∧
    ((8 : Int) % 4 = 0 ∧ 4 * (mem2.slotCount : Int) ≤ 8 ∧ (-4 : Int) % 4 = 0 ∧ (-4 : Int) < 0) ∧
    ((0 : Int) % 4 = 0 ∧ (4 : Int) % 4 = 0 ∧ (4 : Int) < 4 * (mem2.slotCount : Int)) ∧
    answers [mem2] (.memRead 0 4) = some (.rdata 0#32) := by decide

theorem test_witness_WriteMergesTheEnabledLanesIntoItsSlot :
    (asking [mem2] (.memWrite 0 4 (-1) 0b1010#4)).pending = .memWrite 0 4 (-1) 0b1010#4 :: [] ∧
    [mem2][0]? = some mem2 ∧ mem2.wf ∧ (4 : Int) % 4 = 0 ∧ (4 : Int) < 4 * (mem2.slotCount : Int) ∧
    slots [mem2] (.memWrite 0 4 (-1) 0b1010#4) = [[0x11223344#32, 0xFF00FF00#32]] ∧
    ((7 : Int) % 4 ≠ 0 ∧ (8 : Int) % 4 = 0 ∧ 4 * (mem2.slotCount : Int) ≤ 8) := by decide

theorem test_witness_WriteLeavesEveryByteOutsideItsEnabledLanes :
    ∃ (t : State) (m' : Memory), (asking [mem2] (.memWrite 0 0 0 0b0001#4)).pending = .memWrite 0 0 0 0b0001#4 :: [] ∧
      mem2.wf ∧ step (asking [mem2] (.memWrite 0 0 0 0b0001#4)) = .next t ∧ t.instances[0]? = some m' ∧
      ¬((0 : Int) ≤ ((1 : Nat) : Int) ∧ ((1 : Nat) : Int) < 0 + 4 ∧ (0b0001#4).getLsbD (1 % 4) = true) ∧
      m'.byteAt 0 = 0#8 ∧ m'.byteAt 1 = 0x33#8 :=
  ⟨_, _, rfl, by decide, rfl, rfl, by decide, by decide, by decide⟩

theorem test_witness_MaskFlagsAreMostSignificantFirst :
    mem2.wf ∧ 1 < mem2.slotCount ∧ (byteEnableOfFlags true false false false) = 0b1000#4 ∧
    slots [mem2] (.memWrite 0 0 0xAB000000 (byteEnableOfFlags true false false false)) = [[0xAB223344#32, 0#32]] ∧
    slots [mem2] (.memWrite 0 0 0xAB (byteEnableOfFlags false false false true)) = [[0x112233AB#32, 0#32]] := by decide

theorem test_witness_AllFalseMaskWritesNothing :
    (asking [mem2] (.memWrite 0 4 7 0#4)).pending = .memWrite 0 4 7 0#4 :: [] ∧ [mem2][0]? = some mem2 ∧
    (4 : Int) < 4 * (mem2.slotCount : Int) ∧ slots [mem2] (.memWrite 0 4 7 0#4) = [[0x11223344#32, 0#32]] ∧
    answers [mem2] (.memWrite 0 (-1) 7 0#4) = some (.error (.unaligned (-1))) ∧
    answers [mem2] (.memWrite 0 8 7 0#4) = some (.error (.outOfBounds 8)) := by decide

theorem test_witness_ReadAfterWriteAnswersTheLastWrite :
    (⟨[mem2], [.memWrite 0 (4 * ((1 : Nat) : Int)) (-1) 0b1111#4, .memRead 0 (4 * ((0 : Nat) : Int))], none⟩ : State).pending
      = .memWrite 0 (4 * ((1 : Nat) : Int)) (-1) 0b1111#4 :: .memRead 0 (4 * ((0 : Nat) : Int)) :: [] ∧
    [mem2][0]? = some mem2 ∧ mem2.wf ∧ 1 < mem2.slotCount ∧ 0 < mem2.slotCount := by decide

theorem test_witness_RepeatingAWriteIsTheSameAsDoingItOnce :
    mem2.wf ∧ ∃ m', mem2.write 4 5 0b0011#4 = .ok m' := ⟨by decide, _, rfl⟩

theorem test_witness_ResetZeroesEverySlotOfItsInstance :
    (asking [mem3, mem2] (.memReset 1)).pending = .memReset 1 :: [] ∧ [mem3, mem2][1]? = some mem2 ∧
    answers [mem3, mem2] (.memReset 1) = some .done := by decide

/-- As many words as slots, one more, and a capacity that is no multiple of 4. -/
theorem test_witness_NewLoadsTheInitialWordsOrMakesNoInstance :
    (asking [] (.memNew 5 [1, -1])).pending = .memNew 5 [1, -1] :: [] ∧ (0 : Int) ≤ 5 ∧
    slots [] (.memNew 5 [1, -1]) = [[1#32, 0xFFFFFFFF#32]] ∧
    answers [] (.memNew 4 [1, -1]) = some (.error (.tooManyWords 2 1)) ∧
    answers [] (.memNew (-1) []) = some (.rejected (.negativeCapacity (-1))) := by decide

/-- A string for each clause. -/
theorem test_witness_NewFromStringParsesBeforeItCounts :
    (asking [] (.memNewFromString 0 "1 x 2".toList)).pending = .memNewFromString 0 "1 x 2".toList :: [] ∧
    splitSpaces "1 x 2".toList = ["1".toList] ++ "x".toList :: ["2".toList] ∧
    (∀ t ∈ ["1".toList], (decimalInteger t).isSome = true) ∧ decimalInteger "x".toList = none ∧
    (splitSpaces "1 -2".toList).map decimalInteger = [1, -2].map some ∧
    answers [] (.memNewFromString (-1) "x".toList) = some (.rejected (.negativeCapacity (-1))) := by decide

/-- An address for each clause: the last byte, the last halfword, an odd address, the last word. -/
theorem test_witness_SubWordStoresWriteTheirBytesLittleEndian :
    [mem2][0]? = some mem2 ∧ mem2.wf ∧ (7 : Int) < 4 * (mem2.slotCount : Int) ∧
    (asking [mem2] (.storeByte 0 7 1)).pending = .storeByte 0 7 1 :: [] ∧
    ((asking [mem2] (.storeHalf 0 6 1)).pending = .storeHalf 0 6 1 :: [] ∧ (6 : Int) % 2 = 0) ∧
    ((asking [mem2] (.storeHalf 0 7 1)).pending = .storeHalf 0 7 1 :: [] ∧ (7 : Int) % 2 ≠ 0) ∧
    ((asking [mem2] (.storeWord 0 4 1)).pending = .storeWord 0 4 1 :: [] ∧ (4 : Int) % 4 = 0) ∧
    slots [mem2] (.storeByte 0 7 1) = [[0x11223344#32, 0x01000000#32]] ∧
    answers [mem2] (.storeByte 0 (-1) 1) = some (.error (.outOfBounds (-4))) ∧
    answers [mem2] (.storeHalf 0 10 1) = some (.error (.outOfBounds 8)) ∧
    answers [mem2] (.storeWord 0 7 1) = some (.error (.unaligned 7)) ∧
    answers [mem2] (.storeWord 0 8 1) = some (.error (.outOfBounds 8)) := by decide

theorem test_witness_StepKeepsEveryInstanceCanonical :
    (asking [mem2] (.memWrite 0 0 0 0b1111#4)).Inv ∧
    ∃ t : State, step (asking [mem2] (.memWrite 0 0 0 0b1111#4)) = .next t ∧ t.instances = [⟨2, []⟩] := by
  refine ⟨?_, _, rfl, by decide⟩
  intro m hm
  simp only [asking, List.mem_singleton] at hm
  subst hm
  decide

theorem test_witness_SlotCountsNeverChange :
    (∃ t : State, step (asking [mem3, mem2] (.memReset 1)) = .next t) ∧ [mem3, mem2][1]? = some mem2 :=
  ⟨⟨_, rfl⟩, rfl⟩

theorem test_witness_AnOperationTouchesOnlyTheInstanceItNames :
    ∃ t : State, (asking [mem3, mem2] (.memReset 1)).pending = .memReset 1 :: [] ∧
      step (asking [mem3, mem2] (.memReset 1)) = .next t ∧ 0 < [mem3, mem2].length ∧
      (Request.memReset 1).target ≠ some 0 := ⟨_, rfl, rfl, by decide, by decide⟩

/-- An error, and a refused call. -/
theorem test_witness_FailedOperationsChangeNoState :
    answers [mem2] (.memWrite 0 3 0 0b1111#4) = some (.error (.unaligned 3)) ∧
    answers [mem2] (.storeHalf 0 1 0) = some (.rejected (.oddHalfword 1)) := by decide

/-- An error of each operation that raises one. -/
theorem test_witness_EachOperationRaisesOnlyItsErrorKinds :
    answers [] (.encode "foo".toList {}) = some (.error (.unknownInstruction none "foo".toList)) ∧
    answers [] (.select "foo".toList) = some (.error (.unknownInstruction none "foo".toList)) ∧
    answers [] (.registerIndexOf "x32".toList) = some (.error (.invalidRegister none "x32".toList)) ∧
    answers [] (.assemble "lui x1".toList) = some (.error (.malformedInput (some 1) "lui x1".toList)) ∧
    answers [] (.memNew 0 [1]) = some (.error (.tooManyWords 1 0)) ∧
    answers [] (.memNewFromString 0 "x".toList) = some (.error (.malformedInput none "x".toList)) ∧
    answers [mem2] (.memRead 0 8) = some (.error (.outOfBounds 8)) ∧
    answers [mem2] (.memWrite 0 2 0 0#4) = some (.error (.unaligned 2)) ∧
    answers [mem2] (.storeByte 0 8 0) = some (.error (.outOfBounds 8)) ∧
    answers [mem2] (.storeHalf 0 (-2) 0) = some (.error (.outOfBounds (-4))) ∧
    answers [mem2] (.storeWord 0 6 0) = some (.error (.unaligned 6)) := by decide

theorem test_witness_RegisterNamesAreTheAbiNamesAndXForms :
    registerIndexOf machineConfig none "x31".toList = .ok 31 ∧ registerIndexOf machineConfig none "zero".toList = .ok 0 ∧
    (∀ n, registerIndexOf machineConfig none "x32".toList ≠ .ok n) := by
  refine ⟨by decide, by decide +kernel, fun n h => ?_⟩
  have hx : registerIndexOf machineConfig none "x32".toList = .error (.invalidRegister none "x32".toList) := by
    decide
  rw [hx] at h
  cases h

/-- A token for each clause. -/
theorem test_witness_ImmediatesAreLiteralsThenRelativeLabels :
    literal "-0x1".toList = some (-1) ∧ literal "12abc".toList = none ∧
    labelOffset [("12abc".toList, 8)] "12abc".toList = some 8 ∧ labelOffset [] "12abc".toList = none := by decide

/-- A token for each clause: both parts good, a bad offset, a bad register, and shapes that are none. -/
theorem test_witness_MemoryOperandsAreOffsetAndRegister :
    resolveImm 1 0 [] "8".toList = .ok 8 ∧ registerIndexOf machineConfig (some 1) "x2".toList = .ok 2 ∧ '(' ∉ "8".toList ∧
    "8(x2)".toList = "8".toList ++ '(' :: ("x2".toList ++ [')']) ∧
    resolveImm 1 0 [] "L".toList = .error (.undefinedLabel (some 1) "L".toList) ∧
    registerIndexOf machineConfig (some 1) "x99".toList = .error (.invalidRegister (some 1) "x99".toList) ∧
    memoryOperand machineConfig 1 0 [] "(x2)".toList = .error (.malformedInput (some 1) "(x2)".toList) ∧
    memoryOperand machineConfig 1 0 [] "8(x2".toList = .error (.malformedInput (some 1) "8(x2".toList) := by decide

/-- A token without an opening parenthesis is of no such form. -/
theorem test_witness_MemoryOperands_malformed :
    ∀ off reg : Text, off ≠ [] → '(' ∉ off → "x2".toList ≠ off ++ '(' :: (reg ++ [')']) := by
  intro off reg _ _ h
  have hm : '(' ∈ "x2".toList := h ▸ (by simp)
  revert hm
  decide

theorem test_line_classes :
    classify "foo : add x1, x2, x3".toList = .plain "foo : add x1, x2, x3".toList ∧
    errorOf "foo : add x1, x2, x3" = some (.unknownInstruction (some 1) "foo".toList) ∧
    classify " L:  add x1, x2, x3 # c".toList = .labelled "L".toList "add x1, x2, x3".toList ∧
    classify "L: # c".toList = .labelOnly "L".toList ∧ classify " # L: nop".toList = .blank ∧
    classify "a,b: nop".toList = .plain "a,b: nop".toList ∧ classify ": nop".toList = .plain ": nop".toList := by decide

/-- A case for each clause: a line feed, white space, a name, a gap and a text, and two lines without a label. -/
theorem test_witness_LinesAreBlankLabelledOrInstructions :
    '\n' ∉ "nop".toList ∧ isSpace '\t' = true ∧ LabelName "L".toList ∧ (∀ c ∈ "  ".toList, isSpace c = true) ∧
    (Trimmed "nop".toList ∧ '#' ∉ "nop".toList) ∧
    (∀ name rest, "nop".toList = name ++ ':' :: rest → ':' ∉ name → name = [] ∨ ∃ c ∈ name, OutOfName c) := by
  refine ⟨by decide, by decide, ⟨by decide, ?_⟩, by simp [isSpace], ⟨⟨by decide, ?_, ?_⟩, by decide⟩, ?_⟩
  · intro c hc
    obtain rfl : c = 'L' := by simpa using hc
    refine ⟨?_, by decide, by decide⟩
    rintro (h | h | h | h) <;> revert h <;> decide
  · intro c hc
    obtain rfl : 'n' = c := by simpa using hc
    decide
  · intro c hc
    obtain rfl : 'p' = c := by simpa using hc
    decide
  · intro name rest h
    have hm : ':' ∈ "nop".toList := h ▸ (by simp)
    exact absurd hm (by decide)

/-- A case for each clause, the last the same line in two spellings. -/
theorem test_witness_TokensAreSeparatedByWhiteSpaceAndCommas :
    isSpace ' ' = true ∧ ('!' ≤ 'x' ∧ 'x' ≤ '~') ∧ "x1".toList.all (fun c => !isSpace c && c != ',') = true ∧
    ¬('A' ≤ 'x' ∧ 'x' ≤ 'Z') ∧ tokensOf "LUI x1,0".toList = ["LUI".toList, "x1".toList, "0".toList] ∧
    tokensOf "lui x1 0".toList = ["lui".toList, "x1".toList, "0".toList] ∧
    "LUI".toList.map lowerAscii = "lui".toList.map lowerAscii ∧
    encodeLine machineConfig 1 0 [] "LUI x1,0".toList = .ok 0x000000B7#32 := by decide

/-- Literals of each form, and tokens that are none (R173; 95_test_vectors.md sections 2 and 4). -/
theorem test_literals :
    literal "-0X7fF".toList = some (-2047) ∧ literal "+0x10".toList = some 16 ∧ literal "-0O17".toList = some (-15) ∧
    literal "0B101".toList = some 5 ∧ literal "007".toList = some 7 ∧ literal "1_000".toList = none ∧
    literal "0x".toList = none ∧ literal "12abc".toList = none ∧ literal "0o8".toList = none ∧ literal "".toList = none ∧
    decimalInteger "+7".toList = some 7 ∧ decimalInteger "0x7".toList = none ∧ decimalInteger "-".toList = none := by decide

theorem test_witness_ALabelNamesTheOffsetOfTheNextInstruction :
    (LineClass.labelOnly "L".toList).label = some "L".toList ∧
    (∀ l ∈ [LineClass.labelled "M".toList "lui x1, 0".toList], l.label ≠ some "L".toList) := by decide

theorem test_witness_AssembleGivesOneWordPerInstructionLine :
    assemble machineConfig "L:\nlui x1, 0\nbeq x0, x0, L".toList = .ok [0x000000B7#32, 0xFE000EE3#32] ∧
    (instructionLines 1 (linesOf "L:\nlui x1, 0\nbeq x0, x0, L".toList))[1]? = some (3, "beq x0, x0, L".toList) := by
  decide

theorem test_witness_AssembleReportsTheFirstFailingLine :
    assemble machineConfig "lui x1, 0\nnop\nfoo".toList = .error (.unknownInstruction (some 2) "nop".toList) ∧
    (instructionLines 1 (linesOf "lui x1, 0\nnop\nfoo".toList))[0]? = some (1, "lui x1, 0".toList) := by decide

/-- A text for each clause. -/
theorem test_witness_MnemonicThenOperandCountAreCheckedFirst :
    tokensOf "nop x99".toList = "nop".toList :: ["x99".toList] ∧
    (∀ row ∈ isaTable, row.mnemonic.name ≠ "nop".toList.map lowerAscii) ∧
    tokensOf "LUI x99".toList = "LUI".toList :: ["x99".toList] ∧
    (⟨.lui, .U, 0x37#7, none, none⟩ : TableRow) ∈ isaTable ∧ Mnemonic.lui.name = "LUI".toList.map lowerAscii ∧
    ["x99".toList].length ≠ arity .lui := by decide

theorem test_witness_EqualDistancesEncodeAlike :
    ∀ name, (labelOffset [("L".toList, 8)] name).map (fun a => (a : Int) - ((0 : Nat) : Int))
      = (labelOffset [("L".toList, 12)] name).map (fun a => (a : Int) - ((4 : Nat) : Int)) := by
  intro name
  simp only [labelOffset]
  split <;> rfl

theorem test_witness_TextOfEveryInstructionAssemblesToItsWord :
    (Instr.sw 31 1 0x800).wellFormed = true ∧
    assemblyText (operandsOf (.sw 31 1 0x800)).1 (operandsOf (.sw 31 1 0x800)).2 = "sw x1, -2048(x31)".toList := by
  decide

end Sys2Proof.Tests
end

section
/-! The state across a step: what serving one operation keeps of the memory instances, and which operations answer
without looking at the state. Settles O42, O25, O30, O44 and O45. -/

namespace Sys2Proof.Machine

/-! ### What a step leaves of the instances -/

/-- The pending operations play no part in what may become of the instances. -/
theorem InstancesAfter.of_withPending {s t : State} {rest : List Request}
    (h : InstancesAfter { s with pending := rest } t) : InstancesAfter s t := by
  cases h with
  | same h => exact .same h
  | replaced k m m' hk hw hc hr h => exact .replaced k m m' hk hw hc hr h
  | added m hw hr h => exact .added m hw hr h

theorem step_instances {s t : State} (h : step s = .next t) : InstancesAfter s t := by
  rcases step_cases s with ⟨-, hs⟩ | ⟨r, rest, -, hs⟩
  · rw [hs] at h; cases h; exact .same rfl
  · rw [hs] at h; exact (serve_instances h).of_withPending

theorem InstancesAfter.inv {s t : State} (h : InstancesAfter s t) (hs : s.Inv) : t.Inv := by
  intro n hn
  cases h with
  | same h => rw [h] at hn; exact hs n hn
  | replaced k m m' hk hw _ _ h =>
    rw [h] at hn
    rcases List.mem_or_eq_of_mem_set hn with hn | rfl
    · exact hs n hn
    · exact hw (hs m (List.mem_of_getElem? hk))
  | added m hw _ h =>
    rw [h] at hn
    rcases List.mem_append.mp hn with hn | hn
    · exact hs n hn
    · rw [List.mem_singleton.mp hn]; exact hw

/-- The instance at a place is still there, with its slot count. -/
theorem InstancesAfter.slotCount {s t : State} (h : InstancesAfter s t) {k : Nat} {m : Memory}
    (hm : s.instances[k]? = some m) : ∃ m', t.instances[k]? = some m' ∧ m'.slotCount = m.slotCount := by
  have hk : k < s.instances.length := (List.getElem?_eq_some_iff.mp hm).1
  cases h with
  | same h => exact ⟨m, by rw [h, hm], rfl⟩
  | replaced j n n' hj _ hc _ h =>
    by_cases hjk : j = k
    · subst hjk
      have hnm : n = m := Option.some.inj (hj.symm.trans hm)
      exact ⟨n', by rw [h, List.getElem?_set_self hk], by rw [hc, hnm]⟩
    · exact ⟨m, by rw [h, List.getElem?_set_ne hjk, hm], rfl⟩
  | added n _ _ h => exact ⟨m, by rw [h, List.getElem?_append_left hk, hm], rfl⟩

/-! ### Operations that do not look at the state -/

theorem answerWith_uniform {α : Type} (reply : α → Response) (r : Except CoreError α) :
    ∃ a, ∀ s, answerWith s reply r = .next (s.answer a) := by
  cases r with
  | error e => exact ⟨.error e, fun _ => rfl⟩
  | ok v => exact ⟨reply v, fun _ => rfl⟩

/-- Each meaning presents one record, whatever the state. -/
theorem exec_uniform (i : Instr) : ∃ d, ∀ s, exec i s = .next (s.answer (.decoded d)) := by
  cases i <;> exact ⟨_, fun _ => rfl⟩

theorem serve_decode_uniform (w : Word) : ∃ a, ∀ s, serve (.decode w) s = .next (s.answer a) := by
  simp only [serve]
  cases Sys2Proof.decode w with
  | ok i =>
    obtain ⟨d, hd⟩ := exec_uniform i
    exact ⟨.decoded d, hd⟩
  | error e => exact ⟨_, fun _ => rfl⟩

/-- An operation that names no instance and creates none has one answer for every state, and changes nothing else. -/
theorem serve_uniform {r : Request} (ht : r.target = none) (hnew : ∀ c ws, r ≠ .memNew c ws)
    (hstr : ∀ c text, r ≠ .memNewFromString c text) : ∃ a, ∀ s, serve r s = .next (s.answer a) := by
  cases r with
  | decode w => exact serve_decode_uniform w
  | encodeR | encodeI | encodeS | encodeB | encodeU | encodeJ | formatOf | mnemonicOf =>
    exact ⟨_, fun _ => rfl⟩
  | encode | registerIndexOf | select | assemble => exact answerWith_uniform _ _
  | memNew c ws => exact absurd rfl (hnew c ws)
  | memNewFromString c text => exact absurd rfl (hstr c text)
  | memRead | memWrite | memReset | storeByte | storeHalf | storeWord => cases ht

/-! ### Which instance an operation can change -/

theorem memWrite_eq_or_set {inst : Nat} {addr value : Int} {be : ByteEnable} {s t : State}
    (h : memWrite inst addr value be s = .next t) :
    t.instances = s.instances ∨ ∃ m, t.instances = s.instances.set inst m := by
  rcases memWrite_cases inst addr value be s with ⟨-, hw⟩ | ⟨_, _, -, -, hw⟩ | ⟨_, _, -, -, -, hw⟩
  · rw [hw] at h; cases h
  · rw [hw] at h; cases h; exact .inl rfl
  · rw [hw] at h; cases h; exact .inr ⟨_, rfl⟩

/-- An operation that names an instance replaces at most that one. -/
theorem serve_eq_or_set_of_target {r : Request} {inst : Nat} {s t : State} (hr : r.target = some inst)
    (h : serve r s = .next t) : t.instances = s.instances ∨ ∃ m, t.instances = s.instances.set inst m := by
  cases r with
  | memRead i addr =>
    simp only [serve] at h
    rcases memRead_cases i addr s with ⟨-, hw⟩ | ⟨m, -, hw⟩
    · rw [hw] at h; cases h
    · obtain ⟨a, ha, -⟩ := answerWith_eq s .rdata (m.read addr)
      rw [hw, ha] at h; cases h; exact .inl rfl
  | memReset i =>
    cases hr
    simp only [serve] at h
    rcases memReset_cases inst s with ⟨-, hw⟩ | ⟨m, -, hw⟩
    · rw [hw] at h; cases h
    · rw [hw] at h; cases h; exact .inr ⟨_, rfl⟩
  | storeHalf i addr value =>
    cases hr
    simp only [serve] at h
    rcases storeHalf_cases inst addr value s with ⟨-, hw⟩ | ⟨-, _, _, hw⟩
    · rw [hw] at h; cases h; exact .inl rfl
    · rw [hw] at h; exact memWrite_eq_or_set h
  | memWrite | storeByte | storeWord => cases hr; exact memWrite_eq_or_set h
  | _ => cases hr

theorem memNew_prefix {c : Int} {ws : List Int} {s t : State} (h : memNew c ws s = .next t) :
    s.instances <+: t.instances := by
  rcases memNew_cases c ws s with ⟨-, hw⟩ | ⟨-, -, hw⟩ | ⟨m, -, -, -, -, hw⟩
  · rw [hw] at h; cases h; exact List.prefix_rfl
  · rw [hw] at h; cases h; exact List.prefix_rfl
  · rw [hw] at h; cases h; exact List.prefix_append _ _

theorem memNewFromString_prefix {c : Int} {text : Text} {s t : State} (h : memNewFromString c text s = .next t) :
    s.instances <+: t.instances := by
  rcases memNewFromString_cases c text s with ⟨-, hw⟩ | ⟨_, -, -, hw⟩ | ⟨ws, -, -, hw⟩
  · rw [hw] at h; cases h; exact List.prefix_rfl
  · rw [hw] at h; cases h; exact List.prefix_rfl
  · rw [hw] at h; exact memNew_prefix h

/-- An operation that names no instance changes none: at most it adds one at the end. -/
theorem serve_prefix_of_target_none {r : Request} {s t : State} (hr : r.target = none) (h : serve r s = .next t) :
    s.instances <+: t.instances := by
  by_cases hnew : ∃ c ws, r = .memNew c ws
  · obtain ⟨c, ws, rfl⟩ := hnew
    exact memNew_prefix h
  · by_cases hstr : ∃ c text, r = .memNewFromString c text
    · obtain ⟨c, text, rfl⟩ := hstr
      exact memNewFromString_prefix h
    · obtain ⟨a, ha⟩ := serve_uniform hr (fun c ws e => hnew ⟨c, ws, e⟩) (fun c text e => hstr ⟨c, text, e⟩)
      rw [ha] at h; cases h; exact List.prefix_rfl

/-- Serving an operation leaves every instance that it does not name as it was. -/
theorem serve_getElem?_of_target_ne {r : Request} {s t : State} {k : Nat} (h : serve r s = .next t)
    (hk : k < s.instances.length) (hr : r.target ≠ some k) : t.instances[k]? = s.instances[k]? := by
  cases htarget : r.target with
  | none =>
    obtain ⟨new, hnew⟩ := serve_prefix_of_target_none htarget h
    rw [← hnew, List.getElem?_append_left hk]
  | some inst =>
    have hne : inst ≠ k := fun e => hr (by rw [htarget, e])
    rcases serve_eq_or_set_of_target htarget h with hsame | ⟨m, hset⟩
    · rw [hsame]
    · rw [hset, List.getElem?_set_ne hne]

/-! ### The obligations -/

/-- Settles O42: each of the three things a step can do to the instances keeps the canonical form. -/
theorem stepKeepsEveryInstanceCanonical : Obligations.StepKeepsEveryInstanceCanonical := by
  unfold Obligations.StepKeepsEveryInstanceCanonical
  intro s t hs h
  exact (step_instances h).inv hs

/-- Settles O25: a meaning changes the response and no other field. -/
theorem everyInstructionLeavesEveryByteOfMemory : Obligations.EveryInstructionLeavesEveryByteOfMemory := by
  unfold Obligations.EveryInstructionLeavesEveryByteOfMemory
  intro i s
  obtain ⟨d, hd⟩ := exec_next i s
  exact ⟨_, hd, rfl, rfl, fun _ m hm => ⟨m, hm, rfl, fun _ => rfl⟩⟩

/-- Settles O30: such an operation has one answer for all states. -/
theorem answersOfThePureBlocksIgnoreTheState : Obligations.AnswersOfThePureBlocksIgnoreTheState := by
  unfold Obligations.AnswersOfThePureBlocksIgnoreTheState
  intro s s' r rest rest' hs hs' ht hnew hstr
  obtain ⟨a, ha⟩ := serve_uniform ht hnew hstr
  exact ⟨a, (step_of_pending hs).trans (ha _), (step_of_pending hs').trans (ha _)⟩

/-- Settles O44: each of the three things a step can do to the instances keeps their places and slot counts. -/
theorem slotCountsNeverChange : Obligations.SlotCountsNeverChange := by
  unfold Obligations.SlotCountsNeverChange
  intro s t k m h hm
  exact (step_instances h).slotCount hm

/-- Settles O45: an operation replaces at most the instance it names, or adds one at the end. -/
theorem anOperationTouchesOnlyTheInstanceItNames : Obligations.AnOperationTouchesOnlyTheInstanceItNames := by
  unfold Obligations.AnOperationTouchesOnlyTheInstanceItNames
  intro s t r rest k hs h hk hr
  rw [step_of_pending hs] at h
  exact serve_getElem?_of_target_ne (s := { s with pending := rest }) h hk hr

end Sys2Proof.Machine
end

section
/-! The lanes of a word and the slots of an instance (20_memory.md R44 to R48): what a masked write merges, byte by byte
and word by word, and what loading the initial words leaves. -/

namespace Sys2Proof.Machine

open Sys2Proof.Stated

/-! ### The lanes of a word -/

theorem laneOf_toNat (w : Word) (i : Nat) : (laneOf w i).toNat = w.toNat / 2 ^ (8 * i) % 256 := by
  rw [laneOf, BitVec.extractLsb'_toNat, Nat.shiftRight_eq_div_pow]

/-- Bit `j` of a word is bit `j mod 8` of its lane `j / 8` (R45, R50). -/
theorem getLsbD_eq_laneOf (w : Word) (j : Nat) : w.getLsbD j = (laneOf w (j / 8)).getLsbD (j % 8) := by
  rw [laneOf, BitVec.getLsbD_extractLsb', Nat.div_add_mod]
  simp [Nat.mod_lt]

theorem eq_of_laneOf_eq {v w : Word} (h : ∀ i < 4, laneOf v i = laneOf w i) : v = w := by
  refine BitVec.eq_of_getLsbD_eq fun j hj => ?_
  rw [getLsbD_eq_laneOf v, getLsbD_eq_laneOf w, h (j / 8) (by omega)]

theorem laneOf_concat (b : Nat → Byte) {i : Nat} (hi : i < 4) : laneOf (b 3 ++ b 2 ++ b 1 ++ b 0) i = b i := by
  have h : i = 0 ∨ i = 1 ∨ i = 2 ∨ i = 3 := by omega
  apply BitVec.eq_of_toNat_eq
  rw [laneOf_toNat]
  simp only [toNat_concat]
  rcases h with rfl | rfl | rfl | rfl <;> omega

/-! ### The mask flags -/

theorem laneEnabled_all {i : Nat} (hi : i < 4) : laneEnabled 0b1111#4 i = true := by
  decide +revert

theorem laneEnabled_none (i : Nat) : laneEnabled 0#4 i = false := BitVec.getLsbD_zero

/-- The mask of a byte store enables its one lane (R46). -/
theorem laneEnabled_byte_iff : ∀ lane < 4, ∀ i < 4, laneEnabled (0b0001#4 <<< lane) i = true ↔ i = lane := by
  decide

/-- The mask of a halfword store enables two adjacent lanes (R46). -/
theorem laneEnabled_half_iff :
    ∀ lane < 3, ∀ i < 4, laneEnabled (0b0011#4 <<< lane) i = true ↔ i = lane ∨ i = lane + 1 := by
  decide

theorem byteEnableOfFlags_toNat (f1 f2 f3 f4 : Bool) :
    (byteEnableOfFlags f1 f2 f3 f4).toNat = 8 * f1.toNat + 4 * f2.toNat + 2 * f3.toNat + f4.toNat := by
  decide +revert

theorem laneEnabled_byteEnableOfFlags (f1 f2 f3 f4 : Bool) (i : Nat) :
    laneEnabled (byteEnableOfFlags f1 f2 f3 f4) i
      = if i = 3 then f1 else if i = 2 then f2 else if i = 1 then f3 else if i = 0 then f4 else false := by
  rcases Nat.lt_or_ge i 4 with hi | hi
  · decide +revert
  · rw [laneEnabled, BitVec.getLsbD_of_ge _ _ hi]
    simp [show i ≠ 3 by omega, show i ≠ 2 by omega, show i ≠ 1 by omega, show i ≠ 0 by omega]

/-! ### Merging the enabled lanes -/

theorem laneOf_mergeLanes (old v : Word) (be : ByteEnable) {i : Nat} (hi : i < 4) :
    laneOf (mergeLanes old v be) i = if laneEnabled be i = true then laneOf v i else laneOf old i :=
  laneOf_concat (fun i => if laneEnabled be i = true then laneOf v i else laneOf old i) hi

/-- The flag of lane `j / 8` says which word bit `j` of a merged word comes from (R45). -/
theorem mergeLanes_getLsbD (old v : Word) (be : ByteEnable) {j : Nat} (hj : j < 32) :
    (mergeLanes old v be).getLsbD j = if laneEnabled be (j / 8) = true then v.getLsbD j else old.getLsbD j := by
  rw [getLsbD_eq_laneOf, laneOf_mergeLanes old v be (by omega), getLsbD_eq_laneOf v, getLsbD_eq_laneOf old]
  split <;> rfl

theorem mergeLanes_all (old v : Word) : mergeLanes old v 0b1111#4 = v :=
  eq_of_laneOf_eq fun i hi => by rw [laneOf_mergeLanes old v _ hi, if_pos (laneEnabled_all hi)]

/-- A masked write merges its slot and leaves every other slot (R44). -/
theorem Memory.writeSlot_slot {m : Memory} (h : m.wf) {k : Nat} (hk : k < m.slotCount) (v : Word) (be : ByteEnable)
    (j : Nat) : (m.writeSlot k v be).slot j = if j = k then mergeLanes (m.slot k) v be else m.slot j := by
  refine eq_of_laneOf_eq fun i hi => ?_
  rw [Memory.laneOf_slot _ _ hi, Memory.writeSlot_byteAt h hk, show (4 * j + i) / 4 = j by omega,
    show (4 * j + i) % 4 = i by omega]
  by_cases hj : j = k
  · subst hj
    simp [laneOf_mergeLanes, hi, Memory.laneOf_slot]
  · simp [hj, hi, Memory.laneOf_slot]

theorem Memory.writeSlot_none (m : Memory) (k : Nat) (v : Word) : m.writeSlot k v 0#4 = m := by
  simp [Memory.writeSlot, Memory.writeLane, laneEnabled_none]

theorem Memory.writeSlot_idem {m : Memory} (h : m.wf) {k : Nat} (hk : k < m.slotCount) (v : Word) (be : ByteEnable) :
    (m.writeSlot k v be).writeSlot k v be = m.writeSlot k v be := by
  have hw : (m.writeSlot k v be).wf := Memory.writeSlot_wf h hk v be
  have hk' : k < (m.writeSlot k v be).slotCount := by simpa using hk
  refine Memory.ext_of_bytes (Memory.writeSlot_wf hw hk' v be) hw (by simp) fun b => ?_
  rw [Memory.writeSlot_byteAt hw hk', Memory.writeSlot_byteAt h hk]
  split <;> rfl

@[simp] theorem Memory.empty_slot (n k : Nat) : Memory.slot ⟨n, []⟩ k = 0#32 := by
  simp [Memory.slot]

@[simp] theorem Memory.reset_slot (m : Memory) (k : Nat) : m.reset.slot k = 0#32 := Memory.empty_slot _ k

/-! ### The bytes of an integer value -/

theorem laneOf_trunc (v : Int) {i : Nat} (hi : i < 4) : laneOf (trunc 32 v) i = trunc 8 (v / 2 ^ (8 * i)) := by
  have h : i = 0 ∨ i = 1 ∨ i = 2 ∨ i = 3 := by omega
  apply BitVec.eq_of_toNat_eq
  simp only [laneOf_toNat, trunc, BitVec.toNat_ofInt]
  rcases h with rfl | rfl | rfl | rfl <;> norm_num <;> omega

theorem trunc_toNat_cast (n : Nat) (x : Int) : ((trunc n x).toNat : Int) = x % 2 ^ n := by
  rw [trunc, BitVec.toNat_ofInt, Int.toNat_of_nonneg (Int.emod_nonneg _ (by simp))]
  simp

/-- Byte `i` of an integer is not changed by reducing the integer to the `n` bits that hold the byte. -/
theorem trunc_byte_emod (x : Int) {n i : Nat} (h : 8 * i + 8 ≤ n) :
    trunc 8 (x % 2 ^ n / 2 ^ (8 * i)) = trunc 8 (x / 2 ^ (8 * i)) := by
  obtain ⟨d, rfl⟩ := Nat.exists_eq_add_of_le h
  have hsplit : x % 2 ^ (8 * i + 8 + d) = x + 2 ^ (8 * i) * (256 * -(2 ^ d * (x / 2 ^ (8 * i + 8 + d)))) := by
    rw [Int.emod_def]
    ring
  rw [hsplit, Int.add_mul_ediv_left _ _ (by positivity)]
  apply BitVec.eq_of_toNat_eq
  simp only [trunc, BitVec.toNat_ofInt]
  omega

/-- A value shifted to a lane: `i` lanes above it stands byte `i` of the value (R46). -/
theorem laneOf_shifted {n : Nat} (x : Int) {lane i : Nat} (hn : 8 * i + 8 ≤ n) (hi : lane + i < 4) :
    laneOf (trunc 32 (((trunc n x).toNat <<< (8 * lane) : Nat) : Int)) (lane + i) = trunc 8 (x / 2 ^ (8 * i)) := by
  have hdrop : (((trunc n x).toNat <<< (8 * lane) : Nat) : Int) / 2 ^ (8 * (lane + i)) = x % 2 ^ n / 2 ^ (8 * i) := by
    rw [Nat.shiftLeft_eq, Nat.cast_mul, trunc_toNat_cast, Nat.mul_add, pow_add, mul_comm (x % _)]
    push_cast
    rw [Int.mul_ediv_mul_of_pos _ _ (by positivity)]
  rw [laneOf_trunc _ hi, hdrop, trunc_byte_emod x hn]

/-! ### The writes of the three store recipes, byte by byte (R46) -/

section
variable {m : Memory} (h : m.wf) {k : Nat} (hk : k < m.slotCount)
include h hk

theorem Memory.writeSlot_byte_byteAt (x : Int) {lane : Nat} (hl : lane < 4) (b : Nat) :
    (m.writeSlot k (trunc 32 ((trunc 8 x).toNat <<< (8 * lane) : Nat)) (0b0001#4 <<< lane)).byteAt b
      = if b = 4 * k + lane then trunc 8 x else m.byteAt b := by
  have hlane := laneEnabled_byte_iff lane hl (b % 4) (by omega)
  simp only [Memory.writeSlot_byteAt h hk, hlane]
  by_cases hb : b = 4 * k + lane
  · have hi : b % 4 = lane + 0 := by omega
    rw [if_pos (by omega), if_pos hb, hi, laneOf_shifted x (by omega) (by omega)]
    simp
  · rw [if_neg (by omega), if_neg hb]

theorem Memory.writeSlot_half_byteAt (x : Int) {lane : Nat} (hl : lane < 3) (b : Nat) :
    (m.writeSlot k (trunc 32 ((trunc 16 x).toNat <<< (8 * lane) : Nat)) (0b0011#4 <<< lane)).byteAt b
      = if b = 4 * k + lane then trunc 8 x
        else if b = 4 * k + lane + 1 then trunc 8 (x / 2 ^ 8) else m.byteAt b := by
  have hlane := laneEnabled_half_iff lane hl (b % 4) (by omega)
  simp only [Memory.writeSlot_byteAt h hk, hlane]
  by_cases hb : b = 4 * k + lane
  · have hi : b % 4 = lane + 0 := by omega
    rw [if_pos (by omega), if_pos hb, hi, laneOf_shifted x (by omega) (by omega)]
    simp
  · rw [if_neg hb]
    by_cases hb1 : b = 4 * k + lane + 1
    · have hi : b % 4 = lane + 1 := by omega
      rw [if_pos (by omega), if_pos hb1, hi, laneOf_shifted x (by omega) (by omega)]
    · rw [if_neg (by omega), if_neg hb1]

theorem Memory.writeSlot_word_byteAt (x : Int) (b : Nat) :
    (m.writeSlot k (trunc 32 x) 0b1111#4).byteAt b
      = if b / 4 = k then trunc 8 (x / 2 ^ (8 * (b % 4))) else m.byteAt b := by
  have hlane : b % 4 < 4 := by omega
  rw [Memory.writeSlot_byteAt h hk, laneOf_trunc x hlane, laneEnabled_all hlane]
  simp

end

/-! ### Loading the initial words -/

/-- Loading leaves the slots before the first one loaded. -/
theorem Memory.load_slot_of_lt {m : Memory} (h : m.wf) {k j : Nat} (hj : j < k) (ws : List Int)
    (hk : k + ws.length ≤ m.slotCount) : (m.load k ws).slot j = m.slot j := by
  induction ws generalizing m k with
  | nil => rfl
  | cons w rest ih =>
    rw [List.length_cons] at hk
    have hkm : k < m.slotCount := by omega
    have hw := Memory.writeSlot_wf h hkm (trunc 32 w) 0b1111#4
    rw [Memory.load, ih hw (by omega) (by simp; omega), Memory.writeSlot_slot h hkm, if_neg (by omega)]

/-- The slots from the first one loaded on hold the words, and behind them what they held (R53). -/
theorem Memory.load_slot_add {m : Memory} (h : m.wf) (k j : Nat) (ws : List Int) (hk : k + ws.length ≤ m.slotCount) :
    (m.load k ws).slot (k + j) = (ws.map (trunc 32)).getD j (m.slot (k + j)) := by
  induction ws generalizing m k j with
  | nil => rfl
  | cons w rest ih =>
    rw [List.length_cons] at hk
    have hkm : k < m.slotCount := by omega
    have hw := Memory.writeSlot_wf h hkm (trunc 32 w) 0b1111#4
    have hroom : k + 1 + rest.length ≤ (m.writeSlot k (trunc 32 w) 0b1111#4).slotCount := by simp; omega
    cases j with
    | zero =>
      rw [Memory.load, Memory.load_slot_of_lt hw (by omega) _ hroom, Memory.writeSlot_slot h hkm, if_pos (by omega),
        mergeLanes_all]
      rfl
    | succ j =>
      rw [Memory.load, show k + (j + 1) = k + 1 + j by omega, ih hw _ _ hroom, Memory.writeSlot_slot h hkm,
        if_neg (by omega)]
      rfl

theorem slotCountOf_bounds {byteCapacity : Int} (h : 0 ≤ byteCapacity) :
    byteCapacity ≤ 4 * (slotCountOf byteCapacity : Int) ∧ 4 * (slotCountOf byteCapacity : Int) < byteCapacity + 4 := by
  unfold slotCountOf
  omega

end Sys2Proof.Machine
end

section
/-! The operations of a memory instance in a step: the checks clause by clause, the masked write, the read, the reset,
the creation and the caller's store recipes. Settles O41, O31 to O39. -/

namespace Sys2Proof.Machine

open Sys2Proof.Stated

/-! ### The checks of an access, one clause each -/

theorem Memory.slotIndex_of_unaligned (m : Memory) {addr : Int} (h : addr % 4 ≠ 0) :
    m.slotIndex addr = .error (.unaligned addr) := by
  rw [Memory.slotIndex, if_pos h]

theorem Memory.slotIndex_of_outside {m : Memory} {addr : Int} (h4 : addr % 4 = 0)
    (hb : addr < 0 ∨ 4 * (m.slotCount : Int) ≤ addr) : m.slotIndex addr = .error (.outOfBounds addr) := by
  rw [Memory.slotIndex, if_neg (by simpa using h4), if_pos (by omega)]

theorem exists_slot_of_aligned {addr : Int} {n : Nat} (h4 : addr % 4 = 0) (h0 : 0 ≤ addr) (hn : addr < 4 * (n : Int)) :
    ∃ k : Nat, addr = 4 * (k : Int) ∧ k < n :=
  ⟨(addr / 4).toNat, by omega, by omega⟩

/-- A byte address inside the slots is a lane of one of them (D22). -/
theorem exists_lane_of_inside {a : Int} {n : Nat} (h0 : 0 ≤ a) (hn : a < 4 * (n : Int)) :
    ∃ k lane : Nat, a = 4 * (k : Int) + (lane : Int) ∧ k < n ∧ lane < 4 :=
  ⟨(a / 4).toNat, (a % 4).toNat, by omega, by omega, by omega⟩

/-! ### Each operation where its checks pass, and where one fails -/

theorem stepAnswers_of_serve {s : State} {r : Request} {rest : List Request} {a : Response} (hp : s.pending = r :: rest)
    (h : serve r { s with pending := rest } = .next { s with pending := rest, response := some a }) :
    StepAnswers s rest a :=
  (step_of_pending hp).trans h

theorem Memory.write_slot (m : Memory) {k : Nat} (hk : k < m.slotCount) (value : Int) (be : ByteEnable) :
    m.write (4 * k) value be = .ok (m.writeSlot k (trunc 32 value) be) := by
  simp only [Memory.write, m.slotIndex_slot hk]

/-- A write that is done has passed the checks. -/
theorem Memory.write_eq_ok {m m' : Memory} {addr value : Int} {be : ByteEnable} (h : m.write addr value be = .ok m') :
    ∃ k : Nat, addr = 4 * (k : Int) ∧ k < m.slotCount ∧ m' = m.writeSlot k (trunc 32 value) be := by
  rcases m.slotIndex_cases addr with ⟨-, he⟩ | ⟨-, -, he⟩ | ⟨k, ha, hk, -⟩
  · simp only [Memory.write, he] at h; cases h
  · simp only [Memory.write, he] at h; cases h
  · rw [ha, m.write_slot hk] at h; cases h
    exact ⟨k, ha, hk, rfl⟩

section
variable {ms : List Memory} {inst : Nat} {m : Memory} (hm : ms[inst]? = some m) {p : List Request} {q : Option Response}
include hm

theorem memRead_of_error {addr : Int} {e : CoreError} (he : m.slotIndex addr = .error e) :
    memRead inst addr ⟨ms, p, q⟩ = .next ⟨ms, p, some (.error e)⟩ := by
  simp only [memRead, hm, Memory.read, he]; rfl

theorem memRead_slot {k : Nat} (hk : k < m.slotCount) :
    memRead inst (4 * k) ⟨ms, p, q⟩ = .next ⟨ms, p, some (.rdata (m.slot k))⟩ := by
  simp only [memRead, hm, Memory.read, m.slotIndex_slot hk]; rfl

theorem memWrite_of_error {addr : Int} {e : CoreError} (he : m.slotIndex addr = .error e) (value : Int)
    (be : ByteEnable) : memWrite inst addr value be ⟨ms, p, q⟩ = .next ⟨ms, p, some (.error e)⟩ := by
  simp only [memWrite, hm, Memory.write, he]; rfl

theorem memWrite_slot {k : Nat} (hk : k < m.slotCount) (value : Int) (be : ByteEnable) :
    memWrite inst (4 * k) value be ⟨ms, p, q⟩
      = .next ⟨ms.set inst (m.writeSlot k (trunc 32 value) be), p, some .done⟩ := by
  simp only [memWrite, hm, m.write_slot hk]

theorem memReset_of_some : memReset inst ⟨ms, p, q⟩ = .next ⟨ms.set inst m.reset, p, some .done⟩ := by
  simp only [memReset, hm]

/-- Replacing an instance by itself changes nothing. -/
theorem instances_set_same : ms.set inst m = ms := by
  obtain ⟨hlt, rfl⟩ := List.getElem?_eq_some_iff.mp hm
  exact List.set_getElem_self hlt

end

theorem storeByte_lane (inst k : Nat) {lane : Nat} (hl : lane < 4) (x : Int) (s : State) :
    storeByte inst (4 * (k : Int) + lane) x s
      = memWrite inst (4 * k) ((trunc 8 x).toNat <<< (8 * lane) : Nat) (0b0001#4 <<< lane) s := by
  have hr : (4 * (k : Int) + lane) % 4 = lane := by omega
  simp only [storeByte, hr, Int.toNat_natCast, add_sub_cancel_right]

theorem storeHalf_lane (inst k : Nat) {lane : Nat} (hl : lane < 4) (heven : (4 * (k : Int) + lane) % 2 = 0) (x : Int)
    (s : State) :
    storeHalf inst (4 * (k : Int) + lane) x s
      = memWrite inst (4 * k) ((trunc 16 x).toNat <<< (8 * lane) : Nat) (0b0011#4 <<< lane) s := by
  have hr : (4 * (k : Int) + lane) % 4 = lane := by omega
  rw [storeHalf, if_neg (by simpa using heven)]
  simp only [hr, Int.toNat_natCast, add_sub_cancel_right]

/-! ### The store recipes -/

section
variable {s : State} {inst : Nat} {a x : Int} {rest : List Request} {m : Memory}
  (hm : s.instances[inst]? = some m) (hw : m.wf)
include hm hw

theorem step_storeByte (hp : s.pending = .storeByte inst a x :: rest) :
    ((a < 0 ∨ 4 * (m.slotCount : Int) ≤ a) → StepAnswers s rest (.error (.outOfBounds (a - a % 4)))) ∧
    (0 ≤ a → a < 4 * (m.slotCount : Int) → ∃ m',
      step s = .next { s with instances := s.instances.set inst m', pending := rest, response := some .done } ∧
      m'.slotCount = m.slotCount ∧ ∀ b : Nat, m'.byteAt b = if (b : Int) = a then trunc 8 x else m.byteAt b) := by
  refine ⟨fun hout => ?_, fun h0 hlt => ?_⟩
  · exact stepAnswers_of_serve hp (memWrite_of_error hm (Memory.slotIndex_of_outside (by omega) (by omega)) _ _)
  · obtain ⟨k, lane, rfl, hk, hl⟩ := exists_lane_of_inside h0 hlt
    refine ⟨_, (step_of_pending hp).trans ((storeByte_lane inst k hl x _).trans (memWrite_slot hm hk _ _)), by simp,
      fun b => ?_⟩
    rw [Memory.writeSlot_byte_byteAt hw hk x hl]
    norm_cast

theorem step_storeHalf (hp : s.pending = .storeHalf inst a x :: rest) :
    (a % 2 ≠ 0 → StepAnswers s rest (.rejected (.oddHalfword a))) ∧
    (a % 2 = 0 → (a < 0 ∨ 4 * (m.slotCount : Int) ≤ a) → StepAnswers s rest (.error (.outOfBounds (a - a % 4)))) ∧
    (a % 2 = 0 → 0 ≤ a → a < 4 * (m.slotCount : Int) → ∃ m',
      step s = .next { s with instances := s.instances.set inst m', pending := rest, response := some .done } ∧
      m'.slotCount = m.slotCount ∧
      ∀ b : Nat, m'.byteAt b
        = if (b : Int) = a then trunc 8 x else if (b : Int) = a + 1 then trunc 8 (x / 2 ^ 8) else m.byteAt b) := by
  refine ⟨fun hodd => ?_, fun heven hout => ?_, fun heven h0 hlt => ?_⟩
  · rcases storeHalf_cases inst a x { s with pending := rest } with ⟨-, h⟩ | ⟨heven, -⟩
    · exact stepAnswers_of_serve hp h
    · exact absurd heven hodd
  · rcases storeHalf_cases inst a x { s with pending := rest } with ⟨hodd, -⟩ | ⟨-, v, be, h⟩
    · exact absurd heven hodd
    · exact stepAnswers_of_serve hp
        (h.trans (memWrite_of_error hm (Memory.slotIndex_of_outside (by omega) (by omega)) _ _))
  · obtain ⟨k, lane, rfl, hk, hl⟩ := exists_lane_of_inside h0 hlt
    refine ⟨_, (step_of_pending hp).trans ((storeHalf_lane inst k hl heven x _).trans (memWrite_slot hm hk _ _)),
      by simp, fun b => ?_⟩
    rw [Memory.writeSlot_half_byteAt hw hk x (by omega)]
    norm_cast

theorem step_storeWord (hp : s.pending = .storeWord inst a x :: rest) :
    (a % 4 ≠ 0 → StepAnswers s rest (.error (.unaligned a))) ∧
    (a % 4 = 0 → (a < 0 ∨ 4 * (m.slotCount : Int) ≤ a) → StepAnswers s rest (.error (.outOfBounds a))) ∧
    (a % 4 = 0 → 0 ≤ a → a < 4 * (m.slotCount : Int) → ∃ m',
      step s = .next { s with instances := s.instances.set inst m', pending := rest, response := some .done } ∧
      m'.slotCount = m.slotCount ∧
      ∀ b : Nat, m'.byteAt b
        = if a ≤ (b : Int) ∧ (b : Int) < a + 4 then trunc 8 (x / 2 ^ (8 * (b % 4))) else m.byteAt b) := by
  refine ⟨fun h4 => ?_, fun h4 hout => ?_, fun h4 h0 hlt => ?_⟩
  · exact stepAnswers_of_serve hp (memWrite_of_error hm (m.slotIndex_of_unaligned h4) _ _)
  · exact stepAnswers_of_serve hp (memWrite_of_error hm (Memory.slotIndex_of_outside h4 hout) _ _)
  · obtain ⟨k, rfl, hk⟩ := exists_slot_of_aligned h4 h0 hlt
    refine ⟨_, (step_of_pending hp).trans (memWrite_slot hm hk _ _), by simp, fun b => ?_⟩
    have hslot : b / 4 = k ↔ 4 * (k : Int) ≤ b ∧ (b : Int) < 4 * k + 4 := by omega
    rw [Memory.writeSlot_word_byteAt hw hk, if_congr hslot rfl rfl]

end

/-- Settles O41: each recipe is one masked write, whose enabled lanes are the bytes of the store. -/
theorem subWordStoresWriteTheirBytesLittleEndian : Obligations.SubWordStoresWriteTheirBytesLittleEndian := by
  unfold Obligations.SubWordStoresWriteTheirBytesLittleEndian
  intro s inst a x rest m hm hw
  exact ⟨step_storeByte hm hw, step_storeHalf hm hw, step_storeWord hm hw⟩

/-! ### Reads and masked writes -/

/-- Settles O31: the clauses of the check, and the lanes of a slot's word. -/
theorem readAnswersTheSlotOrItsFirstFailingCheck : Obligations.ReadAnswersTheSlotOrItsFirstFailingCheck := by
  unfold Obligations.ReadAnswersTheSlotOrItsFirstFailingCheck
  intro s inst addr rest m hp hm
  refine ⟨fun h4 => ?_, fun h4 hout => ?_, fun h4 h0 hlt => ?_⟩
  · exact stepAnswers_of_serve hp (memRead_of_error hm (m.slotIndex_of_unaligned h4))
  · exact stepAnswers_of_serve hp (memRead_of_error hm (Memory.slotIndex_of_outside h4 hout))
  · obtain ⟨k, rfl, hk⟩ := exists_slot_of_aligned h4 h0 hlt
    exact ⟨k, rfl, stepAnswers_of_serve hp (memRead_slot hm hk), fun i hi => m.laneOf_slot k hi⟩

/-- Settles O32: where the checks pass, the slot is merged and every other slot stays. -/
theorem writeMergesTheEnabledLanesIntoItsSlot : Obligations.WriteMergesTheEnabledLanesIntoItsSlot := by
  unfold Obligations.WriteMergesTheEnabledLanesIntoItsSlot
  intro s inst addr value be rest m hp hm hw
  refine ⟨fun h4 => ?_, fun h4 hout => ?_, fun h4 h0 hlt => ?_⟩
  · exact stepAnswers_of_serve hp (memWrite_of_error hm (m.slotIndex_of_unaligned h4) _ _)
  · exact stepAnswers_of_serve hp (memWrite_of_error hm (Memory.slotIndex_of_outside h4 hout) _ _)
  · obtain ⟨k, rfl, hk⟩ := exists_slot_of_aligned h4 h0 hlt
    refine ⟨_, (step_of_pending hp).trans (memWrite_slot hm hk _ _), by simp, fun j => ?_⟩
    rw [Memory.writeSlot_slot hw hk]
    by_cases hj : j = k
    · simp [hj]
    · rw [if_neg hj, if_neg (by omega)]

/-- Settles O33: a failing write changes nothing, a done one only the enabled lanes of its slot. -/
theorem writeLeavesEveryByteOutsideItsEnabledLanes : Obligations.WriteLeavesEveryByteOutsideItsEnabledLanes := by
  unfold Obligations.WriteLeavesEveryByteOutsideItsEnabledLanes
  intro s t inst addr value be rest m m' hp hm hw h hm' b hb
  replace h : memWrite inst addr value be { s with pending := rest } = .next t := (step_of_pending hp).symm.trans h
  rcases memWrite_cases inst addr value be { s with pending := rest }
    with ⟨hnone, -⟩ | ⟨_, e, -, -, he⟩ | ⟨n, k, hn, rfl, hk, hok⟩
  · rw [hm] at hnone; cases hnone
  · rw [he] at h; cases h
    rw [State.answer_instances, hm] at hm'; cases hm'
    rfl
  · rw [hm] at hn; cases hn
    rw [hok] at h; cases h
    rw [List.getElem?_set_self (List.getElem?_eq_some_iff.mp hm).1] at hm'; cases hm'
    rw [Memory.writeSlot_byteAt hw hk, if_neg]
    rintro ⟨hslot, hlane⟩
    exact hb ⟨by omega, by omega, hlane⟩

/-- Settles O34: flag 1 is the flag of lane 3, and lane `i` is bits `8i+7..8i`. -/
theorem maskFlagsAreMostSignificantFirst : Obligations.MaskFlagsAreMostSignificantFirst := by
  unfold Obligations.MaskFlagsAreMostSignificantFirst
  intro f1 f2 f3 f4
  refine ⟨byteEnableOfFlags_toNat f1 f2 f3 f4, laneEnabled_byteEnableOfFlags f1 f2 f3 f4,
    fun w i _ => laneOf_toNat w i, fun m k value hw hk => ⟨_, m.write_slot hk _ _, fun j hj => ?_⟩⟩
  have hflag : laneEnabled (byteEnableOfFlags f1 f2 f3 f4) (j / 8)
      = if 24 ≤ j then f1 else if 16 ≤ j then f2 else if 8 ≤ j then f3 else f4 := by
    rw [laneEnabled_byteEnableOfFlags]
    grind
  rw [Memory.writeSlot_slot hw hk, if_pos rfl, mergeLanes_getLsbD _ _ _ hj, hflag]

/-- Settles O35: with no flag set the instance is replaced by itself; the checks come first all the same. -/
theorem allFalseMaskWritesNothing : Obligations.AllFalseMaskWritesNothing := by
  unfold Obligations.AllFalseMaskWritesNothing
  intro s inst addr value rest m hp hm
  refine ⟨fun h4 h0 hlt => ?_, fun h4 => ?_, fun h4 hout => ?_⟩
  · obtain ⟨k, rfl, hk⟩ := exists_slot_of_aligned h4 h0 hlt
    refine stepAnswers_of_serve hp ((memWrite_slot hm hk _ _).trans ?_)
    rw [Memory.writeSlot_none, instances_set_same hm]
  · exact stepAnswers_of_serve hp (memWrite_of_error hm (m.slotIndex_of_unaligned h4) _ _)
  · exact stepAnswers_of_serve hp (memWrite_of_error hm (Memory.slotIndex_of_outside h4 hout) _ _)

theorem run_succ_of_step {M : Host.Core} {s t : M.State} (h : M.step s = .next t) (k : Nat) :
    M.run (k + 1) s = M.run k t := by
  simp only [Host.Core.run, h]

/-- Settles O36: the write leaves the instance with its slot merged whole, and the read answers a slot of that. -/
theorem readAfterWriteAnswersTheLastWrite : Obligations.ReadAfterWriteAnswersTheLastWrite := by
  unfold Obligations.ReadAfterWriteAnswersTheLastWrite
  intro s inst k j value rest m hp hm hw hk hj
  have hwrite := (step_of_pending hp).trans (memWrite_slot hm hk value 0b1111#4)
  have hm' := List.getElem?_set_self (a := m.writeSlot k (trunc 32 value) 0b1111#4)
    (List.getElem?_eq_some_iff.mp hm).1
  have hread := memRead_slot (p := rest) (q := some .done) hm' (k := j) (by simpa using hj)
  refine ⟨_, (run_succ_of_step hwrite 1).trans (run_succ_of_step hread 0), ?_⟩
  rw [Memory.writeSlot_slot hw hk, mergeLanes_all]

/-- Settles O37: a masked write of a slot is idempotent, and keeps what the checks look at. -/
theorem repeatingAWriteIsTheSameAsDoingItOnce : Obligations.RepeatingAWriteIsTheSameAsDoingItOnce := by
  unfold Obligations.RepeatingAWriteIsTheSameAsDoingItOnce
  intro m m' addr value be hw h
  obtain ⟨k, rfl, hk, rfl⟩ := Memory.write_eq_ok h
  rw [Memory.write_slot _ (by simpa using hk), Memory.writeSlot_idem hw hk]

/-! ### Reset and creation -/

/-- Settles O38: a reset instance lists no byte, so each of its slots reads as 0. -/
theorem resetZeroesEverySlotOfItsInstance : Obligations.ResetZeroesEverySlotOfItsInstance := by
  unfold Obligations.ResetZeroesEverySlotOfItsInstance
  intro s inst rest m hp hm
  refine ⟨_, m.reset, (step_of_pending hp).trans (memReset_of_some hm), rfl, rfl, ?_, rfl, m.reset_slot, ?_⟩
  · exact List.getElem?_set_self (List.getElem?_eq_some_iff.mp hm).1
  · exact fun j hj => List.getElem?_set_ne (Ne.symm hj)

/-- Settles O39: the instance is the zeroed one with the words loaded from slot 0 on. -/
theorem newLoadsTheInitialWordsOrMakesNoInstance : Obligations.NewLoadsTheInitialWordsOrMakesNoInstance := by
  unfold Obligations.NewLoadsTheInitialWordsOrMakesNoInstance
  intro s byteCapacity ws rest hp
  rcases memNew_cases byteCapacity ws { s with pending := rest }
    with ⟨hneg, h⟩ | ⟨h0, hmany, h⟩ | ⟨m, h0, hfit, hw, hload, h⟩
  · exact ⟨fun _ => stepAnswers_of_serve hp h, fun h0 => by omega⟩
  · obtain ⟨hle, hlt⟩ := slotCountOf_bounds h0
    exact ⟨fun hneg => by omega, fun _ =>
      ⟨_, hle, hlt, fun _ => stepAnswers_of_serve hp h, fun hfit => by omega⟩⟩
  · obtain ⟨hle, hlt⟩ := slotCountOf_bounds h0
    refine ⟨fun hneg => by omega, fun _ => ⟨_, hle, hlt, fun hmany => by omega, fun _ =>
      ⟨m, (step_of_pending hp).trans h, ?_, hw, fun k => ?_⟩⟩⟩
    · rw [hload, (Memory.load_wf (Memory.empty_wf _) 0 ws (by simpa using hfit)).2]
    · have hslot := Memory.load_slot_add (Memory.empty_wf (slotCountOf byteCapacity)) 0 k ws (by simpa using hfit)
      rw [Nat.zero_add] at hslot
      rw [hload, hslot, Memory.empty_slot]

end Sys2Proof.Machine
end

section
/-! Initialization strings (20_memory.md R54): which tokens are decimal integers, and creation from the tokens. Settles
O57 and O40. -/

namespace Sys2Proof.Machine

open Sys2Proof.Stated

/-! ### Signed numbers -/

/-- A sign is no part of the number that `unsigned` reads, so a text has a number with a sign in at most one way. -/
theorem signed_eq_some_iff {unsigned : Text → Option Nat} {form : Text → Nat → Prop}
    (hform : ∀ t n, unsigned t = some n ↔ form t n) (hplus : ∀ t n, ¬form ('+' :: t) n)
    (hminus : ∀ t n, ¬form ('-' :: t) n) (t : Text) (v : Int) :
    signed unsigned t = some v ↔ SignedForm form t v := by
  unfold SignedForm
  constructor
  · intro h
    unfold signed at h
    split at h
    case h_1 body =>
      obtain ⟨n, hn, rfl⟩ := Option.map_eq_some_iff.mp h
      exact ⟨body, n, (hform _ _).mp hn, .inl ⟨.inr rfl, rfl⟩⟩
    case h_2 body =>
      obtain ⟨n, hn, rfl⟩ := Option.map_eq_some_iff.mp h
      exact ⟨body, n, (hform _ _).mp hn, .inr ⟨rfl, rfl⟩⟩
    case h_3 =>
      obtain ⟨n, hn, rfl⟩ := Option.map_eq_some_iff.mp h
      exact ⟨t, n, (hform _ _).mp hn, .inl ⟨.inl rfl, rfl⟩⟩
  · rintro ⟨body, n, hbody, ⟨rfl | rfl, rfl⟩ | ⟨rfl, rfl⟩⟩
    · rw [signed]
      · rw [(hform _ _).mpr hbody]; rfl
      · rintro body rfl; exact hplus _ _ hbody
      · rintro body rfl; exact hminus _ _ hbody
    · rw [signed, (hform _ _).mpr hbody]; rfl
    · rw [signed, (hform _ _).mpr hbody]; rfl

/-! ### Decimal digits -/

theorem digits10_iff (ds : Text) : Digits 10 ds ↔ ds ≠ [] ∧ ∀ c ∈ ds, '0' ≤ c ∧ c ≤ '9' := by
  simp [Digits]

theorem decimalDigit_eq_some {c : Char} (h : '0' ≤ c ∧ c ≤ '9') :
    decimalDigit c = some (if c ≤ '9' then c.toNat - 48 else if 'a' ≤ c then c.toNat - 87 else c.toNat - 55) := by
  rw [decimalDigit, if_pos h, if_pos h.2]

theorem isDigit_of_decimalDigit {c : Char} {d : Nat} (h : decimalDigit c = some d) : '0' ≤ c ∧ c ≤ '9' := by
  by_contra hc
  rw [decimalDigit, if_neg hc] at h
  cases h

/-- Reading decimal digits gives the number that one or more digits write, and nothing else. -/
theorem digits_decimal_eq_some_iff (t : Text) (n : Nat) :
    digits 10 decimalDigit t = some n ↔ Digits 10 t ∧ n = valueOf 10 t := by
  rw [digits10_iff, and_assoc]
  cases t with
  | nil => simp [digits]
  | cons c rest =>
    refine (digitsFrom_eq_some_iff (fun _ => decimalDigit_eq_some) (fun _ _ => isDigit_of_decimalDigit) 0 _ n).trans ?_
    simp [valueOf]

/-- Settles O57: the sign is split off first, and the rest are decimal digits; neither sign is a digit. -/
theorem decimalIntegersAreSignedDigitStrings : Obligations.DecimalIntegersAreSignedDigitStrings := by
  unfold Obligations.DecimalIntegersAreSignedDigitStrings
  refine signed_eq_some_iff digits_decimal_eq_some_iff ?_ ?_
  · rintro t n ⟨hd, -⟩
    exact absurd (((digits10_iff _).mp hd).2 '+' (by simp)) (by decide)
  · rintro t n ⟨hd, -⟩
    exact absurd (((digits10_iff _).mp hd).2 '-' (by simp)) (by decide)

/-! ### The tokens of an initialization string -/

/-- The leftmost token that is no integer is the one the error carries (log 28). -/
theorem parseInitialWords_of_leftmost_bad {before : List Text} {tok : Text} (after : List Text)
    (hbefore : ∀ t ∈ before, (decimalInteger t).isSome = true) (htok : decimalInteger tok = none) :
    parseInitialWords (before ++ tok :: after) = .error (.malformedInput none tok) := by
  induction before with
  | nil => simp only [List.nil_append, parseInitialWords, htok]
  | cons t rest ih =>
    obtain ⟨v, hv⟩ := Option.isSome_iff_exists.mp (hbefore t (by simp))
    simp only [List.cons_append, parseInitialWords, hv, ih fun u hu => hbefore u (by simp [hu])]

theorem parseInitialWords_of_integers {toks : List Text} {vs : List Int} (h : toks.map decimalInteger = vs.map some) :
    parseInitialWords toks = .ok vs := by
  induction toks generalizing vs with
  | nil => cases vs with
    | nil => rfl
    | cons v vs => cases h
  | cons tok rest ih => cases vs with
    | nil => cases h
    | cons v vs =>
      rw [List.map_cons, List.map_cons, List.cons.injEq] at h
      simp only [parseInitialWords, h.1, ih h.2]

/-- Settles O40: the capacity is looked at first, then the tokens from left to right, and only then their count. -/
theorem newFromStringParsesBeforeItCounts : Obligations.NewFromStringParsesBeforeItCounts := by
  unfold Obligations.NewFromStringParsesBeforeItCounts
  intro s byteCapacity text rest hp
  rcases memNewFromString_cases byteCapacity text { s with pending := rest }
    with ⟨hneg, h⟩ | ⟨e, h0, he, h⟩ | ⟨ws, h0, hws, h⟩
  · exact ⟨fun _ => stepAnswers_of_serve hp h, fun h0 => by omega, fun h0 => by omega⟩
  · refine ⟨fun hneg => by omega, fun _ before tok after hsplit hbefore htok => ?_, fun _ vs hvs => ?_⟩
    · rw [hsplit, parseInitialWords_of_leftmost_bad after hbefore htok] at he
      cases he
      exact stepAnswers_of_serve hp h
    · rw [parseInitialWords_of_integers hvs] at he; cases he
  · refine ⟨fun hneg => by omega, fun _ before tok after hsplit hbefore htok => ?_, fun _ vs hvs => ?_⟩
    · rw [hsplit, parseInitialWords_of_leftmost_bad after hbefore htok] at hws; cases hws
    · rw [parseInitialWords_of_integers hvs] at hws
      cases hws
      exact (step_of_pending hp).trans h

end Sys2Proof.Machine
end

section
/-! What a step serves (20_memory.md R58, 42_decoder.md): the oldest operation, once, and a word handed to the decoder
as the instruction it stands for. Settles O28, O26 and O27. -/

namespace Sys2Proof.Machine

/-! ### What serving an operation looks at and leaves -/

/-- The operation looks at the instances only: it stops, or it answers and leaves the list of operations as it is. -/
def AnswersFromInstances (op : State → Host.Outcome State Fault Refusal) : Prop :=
  ∀ ms : List Memory, (∃ f, ∀ p q, op ⟨ms, p, q⟩ = .fault f) ∨
    ∃ ms' a, ∀ p q, op ⟨ms, p, q⟩ = .next ⟨ms', p, some a⟩

theorem memRead_answersFromInstances (inst : Nat) (addr : Int) : AnswersFromInstances (memRead inst addr) := by
  intro ms
  cases hm : ms[inst]? with
  | none => exact .inl ⟨.noSuchInstance inst, fun p q => by simp only [memRead, hm]⟩
  | some m =>
    obtain ⟨a, ha⟩ := answerWith_uniform .rdata (m.read addr)
    exact .inr ⟨ms, a, fun p q => by simp only [memRead, hm, ha]; rfl⟩

theorem memWrite_answersFromInstances (inst : Nat) (addr value : Int) (be : ByteEnable) :
    AnswersFromInstances (memWrite inst addr value be) := by
  intro ms
  cases hm : ms[inst]? with
  | none => exact .inl ⟨.noSuchInstance inst, fun p q => by simp only [memWrite, hm]⟩
  | some m =>
    rcases m.slotIndex_cases addr with ⟨-, he⟩ | ⟨-, -, he⟩ | ⟨k, rfl, hk, -⟩
    · exact .inr ⟨_, _, fun _ _ => memWrite_of_error hm he value be⟩
    · exact .inr ⟨_, _, fun _ _ => memWrite_of_error hm he value be⟩
    · exact .inr ⟨_, _, fun _ _ => memWrite_slot hm hk value be⟩

theorem memReset_answersFromInstances (inst : Nat) : AnswersFromInstances (memReset inst) := by
  intro ms
  cases hm : ms[inst]? with
  | none => exact .inl ⟨.noSuchInstance inst, fun p q => by simp only [memReset, hm]⟩
  | some m => exact .inr ⟨_, _, fun _ _ => memReset_of_some hm⟩

theorem memNew_answersFromInstances (c : Int) (ws : List Int) : AnswersFromInstances (memNew c ws) := by
  intro ms
  by_cases hc : c < 0
  · exact .inr ⟨_, _, fun _ _ => if_pos hc⟩
  · simp only [memNew, if_neg hc]
    cases Memory.create c ws with
    | error e => exact .inr ⟨_, _, fun _ _ => rfl⟩
    | ok m => exact .inr ⟨ms ++ [m], .created ms.length, fun _ _ => rfl⟩

theorem memNewFromString_answersFromInstances (c : Int) (text : Text) :
    AnswersFromInstances (memNewFromString c text) := by
  intro ms
  by_cases hc : c < 0
  · exact .inr ⟨_, _, fun _ _ => if_pos hc⟩
  · simp only [memNewFromString, if_neg hc]
    cases parseInitialWords (splitSpaces text) with
    | error e => exact .inr ⟨_, _, fun _ _ => rfl⟩
    | ok ws => exact memNew_answersFromInstances c ws ms

theorem storeHalf_answersFromInstances (inst : Nat) (addr value : Int) :
    AnswersFromInstances (storeHalf inst addr value) := by
  intro ms
  by_cases h : addr % 2 ≠ 0
  · exact .inr ⟨_, _, fun _ _ => if_pos h⟩
  · simp only [storeHalf, if_neg h]
    exact memWrite_answersFromInstances _ _ _ _ ms

/-- An operation with one answer for every state looks at nothing at all. -/
theorem AnswersFromInstances.of_uniform {op : State → Host.Outcome State Fault Refusal}
    (h : ∃ a, ∀ s, op s = .next (s.answer a)) : AnswersFromInstances op := by
  obtain ⟨a, ha⟩ := h
  exact fun ms => .inr ⟨ms, a, fun p q => ha ⟨ms, p, q⟩⟩

theorem serve_answersFromInstances (r : Request) : AnswersFromInstances (serve r) := by
  cases r with
  | memNew c ws => exact memNew_answersFromInstances c ws
  | memNewFromString c text => exact memNewFromString_answersFromInstances c text
  | memRead inst addr => exact memRead_answersFromInstances inst addr
  | memReset inst => exact memReset_answersFromInstances inst
  | memWrite | storeByte | storeWord => exact memWrite_answersFromInstances _ _ _ _
  | storeHalf inst addr value => exact storeHalf_answersFromInstances inst addr value
  | _ => exact .of_uniform (serve_uniform rfl (by simp) (by simp))

/-- Settles O28: serving looks at the instances only, and replaces the response and not the list. -/
theorem eachStepServesExactlyTheOldestOperation : Obligations.EachStepServesExactlyTheOldestOperation := by
  unfold Obligations.EachStepServesExactlyTheOldestOperation
  intro s r rest hp
  have hstep : ∀ q, step { s with response := q } = serve r ⟨s.instances, rest, q⟩ := fun _ => step_of_pending hp
  have hs : step s = serve r ⟨s.instances, rest, s.response⟩ := step_of_pending hp
  rcases serve_answersFromInstances r s.instances with ⟨f, hf⟩ | ⟨ms, a, ha⟩
  · exact ⟨hs, fun q => by rw [hstep, hs, hf, hf], fun t h => by rw [hs, hf] at h; cases h⟩
  · refine ⟨hs, fun q => by rw [hstep, hs, ha, ha], fun t h => ?_⟩
    rw [hs, ha] at h; cases h
    exact ⟨rfl, rfl⟩

/-! ### A word handed to the decoder -/

theorem serve_decode_of_ok {w : Word} {i : Instr} (h : decode w = .ok i) (s : State) :
    serve (.decode w) s = exec i s := by
  simp only [serve, h]

/-- Settles O26: the step serves the word, and serving it runs its instruction. -/
theorem stepRunsTheDecodedInstruction : Obligations.StepRunsTheDecodedInstruction := by
  unfold Obligations.StepRunsTheDecodedInstruction
  intro s w rest i hp hw
  rw [step_of_pending hp, serve_decode_of_ok hw]

theorem decode_tableWord {nbits w : Nat} {i : Instr} (h : decodeTableWord nbits w = some i) :
    decode (tableWord nbits w) = .ok i := by
  unfold decodeTableWord at h
  split at h
  case h_1 j hj => rw [hj, Option.some.inj h]
  case h_2 => cases h

/-- Settles O27: the word is the oldest operation, and without it the state is as it was. -/
theorem withFetchWordRunsTheWordNext : Obligations.WithFetchWordRunsTheWordNext := by
  unfold Obligations.WithFetchWordRunsTheWordNext
  intro s nbits w i h
  exact (step_of_pending rfl).trans (serve_decode_of_ok (decode_tableWord h) s)

end Sys2Proof.Machine
end

section
/-! The fields and the immediates of every word (30_encoding.md R71, R74 to R80): their places, their sign and the
values they take. Settles O1, O3 and O4. -/

namespace Sys2Proof

/-! ### The fields -/

/-- A slice in numbers: the quotient by the bits below it, modulo its width. -/
theorem slice_toNat (w : Word) (lo len : Nat) : (w.extractLsb' lo len).toNat = w.toNat / 2 ^ lo % 2 ^ len := by
  rw [BitVec.extractLsb'_toNat, Nat.shiftRight_eq_div_pow]

/-- Settles O1: each field is the slice at its position. -/
theorem decoderReadsEachFieldAtItsPosition : Obligations.DecoderReadsEachFieldAtItsPosition := by
  unfold Obligations.DecoderReadsEachFieldAtItsPosition
  intro cfg w
  have hop : (w.extractLsb' 0 7).toNat = w.toNat % 2 ^ 7 := by rw [slice_toNat, pow_zero, Nat.div_one]
  exact ⟨hop, slice_toNat w 7 5, slice_toNat w 12 3, slice_toNat w 15 5, slice_toNat w 20 5, slice_toNat w 25 7⟩

/-! ### The sign of an immediate -/

/-- A slice that reaches up to bit 31 has the word's sign. -/
theorem top_slice_msb (w : Word) {lo len : Nat} (h : lo + len = 32) (hlen : 0 < len := by decide) :
    (w.extractLsb' lo len).msb = w.getLsbD 31 := by
  simp [BitVec.msb_extractLsb', hlen, h, BitVec.getMsbD]

/-- Bits put below leave the sign as it is. -/
theorem append_msb {m n : Nat} {x : BitVec m} {y : BitVec n} {sign : Bool} (hx : x.msb = sign)
    (hm : m ≠ 0 := by decide) : (x ++ y).msb = sign := by
  rw [BitVec.msb_append, if_neg hm, hx]

/-- Sign extension leaves the sign as it is. -/
theorem signExtend_msb {k : Nat} {x : BitVec k} {sign : Bool} (hx : x.msb = sign) (hk : k ≤ 32 := by decide) :
    (x.signExtend 32).msb = sign := by
  rw [BitVec.msb_eq_toInt, BitVec.toInt_signExtend_of_le hk, ← BitVec.msb_eq_toInt, hx]

/-- Settles O3: each immediate is made of slices of which the topmost reaches up to bit 31. -/
theorem wordBit31IsTheSignOfEveryImmediate : Obligations.WordBit31IsTheSignOfEveryImmediate := by
  unfold Obligations.WordBit31IsTheSignOfEveryImmediate
  intro cfg w
  have hI : (immIOf w).msb = w.getLsbD 31 := signExtend_msb (top_slice_msb w rfl)
  have hS : (immSOf w).msb = w.getLsbD 31 := signExtend_msb (append_msb (top_slice_msb w rfl))
  have hB : (immBOf w).msb = w.getLsbD 31 :=
    signExtend_msb (append_msb (append_msb (append_msb (append_msb (top_slice_msb w rfl)))))
  have hU : (immUOf w).msb = w.getLsbD 31 := append_msb (top_slice_msb w rfl)
  have hJ : (immJOf w).msb = w.getLsbD 31 :=
    signExtend_msb (append_msb (append_msb (append_msb (append_msb (top_slice_msb w rfl)))))
  exact ⟨hI, hS, hB, hU, hJ⟩

/-! ### The values of an immediate -/

/-- `n + 1` bits hold exactly the signed numbers from `-2^n` to `2^n - 1`. -/
theorem exists_toInt_eq_iff (n : Nat) (v : Int) : (∃ x : BitVec (n + 1), x.toInt = v) ↔ -2 ^ n ≤ v ∧ v < 2 ^ n := by
  constructor
  · rintro ⟨x, rfl⟩
    exact ⟨x.le_toInt, x.toInt_lt⟩
  · rintro ⟨hlo, hhi⟩
    exact ⟨BitVec.ofInt (n + 1) v, BitVec.toInt_ofInt_eq_self (Nat.succ_pos n) hlo hhi⟩

/-- Times `c > 0`, they are exactly the multiples of `c` in the scaled range. -/
theorem exists_scaled_toInt_eq_iff (n : Nat) {c : Int} (hc : 0 < c) (v : Int) :
    (∃ x : BitVec (n + 1), c * x.toInt = v) ↔ c * -2 ^ n ≤ v ∧ v < c * 2 ^ n ∧ v % c = 0 := by
  constructor
  · rintro ⟨x, rfl⟩
    exact ⟨Int.mul_le_mul_of_nonneg_left x.le_toInt hc.le, Int.mul_lt_mul_of_pos_left x.toInt_lt hc,
      Int.mul_emod_right ..⟩
  · rintro ⟨hlo, hhi, hdvd⟩
    obtain ⟨q, rfl⟩ := Int.dvd_of_emod_eq_zero hdvd
    obtain ⟨x, hx⟩ := (exists_toInt_eq_iff n q).mpr
      ⟨Int.le_of_mul_le_mul_left hlo hc, Int.lt_of_mul_lt_mul_left hhi hc.le⟩
    exact ⟨x, by rw [hx]⟩

theorem immIOf_values (v : Int) : (∃ w, (immIOf w).toInt = v) ↔ ∃ x : BitVec 12, x.toInt = v := by
  constructor
  · rintro ⟨w, rfl⟩
    exact ⟨w.extractLsb' 20 12, (BitVec.toInt_signExtend_of_le (by decide)).symm⟩
  · rintro ⟨x, rfl⟩
    exact ⟨packI 0 0 0 0 x, by rw [immIOf_packI, BitVec.toInt_signExtend_of_le (by decide)]⟩

theorem immSOf_values (v : Int) : (∃ w, (immSOf w).toInt = v) ↔ ∃ x : BitVec 12, x.toInt = v := by
  constructor
  · rintro ⟨w, rfl⟩
    exact ⟨w.extractLsb' 25 7 ++ w.extractLsb' 7 5, (BitVec.toInt_signExtend_of_le (by decide)).symm⟩
  · rintro ⟨x, rfl⟩
    exact ⟨packS 0 0 0 0 x, by rw [immSOf_packS, BitVec.toInt_signExtend_of_le (by decide)]⟩

/-- Bits with twelve zero bits below are 4096 times their number. -/
theorem upper_toInt (x : BitVec 20) : (x ++ 0#12).toInt = 4096 * x.toInt := BitVec.toInt_append_zero

/-- The sign extension of bits with one zero bit below is twice their number. -/
theorem doubled_toInt {k : Nat} (x : BitVec k) (hk : k + 1 ≤ 32) : ((x ++ 0#1).signExtend 32).toInt = 2 * x.toInt := by
  rw [BitVec.toInt_signExtend_of_le hk, BitVec.toInt_append_zero, pow_one]

theorem immBOf_values (v : Int) : (∃ w, (immBOf w).toInt = v) ↔ ∃ x : BitVec 12, 2 * x.toInt = v := by
  constructor
  · rintro ⟨w, rfl⟩
    exact ⟨w.extractLsb' 31 1 ++ w.extractLsb' 7 1 ++ w.extractLsb' 25 6 ++ w.extractLsb' 8 4,
      (doubled_toInt _ (by decide)).symm⟩
  · rintro ⟨x, rfl⟩
    exact ⟨packB 0 0 0 0 (x ++ 0#1), by
      rw [immBOf_packB, BitVec.extractLsb'_append_eq_left, doubled_toInt x (by decide)]⟩

theorem immUOf_values (v : Int) : (∃ w, (immUOf w).toInt = v) ↔ ∃ x : BitVec 20, 4096 * x.toInt = v := by
  constructor
  · rintro ⟨w, rfl⟩
    exact ⟨w.extractLsb' 12 20, (upper_toInt _).symm⟩
  · rintro ⟨x, rfl⟩
    exact ⟨packU 0 0 x, by rw [immUOf_packU, upper_toInt]⟩

theorem immJOf_values (v : Int) : (∃ w, (immJOf w).toInt = v) ↔ ∃ x : BitVec 20, 2 * x.toInt = v := by
  constructor
  · rintro ⟨w, rfl⟩
    exact ⟨w.extractLsb' 31 1 ++ w.extractLsb' 12 8 ++ w.extractLsb' 20 1 ++ w.extractLsb' 21 10,
      (doubled_toInt _ (by decide)).symm⟩
  · rintro ⟨x, rfl⟩
    exact ⟨packJ 0 0 (x ++ 0#1), by
      rw [immJOf_packJ, BitVec.extractLsb'_append_eq_left, doubled_toInt x (by decide)]⟩

/-- Settles O4: an immediate is the number of its stored bits, times the weight of the lowest of them, and its format's
packer stores any bits. -/
theorem immediatesTakeExactlyTheirRanges : Obligations.ImmediatesTakeExactlyTheirRanges := by
  unfold Obligations.ImmediatesTakeExactlyTheirRanges
  intro cfg v
  refine ⟨(immIOf_values v).trans ?_, (immSOf_values v).trans ?_, (immBOf_values v).trans ?_,
    (immUOf_values v).trans ?_, (immJOf_values v).trans ?_⟩
  · rw [exists_toInt_eq_iff 11]; omega
  · rw [exists_toInt_eq_iff 11]; omega
  · rw [exists_scaled_toInt_eq_iff 11 (by decide)]; omega
  · rw [exists_scaled_toInt_eq_iff 19 (by decide)]; omega
  · rw [exists_scaled_toInt_eq_iff 19 (by decide)]; omega

end Sys2Proof
end

section
/-! The words of no row and the words the decoder knows (30_encoding.md R82 to R85, 41_isa_tables.md R101, R105): the
table's rows share no key, and each opcode's rows admit few selectors. Settles O9 and O10. -/

namespace Sys2Proof

/-! ### The table -/

/-- The nine opcodes that select a format (R82). -/
def formatOpcodes : List Opcode := [0x03#7, 0x13#7, 0x17#7, 0x23#7, 0x33#7, 0x37#7, 0x63#7, 0x67#7, 0x6F#7]

/-- Everything `format_of` can answer: `NONE` for an opcode of no entry, else the format of an entry that has it. -/
theorem formatOf_cases (cfg : Config) (op : Opcode) :
    (formatOf cfg op = .NONE ∧ ∀ entry ∈ cfg.formatTable, entry.1 ≠ op) ∨
    ∃ entry ∈ cfg.formatTable, entry.1 = op ∧ formatOf cfg op = entry.2 := by
  unfold formatOf
  cases h : cfg.formatTable.find? (fun entry => entry.1 == op) with
  | none => exact .inl ⟨rfl, by simpa using h⟩
  | some entry => exact .inr ⟨entry, List.mem_of_find?_eq_some h, by simpa using List.find?_some h, rfl⟩

theorem formatOf_eq_none_iff (op : Opcode) : formatOf machineConfig op = .NONE ↔ op ∉ formatOpcodes := by
  have hentries : ∀ entry ∈ isaFormats, entry.1 ∈ formatOpcodes ∧ entry.2 ≠ .NONE := by decide
  have hopcodes : ∀ op ∈ formatOpcodes, ∃ entry ∈ isaFormats, entry.1 = op := by decide
  rcases formatOf_cases machineConfig op with ⟨hnone, hno⟩ | ⟨entry, hmem, rfl, hf⟩
  · refine iff_of_true hnone fun hop => ?_
    obtain ⟨entry, hmem, he⟩ := hopcodes op hop
    exact hno entry hmem he
  · obtain ⟨hop, hne⟩ := hentries entry hmem
    exact iff_of_false (hf ▸ hne) (not_not_intro hop)

/-- Two key fields admit a value in common: equal, or one of them no part of its key (R105). -/
def keysMeet {n : Nat} : Option (BitVec n) → Option (BitVec n) → Bool
  | some k, some k' => k == k'
  | _, _ => true

theorem keysMeet_of_admit {n : Nat} {key key' : Option (BitVec n)} {value : BitVec n}
    (h : ∀ k, key = some k → k = value) (h' : ∀ k, key' = some k → k = value) : keysMeet key key' = true := by
  cases key with
  | none => rfl
  | some k =>
    cases key' with
    | none => rfl
    | some k' => rw [keysMeet, h k rfl, h' k' rfl, beq_self_eq_true]

/-- No key matches two rows (R107). -/
theorem row_eq_of_hits {row row' : TableRow} {op : Opcode} {f3 : Funct3} {f7 : Funct7} (hrow : row ∈ isaTable)
    (hrow' : row' ∈ isaTable) (h : row.hits op f3 f7 = true) (h' : row'.hits op f3 f7 = true) : row = row' := by
  have hmeet : ∀ row ∈ isaTable, ∀ row' ∈ isaTable, row.opcode = row'.opcode → keysMeet row.funct3 row'.funct3 = true →
      keysMeet row.funct7 row'.funct7 = true → row = row' := by decide
  obtain ⟨hop, h3, h7⟩ := (row.hits_iff op f3 f7).mp h
  obtain ⟨hop', h3', h7'⟩ := (row'.hits_iff op f3 f7).mp h'
  exact hmeet row hrow row' hrow' (hop.trans hop'.symm) (keysMeet_of_admit h3 h3') (keysMeet_of_admit h7 h7')

/-- A row that has the key gives its mnemonic. -/
theorem mnemonicOf_of_hits {row : TableRow} {op : Opcode} {f3 : Funct3} {f7 : Funct7} (hrow : row ∈ isaTable)
    (h : row.hits op f3 f7 = true) : mnemonicOf machineConfig op f3 f7 = row.mnemonic := by
  rcases mnemonicOf_cases machineConfig op f3 f7 with ⟨-, hno⟩ | ⟨row', hrow', h', hm⟩
  · rw [hno row hrow] at h; cases h
  · rw [hm, row_eq_of_hits hrow hrow' h h']

/-- A row that has the key gives its format (R101, R104). -/
theorem formatOf_of_hits {row : TableRow} {op : Opcode} {f3 : Funct3} {f7 : Funct7} (hrow : row ∈ isaTable)
    (h : row.hits op f3 f7 = true) : formatOf machineConfig op = row.format := by
  have hformat : ∀ row ∈ isaTable, formatOf machineConfig row.opcode = row.format := by decide
  obtain ⟨hop, -, -⟩ := (row.hits_iff op f3 f7).mp h
  rw [← hop, hformat row hrow]

theorem mnemonicOf_eq_unknown_iff (op : Opcode) (f3 : Funct3) (f7 : Funct7) :
    mnemonicOf machineConfig op f3 f7 = .unknown ↔ ∀ row ∈ isaTable, row.hits op f3 f7 = false := by
  have hnamed : ∀ row ∈ isaTable, row.mnemonic ≠ .unknown := by decide
  rcases mnemonicOf_cases machineConfig op f3 f7 with ⟨hm, hno⟩ | ⟨row, hrow, h, hm⟩
  · exact iff_of_true hm hno
  · refine iff_of_false (hm ▸ hnamed row hrow) fun hno => ?_
    rw [hno row hrow] at h; cases h

/-- The name is `unknown` when no row of the opcode admits the function fields. -/
theorem mnemonicOf_eq_unknown {op : Opcode} {f3 : Funct3} {f7 : Funct7}
    (h : ∀ row ∈ isaTable, row.opcode = op → (∀ k, row.funct3 = some k → k = f3) → (∀ k, row.funct7 = some k → k = f7) →
      False) : mnemonicOf machineConfig op f3 f7 = .unknown := by
  refine (mnemonicOf_eq_unknown_iff op f3 f7).mpr fun row hrow => Bool.eq_false_iff.mpr fun hit => ?_
  obtain ⟨hop, h3, h7⟩ := (row.hits_iff op f3 f7).mp hit
  exact h row hrow hop h3 h7

/-- An opcode without a format has no row (R83). -/
theorem mnemonicOf_of_not_mem {op : Opcode} (h : op ∉ formatOpcodes) (f3 : Funct3) (f7 : Funct7) :
    mnemonicOf machineConfig op f3 f7 = .unknown := by
  have hrows : ∀ row ∈ isaTable, row.opcode ∈ formatOpcodes := by decide
  exact mnemonicOf_eq_unknown fun row hrow hop _ _ => h (hop ▸ hrows row hrow)

/-! ### The decoder's two outputs -/

theorem ofWord_format {w : Word} {op : Opcode} (h : (Decoded.ofWord machineConfig w).opcode = op) :
    (Decoded.ofWord machineConfig w).format = formatOf machineConfig op := by
  rw [← h]; rfl

theorem ofWord_mnemonic {w : Word} {op : Opcode} {f3 : Funct3} {f7 : Funct7}
    (hop : (Decoded.ofWord machineConfig w).opcode = op) (h3 : (Decoded.ofWord machineConfig w).funct3 = f3)
    (h7 : (Decoded.ofWord machineConfig w).funct7 = f7) :
    (Decoded.ofWord machineConfig w).mnemonic = mnemonicOf machineConfig op f3 f7 := by
  rw [← hop, ← h3, ← h7]; rfl

/-- A record names an instruction unless its mnemonic is `unknown`. -/
theorem toInstr_eq_none_iff (d : Decoded) : d.toInstr = none ↔ d.mnemonic = .unknown := by
  unfold Decoded.toInstr
  cases d.mnemonic <;> simp

theorem decode_of_unknown {w : Word} (h : (Decoded.ofWord machineConfig w).mnemonic = .unknown) :
    decode w = .error (if (Decoded.ofWord machineConfig w).format = .NONE
      then .unknownOpcode (Decoded.ofWord machineConfig w).opcode
      else .noMatchingRow (Decoded.ofWord machineConfig w).format (Decoded.ofWord machineConfig w).funct3
        (Decoded.ofWord machineConfig w).funct7) := by
  simp only [decode, (toInstr_eq_none_iff _).mpr h]

theorem decode_of_known {w : Word} (h : (Decoded.ofWord machineConfig w).mnemonic ≠ .unknown) :
    ∃ i, decode w = .ok i := by
  obtain ⟨i, hi⟩ := Option.ne_none_iff_exists'.mp (mt (toInstr_eq_none_iff _).mp h)
  exact ⟨i, Laws.RoundTrip.of_record hi⟩

/-- Settles O9: the name is the row's that has the key, and the format the opcode's. -/
theorem wordsOfNoRowDecodeAsUnknown : Obligations.WordsOfNoRowDecodeAsUnknown := by
  unfold Obligations.WordsOfNoRowDecodeAsUnknown
  intro w d known unmatched
  have hunknown : d.mnemonic = .unknown ↔ unmatched := mnemonicOf_eq_unknown_iff ..
  have hnone : d.format = .NONE ↔ d.opcode ∉ known := formatOf_eq_none_iff d.opcode
  have hrow : ∀ row ∈ isaTable, row.hits d.opcode d.funct3 d.funct7 = true →
      d.mnemonic = row.mnemonic ∧ d.format = row.format := fun row hrow h =>
    ⟨mnemonicOf_of_hits hrow h, formatOf_of_hits hrow h⟩
  have hI : ∀ op ∈ [0x13#7, 0x03#7, 0x67#7], formatOf machineConfig op = .I := by decide
  have hU : ∀ op ∈ [0x37#7, 0x17#7], formatOf machineConfig op = .U := by decide
  refine ⟨hunknown, hrow, hnone, fun hop => ?_, fun hop hun => ?_, ofWord_format, hI d.opcode, ofWord_format,
    ofWord_format, hU d.opcode, ofWord_format, fun h => decode_of_known (mt hunknown.mp h)⟩
  · have hm : d.mnemonic = .unknown := mnemonicOf_of_not_mem hop ..
    exact ⟨hunknown.mp hm, by rw [decode_of_unknown hm, if_pos (hnone.mpr hop)]⟩
  · rw [decode_of_unknown (hunknown.mpr hun), if_neg fun h => hnone.mp h hop]

/-! ### The function fields that the rows of an opcode have (R82) -/

/-- The name is `unknown`, and the format the opcode's, for a funct3 that none of the opcode's rows has. -/
theorem outputs_of_funct3_not_mem {w : Word} {op : Opcode} {assigned : List Funct3}
    (hrows : ∀ row ∈ isaTable, row.opcode = op → row.funct3 ∈ assigned.map some)
    (hop : (Decoded.ofWord machineConfig w).opcode = op) (h : (Decoded.ofWord machineConfig w).funct3 ∉ assigned) :
    (Decoded.ofWord machineConfig w).format = formatOf machineConfig op ∧
      (Decoded.ofWord machineConfig w).mnemonic = .unknown := by
  refine ⟨ofWord_format hop, (ofWord_mnemonic hop rfl rfl).trans (mnemonicOf_eq_unknown fun row hrow hrop h3 _ => ?_)⟩
  obtain ⟨k, hk, hkey⟩ := List.mem_map.mp (hrows row hrow hrop)
  exact h (h3 k hkey.symm ▸ hk)

/-- The same for a funct7 that none of the rows of the opcode and funct3 has. -/
theorem outputs_of_funct7_not_mem {w : Word} {op : Opcode} {f3 : Funct3} {selectors : List Funct7}
    (hrows : ∀ row ∈ isaTable, row.opcode = op → row.funct3 ∈ [none, some f3] → row.funct7 ∈ selectors.map some)
    (hop : (Decoded.ofWord machineConfig w).opcode = op) (hf3 : (Decoded.ofWord machineConfig w).funct3 = f3)
    (h : (Decoded.ofWord machineConfig w).funct7 ∉ selectors) :
    (Decoded.ofWord machineConfig w).format = formatOf machineConfig op ∧
      (Decoded.ofWord machineConfig w).mnemonic = .unknown := by
  refine ⟨ofWord_format hop, (ofWord_mnemonic hop hf3 rfl).trans (mnemonicOf_eq_unknown fun row hrow hrop h3 h7 => ?_)⟩
  have hkey3 : row.funct3 ∈ [none, some f3] := by
    cases hkey : row.funct3 with
    | none => exact List.mem_cons_self
    | some k => rw [h3 k hkey]; exact List.mem_cons_of_mem _ List.mem_cons_self
  obtain ⟨k, hk, hkey⟩ := List.mem_map.mp (hrows row hrow hrop hkey3)
  exact h (h7 k hkey.symm ▸ hk)

theorem opRows_funct7 : ∀ row ∈ isaTable, row.opcode = 0x33#7 → row.funct7 ∈ [0x00#7, 0x20#7].map some := by decide

theorem slliRows_funct7 : ∀ row ∈ isaTable, row.opcode = 0x13#7 → row.funct3 ∈ [none, some 1#3] →
    row.funct7 ∈ [0x00#7].map some := by decide

theorem shiftRightRows_funct7 : ∀ row ∈ isaTable, row.opcode = 0x13#7 → row.funct3 ∈ [none, some 5#3] →
    row.funct7 ∈ [0x00#7, 0x20#7].map some := by decide

theorem loadRows_funct3 : ∀ row ∈ isaTable, row.opcode = 0x03#7 → row.funct3 ∈ [0#3, 1#3, 2#3, 4#3, 5#3].map some := by
  decide

theorem jalrRows_funct3 : ∀ row ∈ isaTable, row.opcode = 0x67#7 → row.funct3 ∈ [0#3].map some := by decide

theorem storeRows_funct3 : ∀ row ∈ isaTable, row.opcode = 0x23#7 → row.funct3 ∈ [0#3, 1#3, 2#3].map some := by decide

theorem branchRows_funct3 : ∀ row ∈ isaTable, row.opcode = 0x63#7 →
    row.funct3 ∈ [0#3, 1#3, 4#3, 5#3, 6#3, 7#3].map some := by decide

/-- Settles O10: an excluded word has a field that no row of its opcode has, and both outputs are functions of the three
fields. -/
theorem excludedEncodingsDecodeAsUnknown : Obligations.ExcludedEncodingsDecodeAsUnknown := by
  unfold Obligations.ExcludedEncodingsDecodeAsUnknown
  have hlow : ∀ op ∈ formatOpcodes, op.extractLsb' 0 2 = 3#2 := by decide
  have hsystem : ∀ op, op = 0x0F#7 ∨ op = 0x73#7 → op ∉ formatOpcodes := by rintro op (rfl | rfl) <;> decide
  have hmul : 0x01#7 ∉ [0x00#7, 0x20#7] := by decide
  have hload : ∀ f3 ∈ [3#3, 6#3, 7#3], f3 ∉ [0#3, 1#3, 2#3, 4#3, 5#3] := by decide
  have hbranch : ∀ f3 ∈ [2#3, 3#3], f3 ∉ [0#3, 1#3, 4#3, 5#3, 6#3, 7#3] := by decide
  constructor
  · intro w d
    have hnone (h : d.opcode ∉ formatOpcodes) : d.format = .NONE ∧ d.mnemonic = .unknown :=
      ⟨(formatOf_eq_none_iff _).mpr h, mnemonicOf_of_not_mem h ..⟩
    refine ⟨fun h => hnone (mt (hlow _) h), fun h => hnone (hsystem _ h), hnone, ?mul, ?slli, ?shiftRight,
      ?load, ?jalr, ?store, ?branch, ?addi⟩
    case mul =>
      exact fun hop h7 =>
        outputs_of_funct7_not_mem (fun row hrow hop _ => opRows_funct7 row hrow hop) hop rfl (h7 ▸ hmul)
    case slli =>
      exact fun hop h3 h7 => outputs_of_funct7_not_mem slliRows_funct7 hop h3 (mt List.mem_singleton.mp h7)
    case shiftRight =>
      exact fun hop h3 h7 h7' => outputs_of_funct7_not_mem shiftRightRows_funct7 hop h3 (by simpa using ⟨h7, h7'⟩)
    case load => exact fun hop h3 => outputs_of_funct3_not_mem loadRows_funct3 hop (hload _ h3)
    case jalr => exact fun hop h3 => outputs_of_funct3_not_mem jalrRows_funct3 hop (mt List.mem_singleton.mp h3)
    case store => exact fun hop h3 => outputs_of_funct3_not_mem storeRows_funct3 hop h3
    case branch => exact fun hop h3 => outputs_of_funct3_not_mem branchRows_funct3 hop (hbranch _ h3)
    case addi => exact fun hop h3 => ⟨ofWord_format hop, ofWord_mnemonic hop h3 rfl⟩
  · intro w w' d d' hop h3 h7
    exact ⟨ofWord_format hop, ofWord_mnemonic hop h3 h7⟩

end Sys2Proof
end

section
/-! Decoding and encoding are inverse (41_isa_tables.md R105, R107; 43_encoder.md R151): each well-formed instruction
comes back from its word, and each word that decodes is its instruction's. Settles O6 and O7. -/

namespace Sys2Proof

/-! ### From an instruction to its word and back -/

/-- The family RoundTrip, whole. -/
theorem Laws.RoundTrip.statement : ∀ i : Instr, Statement i
  | .add rd rs1 rs2 => add rd rs1 rs2
  | .sub rd rs1 rs2 => sub rd rs1 rs2
  | .sll rd rs1 rs2 => sll rd rs1 rs2
  | .slt rd rs1 rs2 => slt rd rs1 rs2
  | .sltu rd rs1 rs2 => sltu rd rs1 rs2
  | .xor rd rs1 rs2 => xor rd rs1 rs2
  | .srl rd rs1 rs2 => srl rd rs1 rs2
  | .sra rd rs1 rs2 => sra rd rs1 rs2
  | .or rd rs1 rs2 => or rd rs1 rs2
  | .and rd rs1 rs2 => and rd rs1 rs2
  | .addi rd rs1 imm => addi rd rs1 imm
  | .slti rd rs1 imm => slti rd rs1 imm
  | .sltiu rd rs1 imm => sltiu rd rs1 imm
  | .xori rd rs1 imm => xori rd rs1 imm
  | .ori rd rs1 imm => ori rd rs1 imm
  | .andi rd rs1 imm => andi rd rs1 imm
  | .slli rd rs1 shamt => slli rd rs1 shamt
  | .srli rd rs1 shamt => srli rd rs1 shamt
  | .srai rd rs1 shamt => srai rd rs1 shamt
  | .lb rd rs1 offset => lb rd rs1 offset
  | .lh rd rs1 offset => lh rd rs1 offset
  | .lw rd rs1 offset => lw rd rs1 offset
  | .lbu rd rs1 offset => lbu rd rs1 offset
  | .lhu rd rs1 offset => lhu rd rs1 offset
  | .jalr rd rs1 imm => jalr rd rs1 imm
  | .sb rs1 rs2 offset => sb rs1 rs2 offset
  | .sh rs1 rs2 offset => sh rs1 rs2 offset
  | .sw rs1 rs2 offset => sw rs1 rs2 offset
  | .beq rs1 rs2 offset => beq rs1 rs2 offset
  | .bne rs1 rs2 offset => bne rs1 rs2 offset
  | .blt rs1 rs2 offset => blt rs1 rs2 offset
  | .bge rs1 rs2 offset => bge rs1 rs2 offset
  | .bltu rs1 rs2 offset => bltu rs1 rs2 offset
  | .bgeu rs1 rs2 offset => bgeu rs1 rs2 offset
  | .lui rd imm20 => lui rd imm20
  | .auipc rd imm20 => auipc rd imm20
  | .jal rd offset => jal rd offset

/-- Settles O6, by the round trip of each instruction. -/
theorem decodeOfEncodeIsTheInstruction : Obligations.DecodeOfEncodeIsTheInstruction :=
  Laws.RoundTrip.statement

/-! ### The word that the fields of a word pack -/

/-- The row of a mnemonic (R104, R106). -/
def rowOf (m : Mnemonic) : Option TableRow := isaTable.find? (fun row => row.mnemonic == m)

theorem rowOf_eq_some_iff (m : Mnemonic) (row : TableRow) : rowOf m = some row ↔ row ∈ isaTable ∧ row.mnemonic = m := by
  have hself : ∀ row ∈ isaTable, rowOf row.mnemonic = some row := by decide
  constructor
  · intro h
    exact ⟨List.mem_of_find?_eq_some h, by simpa using List.find?_some h⟩
  · rintro ⟨hrow, rfl⟩
    exact hself row hrow

/-- The key of a row matches the three key fields of a word. -/
def TableRow.hitsWord (row : TableRow) (w : Word) : Prop :=
  row.hits (w.extractLsb' 0 7) (w.extractLsb' 12 3) (w.extractLsb' 25 7) = true

/-- A word with a name has the key of that name's row. -/
theorem hitsWord_of_rowOf {w : Word} {row : TableRow} (h : rowOf (Decoded.ofWord machineConfig w).mnemonic = some row) :
    row.hitsWord w := by
  have hnamed : ∀ row ∈ isaTable, row.mnemonic ≠ .unknown := by decide
  obtain ⟨hrow, hm⟩ := (rowOf_eq_some_iff _ _).mp h
  rcases mnemonicOf_cases machineConfig (w.extractLsb' 0 7) (w.extractLsb' 12 3) (w.extractLsb' 25 7)
    with ⟨hunknown, -⟩ | ⟨row', hrow', hhits, hm'⟩
  · exact absurd (hm.trans hunknown) (hnamed row hrow)
  · have hsame : rowOf row.mnemonic = some row' := (rowOf_eq_some_iff _ _).mpr ⟨hrow', (hm.trans hm').symm⟩
    rw [(rowOf_eq_some_iff _ _).mpr ⟨hrow, rfl⟩] at hsame
    cases hsame
    exact hhits

theorem hitsWord_iff {m : Mnemonic} {f : Format} {op : Opcode} {key3 : Option Funct3} {key7 : Option Funct7}
    {w : Word} :
    (⟨m, f, op, key3, key7⟩ : TableRow).hitsWord w ↔
      op = w.extractLsb' 0 7 ∧ (∀ k, key3 = some k → k = w.extractLsb' 12 3) ∧
        (∀ k, key7 = some k → k = w.extractLsb' 25 7) :=
  TableRow.hits_iff ..

/-- A word is the U word of its three fields (R73). -/
theorem packU_fields (w : Word) :
    packU (w.extractLsb' 0 7) (w.extractLsb' 7 5) (w.extractLsb' 12 20) = w := by
  apply BitVec.eq_of_toNat_eq
  rw [packU_toNat]
  simp only [BitVec.extractLsb'_toNat, Nat.shiftRight_eq_div_pow]
  omega

/-- The slices of a B offset that is put together from its four parts (R76). -/
theorem offset13_slices (a b : BitVec 1) (c : BitVec 6) (d : BitVec 4) :
    let offset : BitVec 13 := a ++ b ++ c ++ d ++ 0#1
    offset.extractLsb' 12 1 = a ∧ offset.extractLsb' 5 6 = c ∧ offset.extractLsb' 1 4 = d ∧
      offset.extractLsb' 11 1 = b := by
  refine ⟨?_, ?_, ?_, ?_⟩ <;>
  · apply BitVec.eq_of_toNat_eq
    simp only [toNat_concat, BitVec.extractLsb'_toNat, Nat.shiftRight_eq_div_pow, BitVec.toNat_ofNat]
    omega

/-- The slices of a J offset that is put together from its four parts (R78). -/
theorem offset21_slices (a b : BitVec 1) (c : BitVec 8) (d : BitVec 10) :
    let offset : BitVec 21 := a ++ c ++ b ++ d ++ 0#1
    offset.extractLsb' 20 1 = a ∧ offset.extractLsb' 1 10 = d ∧ offset.extractLsb' 11 1 = b ∧
      offset.extractLsb' 12 8 = c := by
  refine ⟨?_, ?_, ?_, ?_⟩ <;>
  · apply BitVec.eq_of_toNat_eq
    simp only [toNat_concat, BitVec.extractLsb'_toNat, Nat.shiftRight_eq_div_pow, BitVec.toNat_ofNat]
    omega

section
variable {w : Word} {m : Mnemonic} {f : Format} {op : Opcode} {f3 : Funct3} {f7 : Funct7}

theorem packR_of_hitsWord (h : (⟨m, f, op, some f3, some f7⟩ : TableRow).hitsWord w) :
    packR op (w.extractLsb' 7 5) f3 (w.extractLsb' 15 5) (w.extractLsb' 20 5) f7 = w := by
  obtain ⟨rfl, h3, h7⟩ := hitsWord_iff.mp h
  obtain rfl := h3 _ rfl
  obtain rfl := h7 _ rfl
  exact packR_fields w

theorem packI_shift_of_hitsWord (h : (⟨m, f, op, some f3, some f7⟩ : TableRow).hitsWord w) :
    packI op (w.extractLsb' 7 5) f3 (w.extractLsb' 15 5) (shiftImm f7 (w.extractLsb' 20 5)) = w := by
  rw [packI_eq_packR, shiftImm_shamt, shiftImm_selector, packR_of_hitsWord h]

theorem packI_of_hitsWord (h : (⟨m, f, op, some f3, none⟩ : TableRow).hitsWord w) :
    packI op (w.extractLsb' 7 5) f3 (w.extractLsb' 15 5) ((immIOf w).extractLsb' 0 12) = w := by
  obtain ⟨rfl, h3, -⟩ := hitsWord_iff.mp h
  obtain rfl := h3 _ rfl
  have himm : w.extractLsb' 20 12 = shiftImm (w.extractLsb' 25 7) (w.extractLsb' 20 5) :=
    (BitVec.extractLsb'_append_extractLsb'_eq_extractLsb' (start₂ := 25) (len₁ := 5) (len₂ := 7) rfl).symm
  rw [immIOf, signExtend_low _ (by decide), himm, packI_eq_packR, shiftImm_shamt, shiftImm_selector, packR_fields]

theorem packS_of_hitsWord (h : (⟨m, f, op, some f3, none⟩ : TableRow).hitsWord w) :
    packS op f3 (w.extractLsb' 15 5) (w.extractLsb' 20 5) ((immSOf w).extractLsb' 0 12) = w := by
  obtain ⟨rfl, h3, -⟩ := hitsWord_iff.mp h
  obtain rfl := h3 _ rfl
  have himm : w.extractLsb' 25 7 ++ w.extractLsb' 7 5 = shiftImm (w.extractLsb' 25 7) (w.extractLsb' 7 5) := rfl
  rw [immSOf, signExtend_low _ (by decide), himm, packS_eq_packR, shiftImm_shamt, shiftImm_selector, packR_fields]

theorem packB_of_hitsWord (h : (⟨m, f, op, some f3, none⟩ : TableRow).hitsWord w) :
    packB op f3 (w.extractLsb' 15 5) (w.extractLsb' 20 5) ((immBOf w).extractLsb' 0 13) = w := by
  obtain ⟨rfl, h3, -⟩ := hitsWord_iff.mp h
  obtain rfl := h3 _ rfl
  have hrd : w.extractLsb' 8 4 ++ w.extractLsb' 7 1 = w.extractLsb' 7 5 :=
    BitVec.extractLsb'_append_extractLsb'_eq_extractLsb' rfl
  have h7 : w.extractLsb' 31 1 ++ w.extractLsb' 25 6 = w.extractLsb' 25 7 :=
    BitVec.extractLsb'_append_extractLsb'_eq_extractLsb' rfl
  obtain ⟨h12, h5, h1, h11⟩ :=
    offset13_slices (w.extractLsb' 31 1) (w.extractLsb' 7 1) (w.extractLsb' 25 6) (w.extractLsb' 8 4)
  rw [immBOf, signExtend_low _ (by decide), packB_eq_packR, h12, h5, h1, h11, hrd, h7, packR_fields]

theorem packU_of_hitsWord (h : (⟨m, f, op, none, none⟩ : TableRow).hitsWord w) :
    packU op (w.extractLsb' 7 5) ((immUOf w).extractLsb' 12 20) = w := by
  obtain ⟨rfl, -, -⟩ := hitsWord_iff.mp h
  rw [immUOf, upper_slice, packU_fields]

theorem packJ_of_hitsWord (h : (⟨m, f, op, none, none⟩ : TableRow).hitsWord w) :
    packJ op (w.extractLsb' 7 5) ((immJOf w).extractLsb' 0 21) = w := by
  obtain ⟨rfl, -, -⟩ := hitsWord_iff.mp h
  have hupper : w.extractLsb' 31 1 ++ w.extractLsb' 21 10 ++ w.extractLsb' 20 1 ++ w.extractLsb' 12 8
      = w.extractLsb' 12 20 := by
    apply BitVec.eq_of_toNat_eq
    simp only [toNat_concat, BitVec.extractLsb'_toNat, Nat.shiftRight_eq_div_pow]
    omega
  obtain ⟨h20, h1, h11, h12⟩ :=
    offset21_slices (w.extractLsb' 31 1) (w.extractLsb' 20 1) (w.extractLsb' 12 8) (w.extractLsb' 21 10)
  rw [immJOf, signExtend_low _ (by decide), packJ_eq_packU, h20, h1, h11, h12, hupper, packU_fields]

end

/-! ### From a word to its instruction and back -/

theorem evenOffset_append {n : Nat} (x : BitVec n) : evenOffset (x ++ 0#1) = true := by
  rw [evenOffset, BitVec.getLsbD_append]; rfl

/-- The B and J immediates of a word have no bit 0 (R76, R78). -/
theorem evenOffset_immBOf (w : Word) : evenOffset ((immBOf w).extractLsb' 0 13) = true := by
  rw [immBOf, signExtend_low _ (by decide), evenOffset_append]

theorem evenOffset_immJOf (w : Word) : evenOffset ((immJOf w).extractLsb' 0 21) = true := by
  rw [immJOf, signExtend_low _ (by decide), evenOffset_append]

theorem toInstr_of_decode {w : Word} {i : Instr} (h : decode w = .ok i) :
    (Decoded.ofWord machineConfig w).toInstr = some i := by
  simp only [decode] at h
  split at h
  case h_1 j hj => cases h; exact hj
  case h_2 => cases h

/-- Settles O7: a word that has a name has its row's constants, and the fields of its format hold all the rest. -/
theorem encodeOfDecodeIsTheWord : Obligations.EncodeOfDecodeIsTheWord := by
  unfold Obligations.EncodeOfDecodeIsTheWord
  intro w i h
  have hi := toInstr_of_decode h
  have hit : ∀ row, rowOf (Decoded.ofWord machineConfig w).mnemonic = some row → row.hitsWord w :=
    fun _ => hitsWord_of_rowOf
  unfold Decoded.toInstr at hi
  generalize (Decoded.ofWord machineConfig w).mnemonic = m at hi hit
  cases m with
  | add | sub | sll | slt | sltu | xor | srl | sra | or | and => cases hi; exact ⟨rfl, packR_of_hitsWord (hit _ rfl)⟩
  | slli | srli | srai => cases hi; exact ⟨rfl, packI_shift_of_hitsWord (hit _ rfl)⟩
  | addi | slti | sltiu | xori | ori | andi | lb | lh | lw | lbu | lhu | jalr =>
    cases hi; exact ⟨rfl, packI_of_hitsWord (hit _ rfl)⟩
  | sb | sh | sw => cases hi; exact ⟨rfl, packS_of_hitsWord (hit _ rfl)⟩
  | beq | bne | blt | bge | bltu | bgeu =>
    cases hi; exact ⟨evenOffset_immBOf w, packB_of_hitsWord (hit _ rfl)⟩
  | lui | auipc => cases hi; exact ⟨rfl, packU_of_hitsWord (hit _ rfl)⟩
  | jal => cases hi; exact ⟨evenOffset_immJOf w, packJ_of_hitsWord (hit _ rfl)⟩
  | unknown => cases hi

end Sys2Proof
end

section
/-! The mnemonic table and the dispatch stage (41_isa_tables.md R104 to R107, 43_encoder.md R147 to R150): each row's
packer makes a word with the row's key, and it is the word of the instruction that the row names. Settles O11 and
O16. -/

namespace Sys2Proof

open Sys2Proof.Machine Sys2Proof.Stated

/-! ### The table -/

theorem isaTable_names_nodup : (isaTable.map (fun row => row.mnemonic.name)).Nodup := by decide

/-- Selecting by a row's name finds the row, since no other has its name (R106, R107). -/
theorem selectRow_name {row : TableRow} (hrow : row ∈ isaTable) (line : Option Nat) :
    selectRow machineConfig line row.mnemonic.name = .ok row := by
  rcases selectRow_cases machineConfig line row.mnemonic.name with ⟨row', hrow', hname, hsel⟩ | ⟨hno, -⟩
  · rw [hsel, List.inj_on_of_nodup_map isaTable_names_nodup hrow' hrow hname]
  · exact absurd rfl (hno row hrow)

/-! ### Integers as fields -/

@[simp] theorem trunc_toNat {n : Nat} (x : BitVec n) : trunc n (x.toNat : Int) = x := by
  rw [trunc, BitVec.ofInt_natCast, BitVec.ofNat_toNat, BitVec.setWidth_eq]

@[simp] theorem trunc_toInt {n : Nat} (x : BitVec n) : trunc n x.toInt = x := BitVec.ofInt_toInt

/-- A key field that a row has is the constant that its packer gets. -/
theorem eq_trunc_constField {n : Nat} {key : Option (BitVec n)} : ∀ k, key = some k → k = trunc n (constField key) := by
  rintro k rfl
  exact (trunc_toNat k).symm

/-- Halving drops bit 0 of the truncated value. -/
theorem slice_trunc_succ (n : Nat) (v : Int) : (trunc (n + 1) v).extractLsb' 1 n = trunc n (v / 2) := by
  have hdrop (m : Int) : v % (m * 2) / 2 = v / 2 + m * -(v / (m * 2)) := by
    rw [Int.emod_def, ← Int.add_mul_ediv_right _ _ two_ne_zero]
    ring_nf
  apply BitVec.eq_of_toNat_eq
  zify
  rw [BitVec.extractLsb'_toNat, Nat.shiftRight_eq_div_pow]
  push_cast
  rw [trunc_toNat_cast, trunc_toNat_cast, pow_succ, hdrop, Int.add_mul_emod_self_left]

/-- The bits above bit 0 do not change when bit 0 becomes 0. -/
theorem slice_of_bit0_cleared {n k l : Nat} (x : BitVec (n + 1)) (hk : 1 ≤ k) (hl : k + l ≤ n + 1) :
    (x.extractLsb' 1 n ++ 0#1).extractLsb' k l = x.extractLsb' k l := by
  ext i hi
  have h0 : ¬k + i < 1 := by omega
  have hn : k + i - 1 < n := by omega
  have hback : 1 + (k + i - 1) = k + i := by omega
  simp [BitVec.getLsbD_append, h0, hn, hback]

theorem packB_bit0_cleared (op : Opcode) (f3 : Funct3) (rs1 rs2 : Reg) (offset : BitVec 13) :
    packB op f3 rs1 rs2 (offset.extractLsb' 1 12 ++ 0#1) = packB op f3 rs1 rs2 offset := by
  simp only [packB]
  rw [slice_of_bit0_cleared, slice_of_bit0_cleared, slice_of_bit0_cleared, slice_of_bit0_cleared] <;> decide

theorem packJ_bit0_cleared (op : Opcode) (rd : Reg) (offset : BitVec 21) :
    packJ op rd (offset.extractLsb' 1 20 ++ 0#1) = packJ op rd offset := by
  simp only [packJ]
  rw [slice_of_bit0_cleared, slice_of_bit0_cleared, slice_of_bit0_cleared, slice_of_bit0_cleared] <;> decide

/-! ### The word that a row's packer makes -/

theorem row_format_ne_none : ∀ row ∈ isaTable, row.format ≠ .NONE := by decide

theorem iRow_funct7 : ∀ row ∈ isaTable, row.format = .I → isShiftImm row.mnemonic = false → row.funct7 = none := by
  decide

theorem sbRow_funct7 : ∀ row ∈ isaTable, row.format = .S ∨ row.format = .B → row.funct7 = none := by decide

theorem ujRow_keys : ∀ row ∈ isaTable, row.format = .U ∨ row.format = .J → row.funct3 = none ∧ row.funct7 = none := by
  decide

/-- A row's packer stores the row's opcode and each key field that the row has (R106): a format that has no place for
the field is of no row that has it. -/
theorem hitsWord_packRow {row : TableRow} (hrow : row ∈ isaTable) (ops : OperandValues) :
    row.hitsWord (packRow machineConfig row ops) := by
  obtain ⟨m, f, op, key3, key7⟩ := row
  have h3 := eq_trunc_constField (key := key3)
  have h7 := eq_trunc_constField (key := key7)
  rw [hitsWord_iff]
  cases f with
  | R => simpa [packRow, encodeR] using And.intro h3 h7
  | I =>
    cases hshift : isShiftImm m with
    | true => simpa [packRow, encodeI, hshift] using And.intro h3 h7
    | false =>
      obtain rfl := iRow_funct7 _ hrow rfl hshift
      simpa [packRow, encodeI, hshift] using h3
  | S =>
    obtain rfl := sbRow_funct7 _ hrow (.inl rfl)
    simpa [packRow, encodeS] using h3
  | B =>
    obtain rfl := sbRow_funct7 _ hrow (.inr rfl)
    simpa [packRow, encodeB] using h3
  | U =>
    obtain ⟨rfl, rfl⟩ := ujRow_keys _ hrow (.inl rfl)
    simp [packRow, encodeU]
  | J =>
    obtain ⟨rfl, rfl⟩ := ujRow_keys _ hrow (.inr rfl)
    simp [packRow, encodeJ]
  | NONE => exact absurd rfl (row_format_ne_none _ hrow)

/-- Settles O11: a packer's word has its row's key, and the key is no other row's. -/
theorem mnemonicTableKeepsItsThreeProperties : Obligations.MnemonicTableKeepsItsThreeProperties := by
  unfold Obligations.MnemonicTableKeepsItsThreeProperties
  refine ⟨isaTable_names_nodup, fun op f3 f7 r r' => row_eq_of_hits, fun row ops hrow => ?_⟩
  have hhits := hitsWord_packRow hrow ops
  exact ⟨mnemonicOf_of_hits hrow hhits, formatOf_of_hits hrow hhits⟩

/-! ### The instruction that a name and operand values stand for -/

section
variable (op : Opcode) (f3 : Funct3) (f7 : Funct7) (rd rs1 rs2 imm shamt : Int)

theorem encodeR_eq_packR : encodeR op.toNat rd f3.toNat rs1 rs2 f7.toNat
    = packR op (trunc 5 rd) f3 (trunc 5 rs1) (trunc 5 rs2) f7 := by
  simp only [encodeR, trunc_toNat]

theorem encodeI_eq_packI : encodeI op.toNat rd f3.toNat rs1 imm
    = packI op (trunc 5 rd) f3 (trunc 5 rs1) (trunc 12 imm) := by
  simp only [encodeI, trunc_toNat]

theorem encodeI_shift_eq_packI : encodeI op.toNat rd f3.toNat rs1 (shiftImm (trunc 7 f7.toNat) (trunc 5 shamt)).toNat
    = packI op (trunc 5 rd) f3 (trunc 5 rs1) (shiftImm f7 (trunc 5 shamt)) := by
  simp only [encodeI, trunc_toNat]

theorem encodeS_eq_packS : encodeS op.toNat f3.toNat rs1 rs2 imm
    = packS op f3 (trunc 5 rs1) (trunc 5 rs2) (trunc 12 imm) := by
  simp only [encodeS, trunc_toNat]

theorem encodeB_eq_packB : encodeB op.toNat f3.toNat rs1 rs2 imm
    = packB op f3 (trunc 5 rs1) (trunc 5 rs2) (trunc 12 (imm / 2) ++ 0#1) := by
  simp only [encodeB, trunc_toNat, ← slice_trunc_succ, packB_bit0_cleared]

theorem encodeU_eq_packU : encodeU .upper20 op.toNat rd imm = packU op (trunc 5 rd) (trunc 20 imm) := by
  simp only [encodeU, upperBits, trunc_toNat]

theorem encodeJ_eq_packJ : encodeJ op.toNat rd imm = packJ op (trunc 5 rd) (trunc 20 (imm / 2) ++ 0#1) := by
  simp only [encodeJ, trunc_toNat, ← slice_trunc_succ, packJ_bit0_cleared]

end

/-- The packer of a mnemonic's row makes the word of the instruction that the mnemonic and the values stand for. -/
theorem packRow_rowOf (m : Mnemonic) (ops : OperandValues) :
    (rowOf m).map (fun row => packRow machineConfig row ops) = (instrOf m ops).map encode := by
  cases m with
  | add | sub | sll | slt | sltu | xor | srl | sra | or | and => exact congrArg some (encodeR_eq_packR ..)
  | slli | srli | srai => exact congrArg some (encodeI_shift_eq_packI ..)
  | addi | slti | sltiu | xori | ori | andi | lb | lh | lw | lbu | lhu | jalr =>
    exact congrArg some (encodeI_eq_packI ..)
  | sb | sh | sw => exact congrArg some (encodeS_eq_packS ..)
  | beq | bne | blt | bge | bltu | bgeu => exact congrArg some (encodeB_eq_packB ..)
  | lui | auipc => exact congrArg some (encodeU_eq_packU ..)
  | jal => exact congrArg some (encodeJ_eq_packJ ..)
  | unknown => rfl

theorem wellFormed_of_instrOf {m : Mnemonic} {ops : OperandValues} {i : Instr} (h : instrOf m ops = some i) :
    i.wellFormed = true := by
  cases m with
  | beq | bne | blt | bge | bltu | bgeu | jal => cases h; exact evenOffset_append _
  | unknown => cases h
  | _ => cases h; rfl

/-- The half of an even offset, doubled. -/
theorem trunc_half_append {n : Nat} (offset : BitVec (n + 1)) (h : evenOffset offset = true) :
    trunc n (offset.toInt / 2) ++ 0#1 = offset := by
  rw [← slice_trunc_succ, trunc_toInt, even_bits offset h]

/-- The operand values of a well-formed instruction stand for it. -/
theorem instrOf_operandsOf {i : Instr} (h : i.wellFormed = true) :
    instrOf (operandsOf i).1 (operandsOf i).2 = some i := by
  cases i with
  | beq rs1 rs2 offset | bne rs1 rs2 offset | blt rs1 rs2 offset | bge rs1 rs2 offset | bltu rs1 rs2 offset
  | bgeu rs1 rs2 offset => simp [operandsOf, instrOf, trunc_half_append offset h]
  | jal rd offset => simp [operandsOf, instrOf, trunc_half_append offset h]
  | _ => simp [operandsOf, instrOf]

/-! ### The dispatch stage -/

theorem encodeDispatch_of_instrOf {m : Mnemonic} {ops : OperandValues} {i : Instr} (h : instrOf m ops = some i)
    (line : Option Nat) : encodeDispatch machineConfig line m.name ops = .ok (encode i) := by
  have hpack := packRow_rowOf m ops
  rw [h] at hpack
  obtain ⟨row, hrow, hword⟩ := Option.map_eq_some_iff.mp hpack
  obtain ⟨hmem, rfl⟩ := (rowOf_eq_some_iff _ _).mp hrow
  simp only [encodeDispatch, selectRow_name hmem, hword]

theorem encodeDispatch_of_no_row {name : Text} (h : ∀ row ∈ isaTable, row.mnemonic.name ≠ name) (line : Option Nat)
    (ops : OperandValues) : encodeDispatch machineConfig line name ops = .error (.unknownInstruction line name) := by
  rcases selectRow_cases machineConfig line name with ⟨row, hrow, hname, -⟩ | ⟨-, hsel⟩
  · exact absurd hname (h row hrow)
  · simp only [encodeDispatch, hsel]

theorem serve_encode {name : Text} {ops : OperandValues} {s : State} :
    serve (.encode name ops) s = answerWith s .encoded (encodeDispatch machineConfig none name ops) := rfl

/-- Settles O16: the name selects its row, and the row's packer makes the word. -/
theorem dispatchGivesTheWordOrUnknownInstruction : Obligations.DispatchGivesTheWordOrUnknownInstruction := by
  unfold Obligations.DispatchGivesTheWordOrUnknownInstruction
  have hword {m : Mnemonic} {ops : OperandValues} {i : Instr} (h : instrOf m ops = some i) {s : State}
      {rest : List Request} (hp : s.pending = .encode m.name ops :: rest) : StepAnswers s rest (.encoded (encode i)) :=
    stepAnswers_of_serve hp (by rw [serve_encode, encodeDispatch_of_instrOf h]; rfl)
  refine ⟨fun s rest i hi hp => hword (instrOf_operandsOf hi) hp,
    fun s rest m ops i h hp => ⟨wellFormed_of_instrOf h, hword h hp⟩, fun s rest name ops hno hp => ?_⟩
  exact stepAnswers_of_serve hp (by rw [serve_encode, encodeDispatch_of_no_row hno]; rfl)

end Sys2Proof
end

section
/-! Register names (41_isa_tables.md R102, R103): the ABI names are looked up first, then the form `x` and digits.
Settles O48. -/

namespace Sys2Proof.Machine

open Sys2Proof.Stated

theorem isaAbiNames_nodup : isaAbiNames.Nodup := by decide

/-- Every place of a name in a list without repetitions is the index found. -/
theorem abiIndex_complete {names : List Text} {name : Text} {n : Nat} (hnodup : names.Nodup)
    (h : names[n]? = some name) (i : Nat) : abiIndex names i name = some (i + n) := by
  induction names generalizing i n with
  | nil => cases h
  | cons first rest ih =>
    obtain ⟨hfirst, hrest⟩ := List.nodup_cons.mp hnodup
    cases n with
    | zero => cases h; exact if_pos rfl
    | succ n =>
      have hne : first ≠ name := fun he => hfirst (he ▸ List.mem_of_getElem? h)
      rw [abiIndex, if_neg hne, ih hrest h]
      congr 1
      omega

theorem abiIndex_eq_some_iff (name : Text) (n : Nat) :
    abiIndex isaAbiNames 0 name = some n ↔ isaAbiNames[n]? = some name := by
  constructor
  · exact fun h => (abiIndex_sound h).2
  · intro h
    rw [abiIndex_complete isaAbiNames_nodup h, Nat.zero_add]

theorem valueOf_ten {ds : Text} (h : ∀ c ∈ ds, '0' ≤ c ∧ c ≤ '9') : valueOf 10 ds = decimalValue ds := by
  unfold valueOf decimalValue
  exact List.foldl_ext _ _ _ fun n c hc => by rw [if_pos (h c hc).2]

/-- The literal forms are exactly `x` and one or more decimal digits of value 0 to 31 (R102). -/
theorem literalIndex_eq_some_iff (name : Text) (n : Nat) :
    literalIndex name = some n ↔
      ∃ ds : Text, name = 'x' :: ds ∧ ds ≠ [] ∧ (∀ c ∈ ds, '0' ≤ c ∧ c ≤ '9') ∧ decimalValue ds = n ∧ n ≤ 31 := by
  constructor
  · intro h
    unfold literalIndex at h
    split at h
    case h_1 ds =>
      split at h
      case h_1 v hv =>
        obtain ⟨hdigits, rfl⟩ := (digits_decimal_eq_some_iff ds v).mp hv
        obtain ⟨hne, hall⟩ := (digits10_iff ds).mp hdigits
        split at h
        case isTrue hle => cases h; exact ⟨ds, rfl, hne, hall, (valueOf_ten hall).symm, hle⟩
        case isFalse => cases h
      case h_2 => cases h
    case h_2 => cases h
  · rintro ⟨ds, rfl, hne, hall, rfl, hle⟩
    have hdigits : digits 10 decimalDigit ds = some (decimalValue ds) :=
      (digits_decimal_eq_some_iff ds _).mpr ⟨(digits10_iff ds).mpr ⟨hne, hall⟩, (valueOf_ten hall).symm⟩
    simp only [literalIndex, hdigits, if_pos hle]

/-- No ABI name is of the form `x<N>`, so at most one of the two lookups finds an index. -/
theorem literalIndex_of_abiIndex {name : Text} {n : Nat} (h : abiIndex isaAbiNames 0 name = some n) :
    literalIndex name = none := by
  have hhead : ∀ name ∈ isaAbiNames, name.head? ≠ some 'x' := by decide
  by_contra hsome
  obtain ⟨m, hm⟩ := Option.ne_none_iff_exists'.mp hsome
  obtain ⟨ds, rfl, -⟩ := (literalIndex_eq_some_iff name m).mp hm
  exact hhead _ (List.mem_of_getElem? ((abiIndex_eq_some_iff _ n).mp h)) rfl

/-- Settles O48: at most one of the two lookups finds an index, and `InvalidRegister` answers when neither does. -/
theorem registerNamesAreTheAbiNamesAndXForms : Obligations.RegisterNamesAreTheAbiNamesAndXForms := by
  unfold Obligations.RegisterNamesAreTheAbiNamesAndXForms
  intro line name
  simp only [← abiIndex_eq_some_iff, ← literalIndex_eq_some_iff]
  have hcases := registerIndexOf_cases machineConfig line name
  rw [show machineConfig.abiNames = isaAbiNames from rfl] at hcases
  rcases hcases with ⟨k, habi, h⟩ | ⟨k, habi, hlit, h⟩ | ⟨habi, hlit, h⟩
  · exact ⟨fun n => by simp [h, habi, literalIndex_of_abiIndex habi], fun hno => absurd h (hno k)⟩
  · exact ⟨fun n => by simp [h, habi, hlit], fun hno => absurd h (hno k)⟩
  · exact ⟨fun n => by simp [h, habi, hlit], fun _ => h⟩

end Sys2Proof.Machine
end

section
/-! The immediates of every word as numbers (30_encoding.md R74 to R78, 42_decoder.md R122 to R126). Settles O2. -/

namespace Sys2Proof

open Sys2Proof.Stated

/-- The signed value of bits is `toSigned` of the number they write (R11). -/
theorem toInt_eq_toSigned {k : Nat} (x : BitVec (k + 1)) : x.toInt = toSigned (k + 1) x.toNat := by
  rw [BitVec.toInt_eq_toNat_cond, toSigned, Nat.add_sub_cancel]
  push_cast
  split <;> split <;> omega

/-- Sign extension to a word keeps the signed value. -/
theorem signExtend_toInt_eq_toSigned {k : Nat} (x : BitVec (k + 1)) (hk : k + 1 ≤ 32 := by decide) :
    (x.signExtend 32).toInt = toSigned (k + 1) x.toNat := by
  rw [BitVec.toInt_signExtend_of_le hk, toInt_eq_toSigned]

/-- A slice that reaches up to bit 31 is the quotient by the bits below it. -/
theorem top_slice_toNat (w : Word) {lo len : Nat} (h : lo + len = 32) :
    (w.extractLsb' lo len).toNat = w.toNat / 2 ^ lo := by
  rw [slice_toNat, Nat.mod_eq_of_lt]
  rw [Nat.div_lt_iff_lt_mul (by positivity), ← pow_add, add_comm, h]
  exact w.isLt

theorem immIOf_toInt (w : Word) : (immIOf w).toInt = toSigned 12 (w.toNat / 2 ^ 20) := by
  rw [immIOf, signExtend_toInt_eq_toSigned, top_slice_toNat w rfl]

theorem immSOf_toInt (w : Word) :
    (immSOf w).toInt = toSigned 12 (w.toNat / 2 ^ 25 * 2 ^ 5 + w.toNat / 2 ^ 7 % 2 ^ 5) := by
  rw [immSOf, signExtend_toInt_eq_toSigned, toNat_concat, top_slice_toNat w rfl, slice_toNat]

theorem immBOf_toInt (w : Word) :
    (immBOf w).toInt
      = toSigned 13 (w.toNat / 2 ^ 31 * 2 ^ 12 + w.toNat / 2 ^ 7 % 2 * 2 ^ 11 + w.toNat / 2 ^ 25 % 2 ^ 6 * 2 ^ 5
          + w.toNat / 2 ^ 8 % 2 ^ 4 * 2) := by
  rw [immBOf, signExtend_toInt_eq_toSigned]
  simp only [toNat_concat, top_slice_toNat w (lo := 31) (len := 1) rfl, slice_toNat, BitVec.toNat_zero]
  congr 1
  omega

theorem immUOf_toNat (w : Word) : (immUOf w).toNat = w.toNat / 2 ^ 12 * 2 ^ 12 := by
  rw [immUOf, toNat_concat, top_slice_toNat w rfl, BitVec.toNat_zero, add_zero]

theorem immJOf_toInt (w : Word) :
    (immJOf w).toInt
      = toSigned 21 (w.toNat / 2 ^ 31 * 2 ^ 20 + w.toNat / 2 ^ 12 % 2 ^ 8 * 2 ^ 12 + w.toNat / 2 ^ 20 % 2 * 2 ^ 11
          + w.toNat / 2 ^ 21 % 2 ^ 10 * 2) := by
  rw [immJOf, signExtend_toInt_eq_toSigned]
  simp only [toNat_concat, top_slice_toNat w (lo := 31) (len := 1) rfl, slice_toNat, BitVec.toNat_zero]
  congr 1
  omega

/-- Settles O2: each immediate is its slices put together, whatever the tables. -/
theorem decoderReconstructsTheFiveImmediates : Obligations.DecoderReconstructsTheFiveImmediates := by
  unfold Obligations.DecoderReconstructsTheFiveImmediates
  intro cfg w
  exact ⟨immIOf_toInt w, immSOf_toInt w, immBOf_toInt w, immUOf_toNat w, immJOf_toInt w⟩

end Sys2Proof
end

section
/-! The meanings of the 37 instructions and the table-driven decoder give the same record, so a step on any word
answers the word's record (42_decoder.md R127, R128, R130, R132). Settles O24 and O5. -/

namespace Sys2Proof.Machine

open Sys2Proof.Stated

/-- A meaning that presents the table's tag and name for the key of its word answers the decoder's record of the word
(R127, R128). -/
theorem presents_of_key {i : Instr} {s : State} {op : Opcode} {f3 : Funct3} {f7 : Funct7}
    (hop : (encode i).extractLsb' 0 7 = op) (h3 : (encode i).extractLsb' 12 3 = f3)
    (h7 : (encode i).extractLsb' 25 7 = f7)
    (hexec : exec i s = present (formatOf machineConfig op) (mnemonicOf machineConfig op f3 f7) (encode i) s) :
    Presents i s (Decoded.ofWord machineConfig (encode i)) := by
  subst hop h3 h7
  exact hexec

/-- Settles O24: in each format the packer stores the key of the instruction's row, as far as the row has one, and the
table's answer for it is the tag and the name that the meaning presents. -/
theorem execAnswersTheDecoderRecordOfTheWord : Obligations.ExecAnswersTheDecoderRecordOfTheWord := by
  unfold Obligations.ExecAnswersTheDecoderRecordOfTheWord
  intro i s
  cases i with
  | add | sub | sll | slt | sltu | xor | srl | sra | or | and =>
    exact presents_of_key (packR_opcode ..) (packR_funct3 ..) (packR_funct7 ..) rfl
  | slli | srli | srai =>
    exact presents_of_key (packI_opcode ..) (packI_funct3 ..) ((packI_funct7 ..).trans (shiftImm_selector ..)) rfl
  | addi | slti | sltiu | xori | ori | andi | lb | lh | lw | lbu | lhu | jalr =>
    exact presents_of_key (packI_opcode ..) (packI_funct3 ..) (packI_funct7 ..) rfl
  | sb | sh | sw => exact presents_of_key (packS_opcode ..) (packS_funct3 ..) (packS_funct7 ..) rfl
  | beq | bne | blt | bge | bltu | bgeu => exact presents_of_key (packB_opcode ..) (packB_funct3 ..) rfl rfl
  | lui | auipc => exact presents_of_key (packU_opcode ..) rfl rfl rfl
  | jal => exact presents_of_key (packJ_opcode ..) rfl rfl rfl

/-- Serving a word answers its record: a word that decodes is its instruction's word, and any other gets its record as
it is (R130). -/
theorem serve_decode_eq (w : Word) (s : State) :
    serve (.decode w) s = .next { s with response := some (.decoded (Decoded.ofWord machineConfig w)) } := by
  cases h : decode w with
  | ok i =>
    obtain ⟨-, rfl⟩ := encodeOfDecodeIsTheWord w i h
    rw [serve_decode_of_ok h]
    exact execAnswersTheDecoderRecordOfTheWord i s
  | error e => simp only [serve, h]; rfl

/-- Settles O5: the step serves the word, and serving it answers its record. -/
theorem stepOnAnyWordAnswersItsRecord : Obligations.StepOnAnyWordAnswersItsRecord := by
  unfold Obligations.StepOnAnyWordAnswersItsRecord
  intro s w rest hp
  exact stepAnswers_of_serve hp (serve_decode_eq w _)

end Sys2Proof.Machine
end

section
/-! The six packers on integers (43_encoder.md R140 to R151): a packed word as slices of its operands, what the decoder
gives back of them, and what a format does not hold. Settles O14, O12, O13 and O15. -/

namespace Sys2Proof

open Sys2Proof.Machine Sys2Proof.Stated

/-! ### The bits of an integer operand -/

/-- The bits of an integer from `lo` on, `k + 1` of them, as the number they write (R9, R11). -/
theorem trunc_div_toNat (lo k : Nat) (v : Int) : (trunc (k + 1) (v / 2 ^ lo)).toNat = bitsOf v (lo + k) lo := by
  rw [trunc, BitVec.toNat_ofInt, bitsOf, Nat.add_sub_cancel_left]
  push_cast
  rfl

theorem trunc_succ_toNat (k : Nat) (v : Int) : (trunc (k + 1) v).toNat = bitsOf v k 0 := by
  simpa using trunc_div_toNat 0 k v

/-- A slice of a truncated integer holds the integer's bits at its position. -/
theorem slice_trunc {n lo len : Nat} (h : lo + len ≤ n) (v : Int) :
    (trunc n v).extractLsb' lo len = trunc len (v / 2 ^ lo) := by
  obtain ⟨d, rfl⟩ := Nat.exists_eq_add_of_le h
  have hsplit : v % 2 ^ (lo + len + d) = v + 2 ^ lo * (2 ^ len * -(2 ^ d * (v / 2 ^ (lo + len + d)))) := by
    rw [Int.emod_def]
    ring
  apply BitVec.eq_of_toNat_eq
  rw [BitVec.extractLsb'_toNat, Nat.shiftRight_eq_div_pow]
  zify
  rw [trunc_toNat_cast, trunc_toNat_cast, hsplit, Int.add_mul_ediv_left _ _ (by positivity), Int.add_mul_emod_self_left]

theorem slice_trunc_toNat {n lo k : Nat} (h : lo + (k + 1) ≤ n) (v : Int) :
    ((trunc n v).extractLsb' lo (k + 1)).toNat = bitsOf v (lo + k) lo := by
  rw [slice_trunc h, trunc_div_toNat]

/-- Truncation keeps an integer exactly if the integer is the value of some bits of the width. -/
theorem trunc_toInt_eq_iff (n : Nat) (v : Int) : (trunc n v).toInt = v ↔ ∃ x : BitVec n, x.toInt = v := by
  constructor
  · exact fun h => ⟨trunc n v, h⟩
  · rintro ⟨x, rfl⟩
    rw [trunc_toInt]

/-- Truncation depends on the integer modulo the width only (R11, R148). -/
theorem trunc_congr {n : Nat} {v v' : Int} (h : v % 2 ^ n = v' % 2 ^ n) : trunc n v = trunc n v' := by
  apply BitVec.eq_of_toNat_eq
  zify
  rw [trunc_toNat_cast, trunc_toNat_cast, h]

/-! ### The packers of B and J take the halved offset (R150) -/

theorem encodeB_eq_half (op f3 rs1 rs2 imm : Int) :
    encodeB op f3 rs1 rs2 imm
      = packB (trunc 7 op) (trunc 3 f3) (trunc 5 rs1) (trunc 5 rs2) (trunc 12 (imm / 2) ++ 0#1) := by
  rw [encodeB, ← packB_bit0_cleared, slice_trunc_succ]

theorem encodeJ_eq_half (op rd imm : Int) :
    encodeJ op rd imm = packJ (trunc 7 op) (trunc 5 rd) (trunc 20 (imm / 2) ++ 0#1) := by
  rw [encodeJ, ← packJ_bit0_cleared, slice_trunc_succ]

/-! ### The immediates that come back -/

section
variable (cfg : Config) (op rd f3 rs1 rs2 imm : Int)

theorem immI_encodeI : (Decoded.ofWord cfg (encodeI op rd f3 rs1 imm)).immI = (trunc 12 imm).signExtend 32 :=
  immIOf_packI ..

theorem immS_encodeS : (Decoded.ofWord cfg (encodeS op f3 rs1 rs2 imm)).immS = (trunc 12 imm).signExtend 32 :=
  immSOf_packS ..

theorem immB_encodeB : (Decoded.ofWord cfg (encodeB op f3 rs1 rs2 imm)).immB
    = (trunc 12 (imm / 2) ++ 0#1).signExtend 32 := by
  rw [← slice_trunc_succ]
  exact immBOf_packB ..

theorem immU_encodeU : (Decoded.ofWord cfg (encodeU .upper20 op rd imm)).immU = trunc 20 imm ++ 0#12 :=
  immUOf_packU ..

theorem immJ_encodeJ : (Decoded.ofWord cfg (encodeJ op rd imm)).immJ
    = (trunc 20 (imm / 2) ++ 0#1).signExtend 32 := by
  rw [← slice_trunc_succ]
  exact immJOf_packJ ..

end

/-- A 12-bit immediate comes back modulo its width, and as the operand itself exactly on its range (R151). -/
theorem imm12_round_trip (imm : Int) :
    ((trunc 12 imm).signExtend 32).toInt = toSigned 12 (bitsOf imm 11 0) ∧
      (((trunc 12 imm).signExtend 32).toInt = imm ↔ -2048 ≤ imm ∧ imm ≤ 2047) := by
  constructor
  · rw [signExtend_toInt_eq_toSigned, trunc_succ_toNat]
  · rw [BitVec.toInt_signExtend_of_le (by decide), trunc_toInt_eq_iff, exists_toInt_eq_iff 11]
    omega

section
variable {n : Nat} (hn : n + 2 ≤ 32) (imm : Int)
include hn

/-- An offset without its bit 0 comes back modulo its width (R150, R151). -/
theorem offset_toInt_eq_toSigned :
    ((trunc (n + 1) (imm / 2) ++ 0#1).signExtend 32).toInt = toSigned (n + 2) (2 * bitsOf imm (n + 1) 1) := by
  have h : (trunc (n + 1) (imm / 2)).toNat = bitsOf imm (n + 1) 1 := by
    simpa [Nat.add_comm 1] using trunc_div_toNat 1 n imm
  rw [signExtend_toInt_eq_toSigned _ hn, toNat_concat, h, BitVec.toNat_zero, pow_one, add_zero, mul_comm]

/-- An offset without its bit 0 comes back as the operand itself exactly if it is even and in range (R151). -/
theorem offset_toInt_eq_iff :
    ((trunc (n + 1) (imm / 2) ++ 0#1).signExtend 32).toInt = imm ↔
      imm % 2 = 0 ∧ 2 * -2 ^ n ≤ imm ∧ imm < 2 * 2 ^ n := by
  have hsome : 2 * (trunc (n + 1) (imm / 2)).toInt = imm ↔ ∃ x : BitVec (n + 1), 2 * x.toInt = imm := by
    constructor
    · exact fun h => ⟨_, h⟩
    · rintro ⟨x, rfl⟩
      rw [Int.mul_ediv_cancel_left _ two_ne_zero, trunc_toInt]
  rw [doubled_toInt _ hn, hsome, exists_scaled_toInt_eq_iff n two_pos]
  tauto

/-- An odd offset in range comes back as the even one below it (R150). -/
theorem odd_offset_toInt (hodd : imm % 2 = 1) (hlo : 2 * -2 ^ n ≤ imm) (hhi : imm < 2 * 2 ^ n) :
    ((trunc (n + 1) (imm / 2) ++ 0#1).signExtend 32).toInt = imm - 1 := by
  have hhalf : imm / 2 = (imm - 1) / 2 := by omega
  rw [hhalf, offset_toInt_eq_iff hn]
  omega

end

/-- Settles O14: each field is a slice of the packed word, and each immediate comes back as its truncation. -/
theorem decodingAPackedWordGivesItsOperandsBack : Obligations.DecodingAPackedWordGivesItsOperandsBack := by
  unfold Obligations.DecodingAPackedWordGivesItsOperandsBack
  intro cfg op rd f3 rs1 rs2 f7 imm
  refine ⟨⟨packR_opcode .., packR_rd .., packR_funct3 .., packR_rs1 .., packR_rs2 .., packR_funct7 ..⟩,
    ⟨packI_opcode .., packI_rd .., packI_funct3 .., packI_rs1 .., ?_⟩,
    ⟨packS_opcode .., packS_funct3 .., packS_rs1 .., packS_rs2 .., ?_⟩,
    ⟨packB_opcode .., packB_funct3 .., packB_rs1 .., packB_rs2 .., ?_⟩,
    ⟨packU_opcode .., packU_rd .., ?_⟩, ⟨packJ_opcode .., packJ_rd .., ?_⟩⟩
  · rw [immI_encodeI]
    exact imm12_round_trip imm
  · rw [immS_encodeS]
    exact imm12_round_trip imm
  · rw [immB_encodeB, offset_toInt_eq_iff (n := 11) (by decide)]
    exact ⟨offset_toInt_eq_toSigned (by decide) imm, by omega⟩
  · rw [immU_encodeU, toNat_concat, trunc_succ_toNat, BitVec.toNat_zero, add_zero, mul_comm]
    rfl
  · rw [immJ_encodeJ, offset_toInt_eq_iff (n := 19) (by decide)]
    exact ⟨offset_toInt_eq_toSigned (by decide) imm, by omega⟩

/-! ### The formulas (R141 to R146) -/

/-- Settles O12: concatenation shifts and ORs, and each field is a slice of its operand. -/
theorem packersRISAreTheirFormulas : Obligations.PackersRISAreTheirFormulas := by
  unfold Obligations.PackersRISAreTheirFormulas
  refine ⟨fun op rd f3 rs1 rs2 f7 => ?_, fun op rd f3 rs1 imm => ?_, fun op f3 rs1 rs2 imm => ?_, by decide, by decide,
    by decide⟩
  · simp only [encodeR, packR, BitVec.toNat_append, trunc_succ_toNat]
    simp only [Nat.shiftLeft_or_distrib, ← Nat.shiftLeft_add, Nat.reduceAdd]
  · simp only [encodeI, packI, BitVec.toNat_append, trunc_succ_toNat]
    simp only [Nat.shiftLeft_or_distrib, ← Nat.shiftLeft_add, Nat.reduceAdd]
  · simp (disch := decide) only [encodeS, packS, BitVec.toNat_append, trunc_succ_toNat, slice_trunc_toNat]
    simp only [Nat.shiftLeft_or_distrib, ← Nat.shiftLeft_add, Nat.reduceAdd]

/-- Settles O13: concatenation shifts and ORs, and each field is a slice of its operand. -/
theorem packersBUJAreTheirFormulas : Obligations.PackersBUJAreTheirFormulas := by
  unfold Obligations.PackersBUJAreTheirFormulas
  refine ⟨fun op f3 rs1 rs2 imm => ?_, fun op rd imm => ?_, fun op rd imm => ?_, by decide, by decide, by decide⟩
  · simp (disch := decide) only [encodeB, packB, BitVec.toNat_append, trunc_succ_toNat, slice_trunc_toNat]
    simp only [Nat.shiftLeft_or_distrib, ← Nat.shiftLeft_add, Nat.reduceAdd]
  · simp only [encodeU, packU, upperBits, BitVec.toNat_append, trunc_succ_toNat]
    simp only [Nat.shiftLeft_or_distrib, ← Nat.shiftLeft_add, Nat.reduceAdd]
  · simp (disch := decide) only [encodeJ, packJ, BitVec.toNat_append, trunc_succ_toNat, slice_trunc_toNat]
    simp only [Nat.shiftLeft_or_distrib, ← Nat.shiftLeft_add, Nat.reduceAdd]

/-! ### What a format does not hold (R147, R148, R150) -/

/-- Settles O15: a packer takes each operand truncated, and B and J the half of their offset truncated. -/
theorem packersDropWhatTheirFormatDoesNotHold : Obligations.PackersDropWhatTheirFormatDoesNotHold := by
  unfold Obligations.PackersDropWhatTheirFormatDoesNotHold
  refine ⟨?_, fun cfg op f3 rs1 rs2 imm hodd hlo hhi => ?_, fun cfg op rd imm hodd hlo hhi => ?_⟩
  · intro op op' rd rd' f3 f3' rs1 rs1' rs2 rs2' f7 f7' imm imm' hop hrd hf3 hrs1 hrs2 hf7
    have eop : trunc 7 op = trunc 7 op' := trunc_congr hop
    have erd : trunc 5 rd = trunc 5 rd' := trunc_congr hrd
    have ef3 : trunc 3 f3 = trunc 3 f3' := trunc_congr hf3
    have ers1 : trunc 5 rs1 = trunc 5 rs1' := trunc_congr hrs1
    have ers2 : trunc 5 rs2 = trunc 5 rs2' := trunc_congr hrs2
    have ef7 : trunc 7 f7 = trunc 7 f7' := trunc_congr hf7
    refine ⟨?_, fun himm => ⟨?_, ?_⟩, fun himm => ?_, fun himm => ?_, fun himm => ?_⟩
    · simp only [encodeR, eop, erd, ef3, ers1, ers2, ef7]
    · have eimm : trunc 12 imm = trunc 12 imm' := trunc_congr himm
      simp only [encodeI, eop, erd, ef3, ers1, eimm]
    · have eimm : trunc 12 imm = trunc 12 imm' := trunc_congr himm
      simp only [encodeS, eop, ef3, ers1, ers2, eimm]
    · have eimm : trunc 12 (imm / 2) = trunc 12 (imm' / 2) := trunc_congr himm
      simp only [encodeB_eq_half, eop, ef3, ers1, ers2, eimm]
    · have eimm : trunc 20 imm = trunc 20 imm' := trunc_congr himm
      simp only [encodeU, upperBits, eop, erd, eimm]
    · have eimm : trunc 20 (imm / 2) = trunc 20 (imm' / 2) := trunc_congr himm
      simp only [encodeJ_eq_half, eop, erd, eimm]
  · rw [immB_encodeB]
    exact odd_offset_toInt (n := 11) (by decide) imm hodd hlo (by omega)
  · rw [immJ_encodeJ]
    exact odd_offset_toInt (n := 19) (by decide) imm hodd hlo (by omega)

end Sys2Proof
end

section
/-! Texts that read back (44_assembler.md R161 to R174): numbers written in decimal, the parts of a memory operand, the
tokens of a text and a line without a label. -/

namespace Sys2Proof.Machine

open Sys2Proof.Stated

/-! ### Numbers written in decimal -/

theorem toDigits_decimal (n : Nat) : ∀ c ∈ Nat.toDigits 10 n, '0' ≤ c ∧ c ≤ '9' := by
  intro c h
  have hdigit := Nat.isDigit_of_mem_toDigits (by decide) (by decide) h
  rwa [Char.isDigit, Bool.and_eq_true, decide_eq_true_iff, decide_eq_true_iff] at hdigit

theorem decimalValue_toDigits (n : Nat) : decimalValue (Nat.toDigits 10 n) = n :=
  Nat.ofDigitChars_eq_foldl.symm.trans Nat.ofDigitChars_ten_toDigits

theorem digits_toDigits (n : Nat) : digits 10 decimalDigit (Nat.toDigits 10 n) = some n := by
  rw [digits_decimal_eq_some_iff, digits10_iff, valueOf_ten (toDigits_decimal n), decimalValue_toDigits]
  exact ⟨⟨Nat.toDigits_ne_nil, toDigits_decimal n⟩, rfl⟩

/-- Decimal digits name no other base, since no letter is among them (R173). -/
theorem unsignedLiteral_of_digits {ds : Text} (h : ∀ c ∈ ds, '0' ≤ c ∧ c ≤ '9') :
    unsignedLiteral ds = digits 10 decimalDigit ds := by
  unfold unsignedLiteral
  split
  case h_7 => rfl
  all_goals exact absurd (h _ (.tail _ (.head _))) (by decide)

theorem literal_toDigits (n : Nat) : literal (Nat.toDigits 10 n) = some (n : Int) := by
  rw [literal, signed, unsignedLiteral_of_digits (toDigits_decimal n), digits_toDigits]
  · rfl
  · intro t ht
    exact absurd (toDigits_decimal n '+' (by simp [ht])) (by decide)
  · intro t ht
    exact absurd (toDigits_decimal n '-' (by simp [ht])) (by decide)

theorem literal_neg_toDigits (n : Nat) : literal ('-' :: Nat.toDigits 10 n) = some (-(n : Int)) := by
  rw [literal, signed, unsignedLiteral_of_digits (toDigits_decimal n), digits_toDigits]
  rfl

/-! ### Memory operands -/

/-- The offset of a memory operand ends at the first `(`, and the register at the final `)` (R174). -/
theorem memoryParts_eq {off : Text} (reg : Text) (hne : off ≠ []) (hopen : '(' ∉ off) :
    memoryParts (off ++ '(' :: (reg ++ [')'])) = some (off, reg) := by
  have hbefore : ∀ c ∈ off, decide (c ≠ '(') = true := fun c hc => decide_eq_true (ne_of_mem_of_not_mem hc hopen)
  unfold memoryParts
  rw [List.takeWhile_append_of_pos hbefore, List.dropWhile_append_of_pos hbefore]
  simp [hne]

/-! ### White space and tokens -/

theorem isSpace_of_printing {c : Char} (h : '!' ≤ c ∧ c ≤ '~') : isSpace c = false := by
  have hwhite : ¬(c = ' ' ∨ c = '\t' ∨ c = '\n' ∨ c = '\r') := by
    rintro (rfl | rfl | rfl | rfl) <;> exact absurd h.1 (by decide)
  rw [isSpace, if_neg hwhite, if_pos h]

theorem splitSpaces_append (a b : Text) {c : Char} (h : isSpace c = true) :
    splitSpaces (a ++ c :: b) = splitSpaces a ++ splitSpaces b := by
  simp only [splitSpaces, splitAt_append isSpace a b h, List.filter_append]

theorem splitSpaces_token {t : Text} (hne : t ≠ []) (h : ∀ c ∈ t, isSpace c = false) : splitSpaces t = [t] := by
  rw [splitSpaces, splitAt_none isSpace t h]
  simp [hne]

/-- White space and commas separate tokens (R168). -/
theorem tokensOf_append (a b : Text) {c : Char} (h : isSpace c = true ∨ c = ',') :
    tokensOf (a ++ c :: b) = tokensOf a ++ tokensOf b := by
  have hspace : isSpace (if c = ',' then ' ' else c) = true := by
    split
    · rfl
    · exact h.resolve_right ‹_›
  simp only [tokensOf, List.map_append, List.map_cons, splitSpaces_append _ _ hspace]

/-- A text without white space or a comma is one token (R168). -/
theorem tokensOf_token {t : Text} (hne : t ≠ []) (h : ∀ c ∈ t, isSpace c = false ∧ c ≠ ',') : tokensOf t = [t] := by
  have hmap : t.map (fun c => if c = ',' then ' ' else c) = t := by
    rw [List.map_congr_left (g := id), List.map_id]
    exact fun c hc => if_neg (h c hc).2
  rw [tokensOf, hmap, splitSpaces_token hne fun c hc => (h c hc).1]

/-! ### A line without a label -/

theorem dropWhile_of_head {p : Char → Bool} {t : Text} (h : ∀ c, t.head? = some c → p c = false) :
    t.dropWhile p = t := by
  cases t with
  | nil => rfl
  | cons c rest => rw [List.dropWhile_cons_of_neg (by simp [h c rfl])]

/-- There is nothing to trim where no end is white space (R161). -/
theorem trim_of_trimmed {t : Text} (h : Trimmed t) : trim t = t := by
  obtain ⟨-, hhead, hlast⟩ := h
  rw [trim, dropWhile_of_head hhead, dropWhile_of_head (by simpa using hlast), List.reverse_reverse]

/-- A trimmed text without a comment or a colon is an instruction without a label (R161 to R163). -/
theorem classify_plain {t : Text} (h : Trimmed t) (hcomment : '#' ∉ t) (hcolon : ':' ∉ t) : classify t = .plain t := by
  have hstrip : stripComment t = t := by
    rw [stripComment, List.takeWhile_eq_self_iff.mpr, trim_of_trimmed h]
    exact fun c hc => decide_eq_true (ne_of_mem_of_not_mem hc hcomment)
  have hdrop : t.dropWhile (· ≠ ':') = [] :=
    List.dropWhile_eq_nil_iff.mpr fun c hc => decide_eq_true (ne_of_mem_of_not_mem hc hcolon)
  have hne : t.isEmpty = false := by simpa using h.1
  simp only [classify, hstrip, hdrop, hne]
  rfl

/-- A source of one instruction without a label assembles to its word (R160, R167). -/
theorem assemble_of_plain {source text : Text} {w : Word} (hlines : linesOf source = [.plain text])
    (h : encodeLine machineConfig 1 0 [] text = .ok w) : assemble machineConfig source = .ok [w] := by
  have hlabels : pass1 machineConfig 0 [] [.plain text] = [] := rfl
  simp only [assemble, hlines, hlabels, pass2, LineClass.instruction, h]

end Sys2Proof.Machine
end

section
/-! The assembly text of an instruction (44_assembler.md R170, R178; 43_encoder.md R151): its operand texts read back,
they are the tokens of its one line, and the line encodes to the instruction's word. Settles O56. -/

namespace Sys2Proof.Machine

open Sys2Proof.Stated

/-! ### Operand texts read back -/

theorem literal_immText (v : Int) : literal (immText v) = some v := by
  unfold immText
  split
  · rw [literal_neg_toDigits]; congr 1; omega
  · rw [literal_toDigits]; congr 1; omega

theorem resolveImm_immText (line pc : Nat) (labels : Labels) (v : Int) :
    resolveImm line pc labels (immText v) = .ok v := by
  simp only [resolveImm, literal_immText]

theorem registerIndexOf_regText (line : Option Nat) (r : Reg) :
    registerIndexOf machineConfig line (regText r.toNat) = .ok r.toNat := by
  obtain ⟨hnames, -⟩ := registerNamesAreTheAbiNamesAndXForms line (regText r.toNat)
  have hle : r.toNat ≤ 31 := Nat.le_of_lt_succ r.isLt
  exact (hnames _).mpr (.inr ⟨_, rfl, Nat.toDigits_ne_nil, toDigits_decimal _, decimalValue_toDigits _, hle⟩)

theorem immText_ne_nil (v : Int) : immText v ≠ [] := by
  unfold immText
  split
  · exact List.cons_ne_nil _ _
  · exact Nat.toDigits_ne_nil

theorem mem_immText {v : Int} {c : Char} (h : c ∈ immText v) : c = '-' ∨ '0' ≤ c ∧ c ≤ '9' := by
  unfold immText at h
  split at h
  · exact (List.mem_cons.mp h).imp_right (toDigits_decimal _ c)
  · exact .inr (toDigits_decimal _ c h)

theorem mem_regText {n : Int} {c : Char} (h : c ∈ regText n) : c = 'x' ∨ '0' ≤ c ∧ c ≤ '9' :=
  (List.mem_cons.mp h).imp_right (toDigits_decimal _ c)

/-- A memory operand written `IMM(xN)` (R174). -/
def memoryText (imm rs1 : Int) : Text := immText imm ++ '(' :: (regText rs1 ++ [')'])

theorem memoryOperand_memoryText (line pc : Nat) (labels : Labels) (imm : Int) (rs1 : Reg) :
    memoryOperand machineConfig line pc labels (memoryText imm rs1.toNat) = .ok (imm, rs1.toNat) := by
  have hopen : '(' ∉ immText imm := fun h => absurd (mem_immText h) (by decide)
  simp only [memoryOperand, memoryText, memoryParts_eq _ (immText_ne_nil imm) hopen, resolveImm_immText,
    registerIndexOf_regText]
  rfl

/-! ### The operands of an instruction -/

/-- The operand texts of a group, in its order (R170). -/
def operandTexts (v : OperandValues) : OperandShape → List Text
  | .threeRegisters => [regText v.rd, regText v.rs1, regText v.rs2]
  | .twoRegistersImm => [regText v.rd, regText v.rs1, immText v.imm]
  | .twoRegistersShamt => [regText v.rd, regText v.rs1, immText v.shamt]
  | .load => [regText v.rd, memoryText v.imm v.rs1]
  | .store => [regText v.rs2, memoryText v.imm v.rs1]
  | .branch => [regText v.rs1, regText v.rs2, immText v.imm]
  | .registerImm => [regText v.rd, immText v.imm]

theorem assemblyText_eq {m : Mnemonic} {shape : OperandShape} (h : operandShape m = some shape) (v : OperandValues) :
    assemblyText m v = m.name ++ ' ' :: [',', ' '].intercalate (operandTexts v shape) := by
  unfold assemblyText
  rw [h]
  cases shape <;> simp [operandTexts, memoryText, List.intercalate]

/-- The operand texts of an instruction read back as its operand values (R170). -/
theorem readOperands_operandTexts (line pc : Nat) (labels : Labels) (text : Text) (i : Instr) :
    ∃ shape, operandShape (operandsOf i).1 = some shape ∧
      readOperands machineConfig line pc labels text shape (operandTexts (operandsOf i).2 shape)
        = .ok (operandsOf i).2 := by
  cases i
  all_goals
    refine ⟨_, rfl, ?_⟩
    simp only [operandsOf, operandTexts, readOperands, registerIndexOf_regText, resolveImm_immText,
      memoryOperand_memoryText]
    rfl

/-! ### The characters of an assembly text -/

/-- A character of a token: printing ASCII, and none that separates tokens, ends a label or starts a comment
(R161, R162, R168). -/
def TokenChar (c : Char) : Prop := '!' ≤ c ∧ c ≤ '~' ∧ c ∉ [',', ':', '#']

/-- A text that is one token. -/
def TokenText (t : Text) : Prop := t ≠ [] ∧ ∀ c ∈ t, TokenChar c

theorem TokenChar.not_space {c : Char} (h : TokenChar c) : isSpace c = false := isSpace_of_printing ⟨h.1, h.2.1⟩

theorem TokenChar.ne {c r : Char} (h : TokenChar c) (hr : r ∈ [',', ':', '#']) : c ≠ r :=
  (ne_of_mem_of_not_mem hr h.2.2).symm

/-- A range of printing characters with none of the three in it holds token characters only. -/
theorem tokenChar_of_range {lo hi c : Char} (h : lo ≤ c ∧ c ≤ hi) (hlo : '!' ≤ lo) (hhi : hi ≤ '~')
    (hrole : ∀ r ∈ [',', ':', '#'], ¬(lo ≤ r ∧ r ≤ hi)) : TokenChar c :=
  ⟨le_trans hlo h.1, le_trans h.2 hhi, fun hc => hrole c hc h⟩

theorem tokenChar_of_digit {c : Char} (h : '0' ≤ c ∧ c ≤ '9') : TokenChar c :=
  tokenChar_of_range h (by decide) (by decide) (by simp)

theorem tokenChar_of_letter {c : Char} (h : 'a' ≤ c ∧ c ≤ 'z') : TokenChar c :=
  tokenChar_of_range h (by decide) (by decide) (by simp)

theorem tokenText_regText (n : Int) : TokenText (regText n) := by
  refine ⟨List.cons_ne_nil _ _, fun c hc => ?_⟩
  rcases mem_regText hc with rfl | hdigit
  · exact tokenChar_of_letter (by decide)
  · exact tokenChar_of_digit hdigit

theorem tokenText_immText (v : Int) : TokenText (immText v) := by
  refine ⟨immText_ne_nil v, fun c hc => ?_⟩
  rcases mem_immText hc with rfl | hdigit
  · unfold TokenChar; decide
  · exact tokenChar_of_digit hdigit

theorem tokenText_memoryText (imm rs1 : Int) : TokenText (memoryText imm rs1) := by
  refine ⟨List.append_ne_nil_of_left_ne_nil (immText_ne_nil imm) _, fun c hc => ?_⟩
  simp only [memoryText, List.mem_append, List.mem_cons, List.not_mem_nil, or_false] at hc
  rcases hc with himm | rfl | hreg | rfl
  · exact (tokenText_immText imm).2 c himm
  · unfold TokenChar; decide
  · exact (tokenText_regText rs1).2 c hreg
  · unfold TokenChar; decide

theorem name_letters (m : Mnemonic) : ∀ c ∈ m.name, 'a' ≤ c ∧ c ≤ 'z' := by
  have hall : m.name.all (fun c => 'a' ≤ c && c ≤ 'z') = true := by cases m <;> decide
  simpa using hall

theorem tokenText_name (m : Mnemonic) : TokenText m.name :=
  ⟨by cases m <;> decide, fun c hc => tokenChar_of_letter (name_letters m c hc)⟩

theorem tokenText_operandTexts (v : OperandValues) (shape : OperandShape) :
    ∀ t ∈ operandTexts v shape, TokenText t := by
  cases shape <;>
    simp [operandTexts, tokenText_regText, tokenText_immText, tokenText_memoryText]

/-- Lowercasing leaves a mnemonic's name as it is (R168). -/
theorem name_map_lowerAscii (m : Mnemonic) : m.name.map lowerAscii = m.name := by
  rw [List.map_congr_left (g := id), List.map_id]
  intro c hc
  have hupper : ¬('A' ≤ c ∧ c ≤ 'Z') := fun h => absurd (le_trans (name_letters m c hc).1 h.2) (by decide)
  rw [lowerAscii, if_neg hupper, id]

/-! ### Tokens with a comma and a space between them -/

theorem TokenText.tokensOf_eq {t : Text} (h : TokenText t) : tokensOf t = [t] :=
  tokensOf_token h.1 fun c hc => ⟨(h.2 c hc).not_space, (h.2 c hc).ne (by decide)⟩

/-- Token texts with a comma and a space between them are the tokens (R168). -/
theorem tokensOf_intercalate {toks : List Text} (h : ∀ t ∈ toks, TokenText t) :
    tokensOf ([',', ' '].intercalate toks) = toks := by
  induction toks with
  | nil => rfl
  | cons t rest ih =>
    obtain ⟨ht, hrest⟩ := List.forall_mem_cons.mp h
    by_cases hnil : rest = []
    · rw [hnil, List.intercalate_singleton, ht.tokensOf_eq]
    · rw [List.intercalate_cons_of_ne_nil hnil, List.append_assoc]
      calc tokensOf (t ++ ',' :: ([] ++ ' ' :: [',', ' '].intercalate rest))
        _ = tokensOf t ++ (tokensOf [] ++ tokensOf ([',', ' '].intercalate rest)) := by
          rw [tokensOf_append _ _ (.inr rfl), tokensOf_append _ _ (.inl rfl)]
        _ = t :: rest := by rw [ht.tokensOf_eq, ih hrest]; rfl

/-! ### Texts of one line -/

/-- A text of token characters, commas and spaces without a space at either end. -/
def LineText (t : Text) : Prop := Trimmed t ∧ ∀ c ∈ t, TokenChar c ∨ c ∈ [',', ' ']

theorem TokenText.lineText {t : Text} (h : TokenText t) : LineText t := by
  obtain ⟨hne, hall⟩ := h
  exact ⟨⟨hne, fun c hc => (hall c (List.mem_of_mem_head? hc)).not_space,
    fun c hc => (hall c (List.mem_of_mem_getLast? hc)).not_space⟩, fun c hc => .inl (hall c hc)⟩

theorem LineText.append {a sep b : Text} (ha : LineText a) (hsep : ∀ c ∈ sep, c ∈ [',', ' ']) (hb : LineText b) :
    LineText (a ++ sep ++ b) := by
  obtain ⟨⟨hane, hahead, -⟩, hachars⟩ := ha
  obtain ⟨⟨hbne, -, hblast⟩, hbchars⟩ := hb
  refine ⟨⟨List.append_ne_nil_of_right_ne_nil _ hbne, ?_, ?_⟩, fun c hc => ?_⟩
  · rwa [List.append_assoc, List.head?_append_of_ne_nil _ hane]
  · rwa [List.getLast?_append_of_ne_nil _ hbne]
  · simp only [List.mem_append] at hc
    rcases hc with (hc | hc) | hc
    · exact hachars c hc
    · exact .inr (hsep c hc)
    · exact hbchars c hc

theorem lineText_intercalate {toks : List Text} (hne : toks ≠ []) (h : ∀ t ∈ toks, TokenText t) :
    LineText ([',', ' '].intercalate toks) := by
  induction toks with
  | nil => exact absurd rfl hne
  | cons t rest ih =>
    obtain ⟨ht, hrest⟩ := List.forall_mem_cons.mp h
    by_cases hnil : rest = []
    · rw [hnil, List.intercalate_singleton]
      exact ht.lineText
    · rw [List.intercalate_cons_of_ne_nil hnil]
      exact ht.lineText.append (fun c => id) (ih hnil hrest)

theorem LineText.not_mem {t : Text} (h : LineText t) {r : Char} (hr : r ∈ ['\n', ':', '#']) : r ∉ t := by
  intro hmem
  rcases h.2 r hmem with htoken | hsep
  · rcases List.mem_cons.mp hr with rfl | hrole
    · exact absurd htoken.1 (by decide)
    · exact htoken.2.2 (.tail _ hrole)
  · have hdisjoint : ∀ r ∈ ['\n', ':', '#'], r ∉ [',', ' '] := by simp
    exact hdisjoint r hr hsep

/-- Such a text is one line (R161, R163). -/
theorem LineText.linesOf_eq {t : Text} (h : LineText t) : linesOf t = [.plain t] := by
  have hsplit : splitLines t = [t] :=
    splitAt_none _ t fun c hc => decide_eq_false (ne_of_mem_of_not_mem hc (h.not_mem (by decide)))
  rw [linesOf, hsplit, List.map_singleton, classify_plain h.1 (h.not_mem (by decide)) (h.not_mem (by decide))]

/-! ### The word of a line -/

/-- The line of an instruction's name and operands that read as its values encodes to its word (R168 to R170). -/
theorem encodeLine_of_tokens {m : Mnemonic} {ops : OperandValues} {i : Instr} {shape : OperandShape} {line pc : Nat}
    {labels : Labels} {text : Text} {operands : List Text} (hi : instrOf m ops = some i)
    (htoks : tokensOf text = m.name :: operands) (hshape : operandShape m = some shape)
    (hread : readOperands machineConfig line pc labels text shape operands = .ok ops) :
    encodeLine machineConfig line pc labels text = .ok (encode i) := by
  have hpack := packRow_rowOf m ops
  rw [hi] at hpack
  obtain ⟨row, hrow, hword⟩ := Option.map_eq_some_iff.mp hpack
  obtain ⟨hmem, rfl⟩ := (rowOf_eq_some_iff _ _).mp hrow
  simp only [encodeLine, htoks, name_map_lowerAscii, selectRow_name hmem, bind, Except.bind, hshape, hread, hword]
  rfl

/-! ### The line of an instruction -/

section
variable {m : Mnemonic} {shape : OperandShape} (h : operandShape m = some shape) (v : OperandValues)
include h

theorem tokensOf_assemblyText : tokensOf (assemblyText m v) = m.name :: operandTexts v shape := by
  rw [assemblyText_eq h, tokensOf_append _ _ (.inl rfl), (tokenText_name m).tokensOf_eq,
    tokensOf_intercalate (tokenText_operandTexts v shape)]
  rfl

theorem lineText_assemblyText : LineText (assemblyText m v) := by
  have hne : operandTexts v shape ≠ [] := by cases shape <;> exact List.cons_ne_nil _ _
  rw [assemblyText_eq h, ← List.singleton_append, ← List.append_assoc]
  exact (tokenText_name m).lineText.append (by simp) (lineText_intercalate hne (tokenText_operandTexts v shape))

end

/-- Settles O56: the text is one line, its tokens are the name and the operand texts, and these read back. -/
theorem textOfEveryInstructionAssemblesToItsWord : Obligations.TextOfEveryInstructionAssemblesToItsWord := by
  unfold Obligations.TextOfEveryInstructionAssemblesToItsWord
  intro i hi
  obtain ⟨shape, hshape, hread⟩ := readOperands_operandTexts 1 0 [] (assemblyText _ (operandsOf i).2) i
  exact assemble_of_plain (lineText_assemblyText hshape _).linesOf_eq
    (encodeLine_of_tokens (instrOf_operandsOf hi) (tokensOf_assemblyText hshape _) hshape hread)

end Sys2Proof.Machine
end

section
/-! Integer literals (44_assembler.md R173): the digits of each base, its letter and the sign. Settles O49. -/

namespace Sys2Proof.Machine

open Sys2Proof.Stated

/-! ### The digits of a base -/

/-- Digits are read one by one: each is one digit of the base. -/
theorem digits_iff_forall (base : Nat) (ds : Text) : Digits base ds ↔ ds ≠ [] ∧ ∀ c ∈ ds, Digits base [c] := by
  simp [Digits]

theorem valueOf_singleton (base : Nat) (c : Char) :
    valueOf base [c] = if c ≤ '9' then c.toNat - 48 else if 'a' ≤ c then c.toNat - 87 else c.toNat - 55 := by
  simp [valueOf]

/-- Every digit counts as its own value. -/
theorem valueOf_eq_foldl (base : Nat) (ds : Text) :
    valueOf base ds = ds.foldl (fun n c => base * n + valueOf base [c]) 0 := by
  simp only [valueOf_singleton]
  rfl

/-- `digit` reads exactly the digits of the base, each as its value (R173). -/
def ReadsDigit (base : Nat) (digit : Char → Option Nat) : Prop :=
  ∀ c d, digit c = some d ↔ Digits base [c] ∧ d = valueOf base [c]

/-- Reading the digits of a base gives the number that one or more of them write, and nothing else. -/
theorem ReadsDigit.digits_eq_some_iff {base : Nat} {digit : Char → Option Nat} (h : ReadsDigit base digit) (t : Text)
    (n : Nat) : digits base digit t = some n ↔ Digits base t ∧ n = valueOf base t := by
  rw [digits_iff_forall, and_assoc, valueOf_eq_foldl]
  cases t with
  | nil => simp [digits]
  | cons c rest =>
    rw [digits, List.isEmpty_cons, if_neg Bool.false_ne_true, and_iff_right (List.cons_ne_nil c rest)]
    exact digitsFrom_eq_some_iff (fun c hc => (h c _).mpr ⟨hc, rfl⟩) (fun c d hd => ((h c d).mp hd).1) 0 _ n

theorem readsDigit_octalDigit : ReadsDigit 8 octalDigit := by
  intro c d
  have hdigit : Digits 8 [c] ↔ '0' ≤ c ∧ c ≤ '7' := by simp [Digits]
  rw [hdigit, valueOf_singleton, octalDigit]
  split
  case isTrue h =>
    have h9 : c ≤ '9' := le_trans h.2 (by decide)
    simp [h, h9, eq_comm]
  case isFalse h => simp [h]

theorem readsDigit_binaryDigit : ReadsDigit 2 binaryDigit := by
  intro c d
  have hdigit : Digits 2 [c] ↔ c = '0' ∨ c = '1' := by simp [Digits]
  rw [hdigit, valueOf_singleton, binaryDigit]
  split
  case isTrue h => subst h; simp [eq_comm]
  case isFalse h0 =>
    split
    case isTrue h => subst h; simp [eq_comm]
    case isFalse h1 => simp [h0, h1]

/-- The three ranges of hexadecimal digits lie apart, so at most one of them gives a character its value. -/
theorem readsDigit_hexDigit : ReadsDigit 16 hexDigit := by
  intro c d
  have hdigit : Digits 16 [c] ↔ '0' ≤ c ∧ c ≤ '9' ∨ 'a' ≤ c ∧ c ≤ 'f' ∨ 'A' ≤ c ∧ c ≤ 'F' := by simp [Digits]
  rw [hdigit, valueOf_singleton, hexDigit]
  split
  case isTrue h => simp [h, eq_comm]
  case isFalse hdec =>
    split
    case isTrue h =>
      have h9 : ¬c ≤ '9' := fun h9 => absurd (le_trans h.1 h9) (by decide)
      simp [h, h9, eq_comm]
    case isFalse hlower =>
      split
      case isTrue h =>
        have h9 : ¬c ≤ '9' := fun h9 => absurd (le_trans h.1 h9) (by decide)
        have ha : ¬'a' ≤ c := fun ha => absurd (le_trans ha h.2) (by decide)
        simp [h, h9, ha, eq_comm]
      case isFalse hupper => simp [hdec, hlower, hupper]

/-! ### The grammar -/

/-- A literal without its sign is decimal or begins with `0` and the letter of its base, which is no decimal digit. -/
theorem unsignedLiteral_eq_some_iff (t : Text) (n : Nat) : unsignedLiteral t = some n ↔ UnsignedForm t n := by
  have hhex := readsDigit_hexDigit.digits_eq_some_iff
  have hoct := readsDigit_octalDigit.digits_eq_some_iff
  have hbin := readsDigit_binaryDigit.digits_eq_some_iff
  constructor
  · intro h
    unfold unsignedLiteral at h
    split at h
    case h_1 ds | h_2 ds =>
      obtain ⟨hds, hn⟩ := (hhex ds n).mp h
      exact ⟨16, ds, hds, hn, .inr (.inl ⟨rfl, by simp⟩)⟩
    case h_3 ds | h_4 ds =>
      obtain ⟨hds, hn⟩ := (hoct ds n).mp h
      exact ⟨8, ds, hds, hn, .inr (.inr (.inl ⟨rfl, by simp⟩))⟩
    case h_5 ds | h_6 ds =>
      obtain ⟨hds, hn⟩ := (hbin ds n).mp h
      exact ⟨2, ds, hds, hn, .inr (.inr (.inr ⟨rfl, by simp⟩))⟩
    case h_7 =>
      obtain ⟨hds, hn⟩ := (digits_decimal_eq_some_iff t n).mp h
      exact ⟨10, t, hds, hn, .inl ⟨rfl, rfl⟩⟩
  · rintro ⟨base, ds, hds, hn, ⟨rfl, rfl⟩ | ⟨rfl, rfl | rfl⟩ | ⟨rfl, rfl | rfl⟩ | ⟨rfl, rfl | rfl⟩⟩
    · rw [unsignedLiteral_of_digits ((digits10_iff _).mp hds).2]
      exact (digits_decimal_eq_some_iff _ n).mpr ⟨hds, hn⟩
    · exact (hhex ds n).mpr ⟨hds, hn⟩
    · exact (hhex ds n).mpr ⟨hds, hn⟩
    · exact (hoct ds n).mpr ⟨hds, hn⟩
    · exact (hoct ds n).mpr ⟨hds, hn⟩
    · exact (hbin ds n).mpr ⟨hds, hn⟩
    · exact (hbin ds n).mpr ⟨hds, hn⟩

/-- A literal without its sign begins with a decimal digit. -/
theorem unsignedForm_head {c : Char} {t : Text} {n : Nat} (h : UnsignedForm (c :: t) n) : '0' ≤ c ∧ c ≤ '9' := by
  obtain ⟨base, ds, hds, -, ⟨rfl, rfl⟩ | ⟨-, hbody | hbody⟩ | ⟨-, hbody | hbody⟩ | ⟨-, hbody | hbody⟩⟩ := h
  · exact ((digits10_iff _).mp hds).2 c (.head _)
  all_goals cases hbody; decide

/-- The literals are the texts of the grammar (R173). -/
theorem literal_eq_some_iff (t : Text) (v : Int) : literal t = some v ↔ SignedForm UnsignedForm t v :=
  signed_eq_some_iff unsignedLiteral_eq_some_iff (fun _ _ h => absurd (unsignedForm_head h) (by decide))
    (fun _ _ h => absurd (unsignedForm_head h) (by decide)) t v

/-! ### Numbers written in a base -/

/-- A number's digits in a base read back, where `digit` reads the base's digit characters. -/
theorem digits_toDigits_of_digitChar {base : Nat} {digit : Char → Option Nat} (hbase : 1 < base)
    (hdigit : ∀ d < base, digit d.digitChar = some d) (n : Nat) :
    digits base digit (Nat.toDigits base n) = some n := by
  rw [digits, if_neg (by simp)]
  induction n using Nat.strong_induction_on with
  | _ n ih =>
    by_cases hlt : n < base
    · simp [Nat.toDigits_of_lt_base hlt, digitsFrom, hdigit n hlt]
    · have hhigh := ih (n / base) (Nat.div_lt_self (by omega) hbase)
      have hlow := hdigit (n % base) (Nat.mod_lt n (by omega))
      rw [Nat.toDigits_of_base_le hbase (by omega), digitsFrom_append, hhigh]
      simp only [Option.bind_some, digitsFrom, hlow, Nat.div_add_mod']

theorem hexDigit_digitChar : ∀ d < 16, hexDigit d.digitChar = some d := by decide

theorem octalDigit_digitChar : ∀ d < 8, octalDigit d.digitChar = some d := by decide

theorem binaryDigit_digitChar : ∀ d < 2, binaryDigit d.digitChar = some d := by decide

/-- Settles O49: the sign is split off first and a letter after `0` names the base; a number's digits read back. -/
theorem literalsOfEveryBaseReadBack : Obligations.LiteralsOfEveryBaseReadBack := by
  unfold Obligations.LiteralsOfEveryBaseReadBack
  refine ⟨literal_eq_some_iff, fun n => ?_⟩
  have hplus : literal ('+' :: Nat.toDigits 10 n) = some (n : Int) := by
    rw [literal, signed, unsignedLiteral_of_digits (toDigits_decimal n), digits_toDigits]
    rfl
  have hhex := digits_toDigits_of_digitChar (by decide) hexDigit_digitChar n
  have hoct := digits_toDigits_of_digitChar (by decide) octalDigit_digitChar n
  have hbin := digits_toDigits_of_digitChar (by decide) binaryDigit_digitChar n
  refine ⟨literal_toDigits n, hplus, literal_neg_toDigits n, ?_, ?_, ?_, ?_⟩
  · exact congrArg (Option.map Int.ofNat) hhex
  · exact congrArg (Option.map fun k => -Int.ofNat k) hhex
  · exact congrArg (Option.map Int.ofNat) hoct
  · exact congrArg (Option.map Int.ofNat) hbin

end Sys2Proof.Machine
end

section
/-! The operands of a line (44_assembler.md R169 to R175, R179): immediates, memory operands, the operand count and what
an encoded line looks at. Settles O50, O54, O55 and O58. -/

namespace Sys2Proof.Machine

open Sys2Proof.Stated

/-! ### Immediates -/

/-- Settles O50: the literal is looked for first, then the label. -/
theorem immediatesAreLiteralsThenRelativeLabels : Obligations.ImmediatesAreLiteralsThenRelativeLabels := by
  unfold Obligations.ImmediatesAreLiteralsThenRelativeLabels
  intro line pc labels tok
  rcases resolveImm_cases line pc labels tok with ⟨v, hlit, h⟩ | ⟨a, hlit, hlabel, h⟩ | ⟨hlit, hlabel, h⟩
  · simp [hlit, h]
  · simp [hlit, hlabel, h]
  · simp [hlit, hlabel, h]

/-- A token that is no literal resolves to the distance of its label (R172). -/
theorem resolveImm_of_not_literal {tok : Text} (hlit : literal tok = none) (line pc : Nat) (labels : Labels) :
    resolveImm line pc labels tok = ((labelOffset labels tok).map fun a => (a : Int) - (pc : Int)).elim
      (.error (.undefinedLabel (some line) tok)) .ok := by
  rw [resolveImm, hlit]
  cases labelOffset labels tok with
  | none => rfl
  | some a => rfl

/-- An immediate looks at the labels and the pc through the labels' distances only (R172, R179). -/
theorem resolveImm_congr {pc pc' : Nat} {labels labels' : Labels}
    (h : ∀ name, (labelOffset labels name).map (fun a => (a : Int) - (pc : Int))
      = (labelOffset labels' name).map (fun a => (a : Int) - (pc' : Int))) (line : Nat) (tok : Text) :
    resolveImm line pc labels tok = resolveImm line pc' labels' tok := by
  cases hlit : literal tok with
  | some v => rw [resolveImm, resolveImm, hlit]
  | none => rw [resolveImm_of_not_literal hlit, resolveImm_of_not_literal hlit, h]

/-- Settles O55: only immediates look at the labels and the pc, and only at the distances between them. -/
theorem equalDistancesEncodeAlike : Obligations.EqualDistancesEncodeAlike := by
  unfold Obligations.EqualDistancesEncodeAlike
  intro line pc pc' labels labels' text h
  simp only [encodeLine, readOperands, memoryOperand, resolveImm_congr h]

/-! ### Memory operands -/

/-- The parts of a memory operand make up the whole token (R174). -/
theorem memoryParts_eq_some_iff (tok off reg : Text) :
    memoryParts tok = some (off, reg) ↔ off ≠ [] ∧ '(' ∉ off ∧ tok = off ++ '(' :: (reg ++ [')']) := by
  constructor
  · intro h
    unfold memoryParts at h
    dsimp only at h
    split at h
    case h_1 => cases h
    case h_2 c rest hdrop =>
      split at h
      case h_1 reg' hrev =>
        split at h
        case isTrue => cases h
        case isFalse hne =>
          cases h
          have hrest : rest = reg'.reverse ++ [')'] := by
            rw [← List.reverse_reverse rest, hrev, List.reverse_cons]
          have hhead := List.head?_dropWhile_not (fun c => decide (c ≠ '(')) tok
          obtain rfl : c = '(' := by
            rw [hdrop] at hhead
            simpa using hhead
          refine ⟨by simpa using hne, fun hopen => by simpa using List.mem_takeWhile_imp hopen, ?_⟩
          rw [← hrest, ← hdrop, List.takeWhile_append_dropWhile]
      case h_2 => cases h
  · rintro ⟨hne, hopen, rfl⟩
    exact memoryParts_eq reg hne hopen

/-- A memory operand's offset is resolved before its register is looked up (log 12). -/
theorem memoryOperand_of_parts {tok off reg : Text} (h : memoryParts tok = some (off, reg)) (cfg : Config)
    (line pc : Nat) (labels : Labels) : memoryOperand cfg line pc labels tok =
      (resolveImm line pc labels off).bind fun imm =>
        (registerIndexOf cfg (some line) reg).map fun rs1 => (imm, rs1) := by
  simp only [memoryOperand, h]
  rfl

/-- Settles O58: the token's parts are read from left to right, and a token without the parts is malformed. -/
theorem memoryOperandsAreOffsetAndRegister : Obligations.MemoryOperandsAreOffsetAndRegister := by
  unfold Obligations.MemoryOperandsAreOffsetAndRegister
  intro line pc labels
  refine ⟨fun off reg hne hopen => ?_, fun tok hno => ?_⟩
  · rw [memoryOperand_of_parts (memoryParts_eq reg hne hopen)]
    refine ⟨fun v n himm hreg => ?_, fun e himm => ?_, fun v e himm hreg => ?_⟩
    · rw [himm, hreg]; rfl
    · rw [himm]; rfl
    · rw [himm, hreg]; rfl
  · have hparts : memoryParts tok = none := by
      by_contra hsome
      obtain ⟨⟨off, reg⟩, hsome⟩ := Option.ne_none_iff_exists'.mp hsome
      obtain ⟨hne, hopen, htok⟩ := (memoryParts_eq_some_iff tok off reg).mp hsome
      exact hno off reg hne hopen htok
    simp only [memoryOperand, hparts]

/-! ### The mnemonic and the operand count -/

/-- A wrong operand count is `MalformedInput` of the instruction's text, whatever the operands are (R175). -/
theorem readOperands_of_length_ne {m : Mnemonic} {shape : OperandShape} {operands : List Text}
    (hshape : operandShape m = some shape) (h : operands.length ≠ arity m) (cfg : Config) (line pc : Nat)
    (labels : Labels) (text : Text) :
    readOperands cfg line pc labels text shape operands = .error (.malformedInput (some line) text) := by
  rw [arity, hshape] at h
  unfold readOperands
  split
  case h_8 => rfl
  all_goals exact absurd rfl h

theorem isaTable_operandShape : ∀ row ∈ isaTable, ∃ shape, operandShape row.mnemonic = some shape := by
  simp only [← Option.isSome_iff_exists]
  decide

/-- Settles O54: the row is selected before the operands are counted, and counting comes before reading. -/
theorem mnemonicThenOperandCountAreCheckedFirst : Obligations.MnemonicThenOperandCountAreCheckedFirst := by
  unfold Obligations.MnemonicThenOperandCountAreCheckedFirst
  intro line pc labels text first operands htoks
  refine ⟨fun hno => ?_, fun row hrow hname hcount => ?_⟩
  · rcases selectRow_cases machineConfig (some line) (first.map lowerAscii) with ⟨row, hrow, hname, -⟩ | ⟨-, hsel⟩
    · exact absurd hname (hno row hrow)
    · simp only [encodeLine, htoks, hsel]; rfl
  · obtain ⟨shape, hshape⟩ := isaTable_operandShape row hrow
    have hread := readOperands_of_length_ne hshape hcount machineConfig line pc labels text
    simp only [encodeLine, htoks, ← hname, selectRow_name hrow, bind, Except.bind, hshape, hread]

end Sys2Proof.Machine
end

section
/-! The two passes (44_assembler.md R160 to R167): where a label lies and which words a source gives. Settles O51 and
O52. -/

namespace Sys2Proof.Machine

open Sys2Proof.Stated

/-! ### Instruction-bearing lines -/

theorem instructionLines_skip {line : LineClass} (h : line.instruction = none) (number : Nat) (rest : List LineClass) :
    instructionLines number (line :: rest) = instructionLines (number + 1) rest := by
  rw [instructionLines, h]

theorem instructionLines_take {line : LineClass} {text : Text} (h : line.instruction = some text) (number : Nat)
    (rest : List LineClass) :
    instructionLines number (line :: rest) = (number, text) :: instructionLines (number + 1) rest := by
  rw [instructionLines, h]

theorem pcAfter_skip {line : LineClass} (h : line.instruction = none) (pc : Nat) :
    pcAfter machineConfig pc line = pc := by
  rw [pcAfter_machineConfig, h]
  rfl

theorem pcAfter_take {line : LineClass} {text : Text} (h : line.instruction = some text) (pc : Nat) :
    pcAfter machineConfig pc line = pc + 4 := by
  rw [pcAfter_machineConfig, h]
  rfl

/-! ### Pass 1 -/

/-- The pc moves on by 4 for each instruction-bearing line and stands still at every other (R164). -/
theorem foldl_pcAfter (number pc : Nat) (lines : List LineClass) :
    lines.foldl (pcAfter machineConfig) pc = pc + 4 * (instructionLines number lines).length := by
  induction lines generalizing number pc with
  | nil => rfl
  | cons line rest ih =>
    rw [List.foldl_cons, ih (number + 1)]
    cases h : line.instruction with
    | none => rw [pcAfter_skip h, instructionLines_skip h]
    | some text =>
      rw [pcAfter_take h, instructionLines_take h, List.length_cons]
      omega

/-- A line without a label of this name leaves what the name stands for. -/
theorem labelOffset_defineLabel_of_ne {line : LineClass} {name : Text} (h : line.label ≠ some name) (pc : Nat)
    (labels : Labels) : labelOffset (defineLabel pc labels line) name = labelOffset labels name := by
  unfold defineLabel
  cases hl : line.label with
  | none => rfl
  | some other => exact if_neg fun he => h (hl.trans (congrArg some he))

/-- Lines that do not define a name leave what it stands for (R166). -/
theorem labelOffset_pass1_of_forall_ne {lines : List LineClass} {name : Text}
    (h : ∀ l ∈ lines, l.label ≠ some name) (cfg : Config) (pc : Nat) (labels : Labels) :
    labelOffset (pass1 cfg pc labels lines) name = labelOffset labels name := by
  induction lines generalizing pc labels with
  | nil => rfl
  | cons line rest ih =>
    obtain ⟨hline, hrest⟩ := List.forall_mem_cons.mp h
    rw [pass1_cons, ih hrest, labelOffset_defineLabel_of_ne hline]

/-- Settles O51: the pc before the line is 4 for each instruction before it, and no later line hides the definition. -/
theorem aLabelNamesTheOffsetOfTheNextInstruction : Obligations.ALabelNamesTheOffsetOfTheNextInstruction := by
  unfold Obligations.ALabelNamesTheOffsetOfTheNextInstruction
  intro before after line name hline hafter
  rw [pass1_append, pass1_cons, labelOffset_pass1_of_forall_ne hafter, foldl_pcAfter 1, Nat.zero_add, defineLabel,
    hline]
  exact if_pos rfl

/-! ### Pass 2 -/

/-- The words of a successful pass 2 that starts at any line number and pc (R167). -/
theorem pass2_eq_ok {labels : Labels} {number pc : Nat} {lines : List LineClass} {ws : List Word}
    (h : pass2 machineConfig labels number pc lines = .ok ws) :
    ws.length = (instructionLines number lines).length ∧
    ∀ n k text, (instructionLines number lines)[n]? = some (k, text) →
      ∃ w, ws[n]? = some w ∧ encodeLine machineConfig k (pc + 4 * n) labels text = .ok w := by
  induction lines generalizing number pc ws with
  | nil => cases h; simp [instructionLines]
  | cons line rest ih =>
    cases hline : line.instruction with
    | none =>
      rw [pass2_skip hline, pcAfter_skip hline] at h
      rw [instructionLines_skip hline]
      exact ih h
    | some text =>
      rcases pass2_cases hline machineConfig labels number pc rest
        with ⟨e, -, he⟩ | ⟨w, e, -, -, he⟩ | ⟨w, ws', hw, hrest, hok⟩
      · cases he.symm.trans h
      · cases he.symm.trans h
      · cases hok.symm.trans h
        rw [pcAfter_take hline] at hrest
        obtain ⟨hlen, hwords⟩ := ih hrest
        rw [instructionLines_take hline]
        refine ⟨congrArg (· + 1) hlen, fun n k text' hn => ?_⟩
        cases n with
        | zero => cases hn; exact ⟨w, rfl, hw⟩
        | succ n =>
          rw [show pc + 4 * (n + 1) = pc + 4 + 4 * n by omega]
          exact hwords n k text' hn

/-- Settles O52: both passes of `assemble` start at pc 0, and the first line is line 1. -/
theorem assembleGivesOneWordPerInstructionLine : Obligations.AssembleGivesOneWordPerInstructionLine := by
  unfold Obligations.AssembleGivesOneWordPerInstructionLine
  intro source ws h
  simpa only [Nat.zero_add] using pass2_eq_ok h

end Sys2Proof.Machine
end

section
/-! The classes of lines (44_assembler.md R161 to R163): comments and white space at the ends of a line, and the first
`:` of what is left. Settles O59. -/

namespace Sys2Proof.Machine

open Sys2Proof.Stated

/-! ### The first of a character in a text -/

theorem takeWhile_ne_append_cons {c : Char} {a : Text} (h : c ∉ a) (b : Text) :
    (a ++ c :: b).takeWhile (· ≠ c) = a := by
  rw [List.takeWhile_append_of_pos fun x hx => decide_eq_true (ne_of_mem_of_not_mem hx h)]
  simp

theorem dropWhile_ne_append_cons {c : Char} {a : Text} (h : c ∉ a) (b : Text) :
    (a ++ c :: b).dropWhile (· ≠ c) = c :: b := by
  rw [List.dropWhile_append_of_pos fun x hx => decide_eq_true (ne_of_mem_of_not_mem hx h)]
  simp

/-! ### Comments and white space at the ends -/

theorem isSpace_ne {c r : Char} (h : isSpace c = true) (hr : '!' ≤ r ∧ r ≤ '~') : c ≠ r := by
  rintro rfl
  rw [isSpace_of_printing hr] at h
  cases h

/-- A line's class is the class of its text before the comment, trimmed (R161). -/
theorem classify_congr {a b : Text} (h : stripComment a = stripComment b) : classify a = classify b := by
  simp only [classify, h]

theorem stripComment_comment (a b : Text) : stripComment (a ++ '#' :: b) = stripComment a := by
  have htake : (a ++ '#' :: b).takeWhile (· ≠ '#') = a.takeWhile (· ≠ '#') := by
    rw [List.takeWhile_append]
    split
    case isTrue h =>
      rw [List.takeWhile_cons_of_neg (by simp), List.append_nil]
      exact ((List.takeWhile_prefix _).eq_of_length h).symm
    case isFalse => rfl
  rw [stripComment, htake, stripComment]

theorem stripComment_space_cons {c : Char} (h : isSpace c = true) (a : Text) :
    stripComment (c :: a) = stripComment a := by
  have hc : c ≠ '#' := isSpace_ne h (by decide)
  rw [stripComment, List.takeWhile_cons_of_pos (by simpa using hc), trim_cons h, stripComment]

theorem stripComment_append_space {c : Char} (h : isSpace c = true) (a : Text) :
    stripComment (a ++ [c]) = stripComment a := by
  have hc : c ≠ '#' := isSpace_ne h (by decide)
  rw [stripComment, List.takeWhile_append]
  split
  case isTrue hlen =>
    have ha : a.takeWhile (· ≠ '#') = a := (List.takeWhile_prefix _).eq_of_length hlen
    rw [List.takeWhile_cons_of_pos (by simpa using hc), List.takeWhile_nil, trim_snoc h, stripComment, ha]
  case isFalse => rfl

theorem stripComment_of_trimmed {t : Text} (h : Trimmed t) (hcomment : '#' ∉ t) : stripComment t = t := by
  rw [stripComment, List.takeWhile_eq_self_iff.mpr, trim_of_trimmed h]
  exact fun c hc => decide_eq_true (ne_of_mem_of_not_mem hc hcomment)

theorem trim_gap {gap text : Text} (hgap : ∀ c ∈ gap, isSpace c = true) (h : Trimmed text) :
    trim (gap ++ text) = text := by
  induction gap with
  | nil => exact trim_of_trimmed h
  | cons c rest ih =>
    obtain ⟨hc, hrest⟩ := List.forall_mem_cons.mp hgap
    rw [List.cons_append, trim_cons hc, ih hrest]

/-! ### The first colon -/

theorem notInLabel_iff (c : Char) : notInLabel c = true ↔ OutOfName c := by
  simp [notInLabel, OutOfName, or_assoc]

theorem isLabelName_iff (name : Text) : isLabelName name = true ↔ name ≠ [] ∧ ∀ c ∈ name, ¬OutOfName c := by
  simp [isLabelName, ← notInLabel_iff]

/-- What stands before the first `:` of a line decides whether it has a label (R162, R163). -/
theorem classify_of_colon {name after : Text} (h : Trimmed (name ++ ':' :: after))
    (hcomment : '#' ∉ name ++ ':' :: after) (hcolon : ':' ∉ name) :
    classify (name ++ ':' :: after) =
      if isLabelName name then (if (trim after).isEmpty then .labelOnly name else .labelled name (trim after))
      else .plain (name ++ ':' :: after) := by
  have hne : (name ++ ':' :: after).isEmpty = false := by simp
  simp only [classify, stripComment_of_trimmed h hcomment, hne, takeWhile_ne_append_cons hcolon,
    dropWhile_ne_append_cons hcolon]
  rfl

/-- A label's name and what follows its colon make a line that white space and comments play no part in. -/
theorem classify_label {name after : Text} (hname : LabelName name)
    (hlast : ∀ c, (':' :: after).getLast? = some c → isSpace c = false) (hcomment : '#' ∉ after) :
    classify (name ++ ':' :: after) =
      if (trim after).isEmpty then .labelOnly name else .labelled name (trim after) := by
  obtain ⟨hne, hall⟩ := hname
  have htrimmed : Trimmed (name ++ ':' :: after) := by
    refine ⟨by simp, fun c hc => ?_, fun c hc => ?_⟩
    · rw [List.head?_append_of_ne_nil _ hne] at hc
      exact Bool.eq_false_iff.mpr fun hs => (hall c (List.mem_of_mem_head? hc)).1 (.inl hs)
    · rw [List.getLast?_append_of_ne_nil _ (by simp)] at hc
      exact hlast c hc
  have hhash : '#' ∉ name ++ ':' :: after := by
    simpa [hcomment] using fun h => (hall '#' h).2.2 rfl
  rw [classify_of_colon htrimmed hhash fun h => (hall ':' h).2.1 rfl,
    if_pos ((isLabelName_iff name).mpr ⟨hne, fun c hc => (hall c hc).1⟩)]

/-- Settles O59: what stands before the comment is trimmed, and what stands before its first colon decides the rest. -/
theorem linesAreBlankLabelledOrInstructions : Obligations.LinesAreBlankLabelledOrInstructions := by
  unfold Obligations.LinesAreBlankLabelledOrInstructions
  refine ⟨fun a b ha => ?_, fun a b => classify_congr (stripComment_comment a b),
    fun c a hc => ⟨classify_congr (stripComment_space_cons hc a), classify_congr (stripComment_append_space hc a)⟩,
    rfl, fun name hname => ?_, fun name gap text hname hgap htext hcomment => ?_, fun text htext hcomment hno => ?_⟩
  · have hone : splitLines a = [a] :=
      splitAt_none _ a fun c hc => decide_eq_false (ne_of_mem_of_not_mem hc ha)
    exact ⟨hone, (splitAt_append _ a b (decide_eq_true rfl)).trans (congrArg (· ++ splitLines b) hone)⟩
  · exact classify_label hname (by simpa using isSpace_of_printing (by decide)) (by simp)
  · have hgapComment : '#' ∉ gap ++ text := by
      simpa [hcomment] using fun h => isSpace_ne (hgap '#' h) (by decide) rfl
    have hlast : ∀ c, (':' :: (gap ++ text)).getLast? = some c → isSpace c = false := by
      obtain ⟨hne, -, hlast⟩ := htext
      rwa [← List.cons_append, List.getLast?_append_of_ne_nil _ hne]
    rw [classify_label hname hlast hgapComment, trim_gap hgap htext, if_neg (by simpa using htext.1)]
  · by_cases hcolon : ':' ∈ text
    · obtain ⟨name, rest, rfl, hfirst⟩ := List.eq_append_cons_of_mem hcolon
      rw [classify_of_colon htext hcomment hfirst, if_neg]
      rw [isLabelName_iff]
      rintro ⟨hne, hall⟩
      rcases hno name rest rfl hfirst with hnil | ⟨c, hc, hout⟩
      · exact hne hnil
      · exact hall c hc hout
    · exact classify_plain htext hcomment hcolon

end Sys2Proof.Machine
end

section
/-! Tokens and the mnemonic's case (44_assembler.md R161, R168): what separates tokens, and what an encoded line looks
at. Settles O60. -/

namespace Sys2Proof.Machine

open Sys2Proof.Stated

/-- The instruction's text plays no part in the operands it reads; only the error of a wrong count carries it (R175). -/
theorem readOperands_ok_of_text {cfg : Config} {line pc : Nat} {labels : Labels} {text : Text} {shape : OperandShape}
    {operands : List Text} {ops : OperandValues}
    (h : readOperands cfg line pc labels text shape operands = .ok ops) (text' : Text) :
    readOperands cfg line pc labels text' shape operands = .ok ops := by
  unfold readOperands at h
  split at h
  case h_8 => cases h
  all_goals exact h

/-- A line encodes where its mnemonic selects a row and its operands read as the row's group has them (R168 to R175). -/
theorem encodeLine_eq_ok_iff {cfg : Config} {line pc : Nat} {labels : Labels} {text : Text} {w : Word} :
    encodeLine cfg line pc labels text = .ok w ↔
      ∃ first operands row shape ops, tokensOf text = first :: operands ∧
        selectRow cfg (some line) (first.map lowerAscii) = .ok row ∧ operandShape row.mnemonic = some shape ∧
        readOperands cfg line pc labels text shape operands = .ok ops ∧ packRow cfg row ops = w := by
  constructor
  · intro h
    unfold encodeLine at h
    split at h
    case h_1 => cases h
    case h_2 first operands htoks =>
      cases hsel : selectRow cfg (some line) (first.map lowerAscii) with
      | error e => rw [hsel] at h; cases h
      | ok row =>
        simp only [hsel, bind, Except.bind] at h
        split at h
        case h_1 => cases h
        case h_2 shape hshape =>
          cases hread : readOperands cfg line pc labels text shape operands with
          | error e => rw [hread] at h; cases h
          | ok ops =>
            rw [hread] at h
            cases h
            exact ⟨first, operands, row, shape, ops, htoks, hsel, hshape, hread, rfl⟩
  · rintro ⟨first, operands, row, shape, ops, htoks, hsel, hshape, hread, rfl⟩
    simp only [encodeLine, htoks, hsel, bind, Except.bind, hshape, hread]
    rfl

/-- Lines of the same operands whose mnemonics differ in case only encode alike (R168). -/
theorem encodeLine_ok_of_tokens {cfg : Config} {line pc : Nat} {labels : Labels} {text text' first first' : Text}
    {operands : List Text} {w : Word} (htoks : tokensOf text = first :: operands)
    (htoks' : tokensOf text' = first' :: operands) (hcase : first.map lowerAscii = first'.map lowerAscii)
    (h : encodeLine cfg line pc labels text = .ok w) : encodeLine cfg line pc labels text' = .ok w := by
  obtain ⟨f, o, row, shape, ops, htoks₀, hsel, hshape, hread, hword⟩ := encodeLine_eq_ok_iff.mp h
  cases htoks.symm.trans htoks₀
  exact encodeLine_eq_ok_iff.mpr
    ⟨first', operands, row, shape, ops, htoks', hcase ▸ hsel, hshape, readOperands_ok_of_text hread text', hword⟩

/-- Settles O60: the text is split at its white space, a comma first becoming a space, and the mnemonic is lowercased
before its row is selected. -/
theorem tokensAreSeparatedByWhiteSpaceAndCommas : Obligations.TokensAreSeparatedByWhiteSpaceAndCommas := by
  unfold Obligations.TokensAreSeparatedByWhiteSpaceAndCommas
  refine ⟨?_, fun c hlo hhi => isSpace_of_printing ⟨hlo, hhi⟩, rfl, rfl, fun a b c => splitSpaces_append a b,
    fun a b c => tokensOf_append a b, fun t => splitSpaces_token, fun t => tokensOf_token, ?_, fun c hc => if_neg hc,
    fun line pc labels text text' first first' operands w => encodeLine_ok_of_tokens⟩
  · simp [isSpace]
  · decide

end Sys2Proof.Machine
end

section
/-! The record of a word in terms of its six fields (42_decoder.md R121 to R126), and with it the R-type instructions
(45_r_type.md). Settles O17 and O8. -/

namespace Sys2Proof.Machine

open Sys2Proof.Stated

/-! ### The immediates of a word as rearrangements of its fields -/

/-- A slice of a slice is a slice. -/
theorem slice_slice {n lo len i k : Nat} (h : i + k ≤ len) (x : BitVec n) :
    (x.extractLsb' lo len).extractLsb' i k = x.extractLsb' (lo + i) k := by
  ext j hj
  simp only [BitVec.getElem_extractLsb', BitVec.getLsbD_extractLsb', Nat.add_assoc, decide_eq_true_eq,
    Bool.and_eq_right_iff_imp]
  omega

section
variable (w : Word)

theorem immIOf_eq_fields : immIOf w = (w.extractLsb' 25 7 ++ w.extractLsb' 20 5).signExtend 32 := by
  simp (disch := decide) only [BitVec.extractLsb'_append_extractLsb'_eq_extractLsb', immIOf]

theorem immBOf_eq_fields :
    immBOf w = ((w.extractLsb' 25 7).extractLsb' 6 1 ++ (w.extractLsb' 7 5).extractLsb' 0 1
      ++ (w.extractLsb' 25 7).extractLsb' 0 6 ++ (w.extractLsb' 7 5).extractLsb' 1 4 ++ 0#1).signExtend 32 := by
  simp (disch := decide) only [slice_slice, immBOf, Nat.reduceAdd]

theorem immUOf_eq_fields :
    immUOf w = w.extractLsb' 25 7 ++ w.extractLsb' 20 5 ++ w.extractLsb' 15 5 ++ w.extractLsb' 12 3 ++ 0#12 := by
  simp (disch := decide) only [BitVec.extractLsb'_append_extractLsb'_eq_extractLsb', immUOf]

theorem immJOf_eq_fields :
    immJOf w = ((w.extractLsb' 25 7).extractLsb' 6 1 ++ w.extractLsb' 15 5 ++ w.extractLsb' 12 3
      ++ (w.extractLsb' 20 5).extractLsb' 0 1 ++ (w.extractLsb' 25 7).extractLsb' 0 6
      ++ (w.extractLsb' 20 5).extractLsb' 1 4 ++ 0#1).signExtend 32 := by
  have h12 : w.extractLsb' 15 5 ++ w.extractLsb' 12 3 = w.extractLsb' 12 8 :=
    BitVec.extractLsb'_append_extractLsb'_eq_extractLsb' rfl
  have h21 : w.extractLsb' 25 6 ++ w.extractLsb' 21 4 = w.extractLsb' 21 10 :=
    BitVec.extractLsb'_append_extractLsb'_eq_extractLsb' rfl
  rw [immJOf, ← h12, ← h21]
  refine congrArg (BitVec.signExtend 32) (BitVec.eq_of_toNat_eq ?_)
  simp only [toNat_concat]
  simp (disch := decide) only [slice_slice, Nat.reduceAdd]
  omega

end

/-! ### The record of a packed word -/

/-- Every output of the decoder but the format and the mnemonic is a rearrangement of the word's six fields. -/
theorem ofPorts_eq_recordOfFields (w : Word) (format : Format) (mnemonic : Mnemonic) :
    Decoded.ofPorts w format mnemonic
      = recordOfFields format mnemonic (w.extractLsb' 0 7) (w.extractLsb' 7 5) (w.extractLsb' 12 3)
          (w.extractLsb' 15 5) (w.extractLsb' 20 5) (w.extractLsb' 25 7) := by
  rw [Decoded.ofPorts, immIOf_eq_fields, immBOf_eq_fields, immUOf_eq_fields, immJOf_eq_fields]
  rfl

section
variable (format : Format) (mnemonic : Mnemonic) (op : Opcode) (rd : Reg) (f3 : Funct3) (rs1 rs2 : Reg) (f7 : Funct7)

theorem ofPorts_packR :
    Decoded.ofPorts (packR op rd f3 rs1 rs2 f7) format mnemonic
      = recordOfFields format mnemonic op rd f3 rs1 rs2 f7 := by
  rw [ofPorts_eq_recordOfFields, packR_opcode, packR_rd, packR_funct3, packR_rs1, packR_rs2, packR_funct7]

/-- A word packed from six fields is presented as the record of these fields. -/
theorem present_packR (s : State) :
    present format mnemonic (packR op rd f3 rs1 rs2 f7) s
      = .next { s with response := some (.decoded (recordOfFields format mnemonic op rd f3 rs1 rs2 f7)) } := by
  rw [present, ofPorts_packR]
  rfl

end

/-- Settles O17: each R-type meaning presents the word packed from its operands and its row's constants. -/
theorem rTypeInstructionsPresentTheirRecord : Obligations.RTypeInstructionsPresentTheirRecord := by
  unfold Obligations.RTypeInstructionsPresentTheirRecord
  intro rd rs1 rs2 s
  exact ⟨present_packR .., present_packR .., present_packR .., present_packR .., present_packR .., present_packR ..,
    present_packR .., present_packR .., present_packR .., present_packR ..⟩

/-! ### Words written out in the spec -/

/-- A word decodes to an instruction that it is the word of. -/
theorem decode_of_encode_eq {w : Word} {i : Instr} (hwf : i.wellFormed = true) (hword : encode i = w) :
    decode w = .ok i :=
  hword ▸ decodeOfEncodeIsTheInstruction i hwf

/-- Settles O8: each word is the one that its instruction packs into. -/
theorem wordsOfTheSpecDecodeToTheirInstruction : Obligations.WordsOfTheSpecDecodeToTheirInstruction := by
  unfold Obligations.WordsOfTheSpecDecodeToTheirInstruction
  exact ⟨decode_of_encode_eq rfl rfl, decode_of_encode_eq rfl rfl, decode_of_encode_eq rfl rfl,
    decode_of_encode_eq rfl rfl, decode_of_encode_eq rfl rfl, decode_of_encode_eq rfl rfl, decode_of_encode_eq rfl rfl,
    decode_of_encode_eq rfl rfl, decode_of_encode_eq rfl rfl, decode_of_encode_eq rfl rfl⟩

end Sys2Proof.Machine
end

section
/-! The I-type instructions (46_i_type.md): the word of each is presented as the record of its immediate or of its
shift amount. Settles O18, O19 and O20. -/

namespace Sys2Proof.Machine

open Sys2Proof.Stated

section
variable (mnemonic : Mnemonic) (op : Opcode) (rd : Reg) (f3 : Funct3) (rs1 : Reg)

/-- The two fields that hold a 12-bit immediate put it together again (R74, R122). -/
theorem recordOfI_eq_recordOfFields (imm : BitVec 12) :
    recordOfI mnemonic op rd f3 rs1 imm
      = recordOfFields .I mnemonic op rd f3 rs1 (imm.extractLsb' 0 5) (imm.extractLsb' 5 7) := by
  have himm : imm.extractLsb' 5 7 ++ imm.extractLsb' 0 5 = imm :=
    (BitVec.extractLsb'_append_extractLsb'_eq_extractLsb' rfl).trans BitVec.extractLsb'_eq_self
  simp only [recordOfI, recordOfFields, himm]

/-- A word packed from a 12-bit immediate is presented as the record of that immediate. -/
theorem present_packI (imm : BitVec 12) (s : State) :
    present .I mnemonic (packI op rd f3 rs1 imm) s
      = .next { s with response := some (.decoded (recordOfI mnemonic op rd f3 rs1 imm)) } := by
  rw [packI_eq_packR, present_packR, recordOfI_eq_recordOfFields]

/-- A word packed from a shift amount and its selector is presented as the record with the amount in rs2 and the
selector in funct7 (R81). -/
theorem present_packI_shift (f7 : Funct7) (shamt : BitVec 5) (s : State) :
    present .I mnemonic (packI op rd f3 rs1 (shiftImm f7 shamt)) s
      = .next { s with response := some (.decoded (recordOfFields .I mnemonic op rd f3 rs1 shamt f7)) } := by
  rw [packI_eq_packR, shiftImm_shamt, shiftImm_selector, present_packR]

end

/-- Settles O18: each meaning presents the word packed from its immediate and its row's constants. -/
theorem immediateInstructionsPresentTheirRecord : Obligations.ImmediateInstructionsPresentTheirRecord := by
  unfold Obligations.ImmediateInstructionsPresentTheirRecord
  intro rd rs1 imm s
  exact ⟨present_packI .., present_packI .., present_packI .., present_packI .., present_packI .., present_packI ..,
    present_packI ..⟩

/-- Settles O19: each meaning presents the word packed from its shift amount below its row's selector. -/
theorem shiftImmediatesPresentTheirRecord : Obligations.ShiftImmediatesPresentTheirRecord := by
  unfold Obligations.ShiftImmediatesPresentTheirRecord
  intro rd rs1 shamt s
  exact ⟨present_packI_shift .., present_packI_shift .., present_packI_shift ..⟩

/-- Settles O20: each load's meaning presents the word packed from its offset, whatever the memories hold. -/
theorem loadsPresentTheirRecordAndReadNoMemory : Obligations.LoadsPresentTheirRecordAndReadNoMemory := by
  unfold Obligations.LoadsPresentTheirRecordAndReadNoMemory
  intro rd rs1 offset s
  exact ⟨present_packI .., present_packI .., present_packI .., present_packI .., present_packI ..⟩

end Sys2Proof.Machine
end

section
/-! The S-type instructions (47_s_type.md): the word of each is presented as the record of its offset. Settles O21. -/

namespace Sys2Proof.Machine

open Sys2Proof.Stated

/-- An S-type word is presented as the record of its immediate: the fields `rd` and `funct7`, which hold the
immediate's two parts, put it together again (R75, R123). -/
theorem present_packS (mnemonic : Mnemonic) (op : Opcode) (f3 : Funct3) (rs1 rs2 : Reg) (imm : BitVec 12) (s : State) :
    present .S mnemonic (packS op f3 rs1 rs2 imm) s
      = .next { s with response := some (.decoded (recordOfS mnemonic op f3 rs1 rs2 imm)) } := by
  have himm : (imm.extractLsb' 5 7 ++ imm.extractLsb' 0 5).signExtend 32 = imm.signExtend 32 := by
    simpa only [immSOf, packS_rd, packS_funct7] using immSOf_packS op f3 rs1 rs2 imm
  rw [packS_eq_packR, present_packR, recordOfS, ← himm]
  rfl

/-- Settles O21: each store's meaning presents the word packed from its offset, and the instances stay as they are. -/
theorem storesPresentTheirRecordAndStoreNothing : Obligations.StoresPresentTheirRecordAndStoreNothing := by
  unfold Obligations.StoresPresentTheirRecordAndStoreNothing
  intro rs1 rs2 offset s
  exact ⟨present_packS .., present_packS .., present_packS ..⟩

end Sys2Proof.Machine
end

section
/-! The B-type instructions (48_b_type.md): the word of each is presented as the record of its byte offset, an odd one
as the even one below it. Settles O22. -/

namespace Sys2Proof.Machine

open Sys2Proof.Stated

/-- The stored bits of an odd offset, with a 0 below, are the even offset below it (R150). -/
theorem odd_bits {n : Nat} (x : BitVec (n + 1)) (h : evenOffset x = false) :
    x.extractLsb' 1 n ++ 0#1 = x - 1#(n + 1) := by
  have hodd : x.toNat % 2 = 1 := by simpa [evenOffset, BitVec.getLsbD] using h
  have hhalf : x.toNat / 2 < 2 ^ n := by
    have hlt := x.isLt
    omega
  have hle : 1#(n + 1) ≤ x := by
    rw [BitVec.le_def, BitVec.toNat_one n.succ_pos]
    omega
  apply BitVec.eq_of_toNat_eq
  rw [BitVec.toNat_sub_of_le hle, BitVec.toNat_one n.succ_pos, toNat_concat, BitVec.extractLsb'_toNat,
    Nat.shiftRight_eq_div_pow, pow_one, Nat.mod_eq_of_lt hhalf, BitVec.toNat_zero]
  omega

/-- A format that does not store bit 0 gives an even offset back, and of an odd one the even offset below it (R150). -/
theorem signExtend_stored_bits {n : Nat} (m : Nat) (x : BitVec (n + 1)) :
    (x.extractLsb' 1 n ++ 0#1).signExtend m
      = if evenOffset x then x.signExtend m else (x - 1#(n + 1)).signExtend m := by
  split
  case isTrue heven => rw [even_bits x heven]
  case isFalse hodd => rw [odd_bits x (Bool.eq_false_of_not_eq_true hodd)]

/-- A B-type word is presented as the record of its offset: the fields `rd` and `funct7`, which hold the offset's parts,
put its stored bits together again (R76, R124). -/
theorem present_packB (mnemonic : Mnemonic) (op : Opcode) (f3 : Funct3) (rs1 rs2 : Reg) (offset : BitVec 13)
    (s : State) :
    present .B mnemonic (packB op f3 rs1 rs2 offset) s
      = .next { s with response := some (.decoded (recordOfB mnemonic op f3 rs1 rs2 offset)) } := by
  have himm := immBOf_packB op f3 rs1 rs2 offset
  rw [packB_eq_packR, immBOf_eq_fields, packR_rd, packR_funct7] at himm
  rw [packB_eq_packR, present_packR, recordOfB, ← signExtend_stored_bits 32 offset, ← himm]
  rfl

/-- Settles O22: each branch's meaning presents the word packed from its offset, in every state. -/
theorem branchesPresentTheirRecord : Obligations.BranchesPresentTheirRecord := by
  unfold Obligations.BranchesPresentTheirRecord
  intro rs1 rs2 offset s
  exact ⟨present_packB .., present_packB .., present_packB .., present_packB .., present_packB .., present_packB ..⟩

end Sys2Proof.Machine
end

section
/-! The U-type and J-type instructions (49_u_j_type.md): the word of each is presented as the record of its upper
immediate or of its byte offset. Settles O23. -/

namespace Sys2Proof.Machine

open Sys2Proof.Stated

section
variable (mnemonic : Mnemonic) (op : Opcode) (rd : Reg)

/-- The upper immediate lies over the fields from funct3 on (R73, R77). -/
theorem packU_eq_packR (upper : BitVec 20) :
    packU op rd upper
      = packR op rd (upper.extractLsb' 0 3) (upper.extractLsb' 3 5) (upper.extractLsb' 8 5)
          (upper.extractLsb' 13 7) := by
  apply BitVec.eq_of_toNat_eq
  simp only [packU_toNat, packR_toNat, BitVec.extractLsb'_toNat, Nat.shiftRight_eq_div_pow]
  omega

/-- The scattered offset lies over the fields from funct3 on (R73, R78). -/
theorem packJ_eq_packR (offset : BitVec 21) :
    packJ op rd offset
      = packR op rd (offset.extractLsb' 12 3) (offset.extractLsb' 15 5)
          (offset.extractLsb' 1 4 ++ offset.extractLsb' 11 1) (offset.extractLsb' 20 1 ++ offset.extractLsb' 5 6) := by
  have h1 : offset.extractLsb' 5 6 ++ offset.extractLsb' 1 4 = offset.extractLsb' 1 10 :=
    BitVec.extractLsb'_append_extractLsb'_eq_extractLsb' rfl
  have h12 : offset.extractLsb' 15 5 ++ offset.extractLsb' 12 3 = offset.extractLsb' 12 8 :=
    BitVec.extractLsb'_append_extractLsb'_eq_extractLsb' rfl
  apply BitVec.eq_of_toNat_eq
  simp only [packJ, ← h1, ← h12, packR_toNat, toNat_concat]
  omega

/-- A U-type word is presented as the record of its upper immediate, which its fields put together again (R77, R125). -/
theorem present_packU (upper : BitVec 20) (s : State) :
    present .U mnemonic (packU op rd upper) s
      = .next { s with response := some (.decoded (recordOfU mnemonic op rd upper)) } := by
  have himm := immUOf_packU op rd upper
  rw [packU_eq_packR, immUOf_eq_fields, packR_funct7, packR_rs2, packR_rs1, packR_funct3] at himm
  rw [packU_eq_packR, present_packR, recordOfU, ← himm]
  rfl

/-- A J-type word is presented as the record of its offset, whose stored bits its fields put together again
(R78, R126). -/
theorem present_packJ (offset : BitVec 21) (s : State) :
    present .J mnemonic (packJ op rd offset) s
      = .next { s with response := some (.decoded (recordOfJ mnemonic op rd offset)) } := by
  have himm := immJOf_packJ op rd offset
  rw [packJ_eq_packR, immJOf_eq_fields, packR_funct7, packR_rs1, packR_funct3, packR_rs2] at himm
  rw [packJ_eq_packR, present_packR, recordOfJ, ← signExtend_stored_bits 32 offset, ← himm]
  rfl

end

/-- Settles O23: each meaning presents the word packed from its upper immediate or its offset, in every state. -/
theorem upperImmediatesAndJalPresentTheirRecord : Obligations.UpperImmediatesAndJalPresentTheirRecord := by
  unfold Obligations.UpperImmediatesAndJalPresentTheirRecord
  intro rd imm20 offset s
  exact ⟨present_packU .., present_packU .., present_packJ ..⟩

end Sys2Proof.Machine
end

section
/-! Reset and where a step stops (70_reset_and_hazards.md R330 to R335). Settles O43 and O29. -/

namespace Sys2Proof.Machine

/-- Settles O43: there is no instance that could be out of canonical form. -/
theorem resetStateIsCanonicalAndHasNoInstance : Obligations.ResetStateIsCanonicalAndHasNoInstance := by
  unfold Obligations.ResetStateIsCanonicalAndHasNoInstance
  refine ⟨fun m hm => ?_, State.reset_instances, State.reset_pending, State.reset_response⟩
  rw [State.reset_instances] at hm
  cases hm

/-- The outcome of an operation asked of `s` is a next state, unless the operation names an instance that `s` does not
have. -/
def StopsOnlyOnMissing (s : State) (target : Option Nat) (o : Host.Outcome State Fault Refusal) : Prop :=
  (∃ t, o = .next t) ∨ ∃ k, target = some k ∧ s.instances.length ≤ k ∧ o = .fault (.noSuchInstance k)

/-- An instance that is not found was never created. -/
theorem StopsOnlyOnMissing.missing {s : State} {inst : Nat} {o : Host.Outcome State Fault Refusal}
    (hm : s.instances[inst]? = none) (h : o = .fault (.noSuchInstance inst)) : StopsOnlyOnMissing s (some inst) o :=
  .inr ⟨inst, rfl, List.getElem?_eq_none_iff.mp hm, h⟩

theorem memRead_stopsOnlyOnMissing (inst : Nat) (addr : Int) (s : State) :
    StopsOnlyOnMissing s (some inst) (memRead inst addr s) := by
  rcases memRead_cases inst addr s with ⟨hm, h⟩ | ⟨m, -, h⟩
  · exact .missing hm h
  · obtain ⟨a, ha, -⟩ := answerWith_eq s .rdata (m.read addr)
    exact .inl ⟨_, h.trans ha⟩

theorem memWrite_stopsOnlyOnMissing (inst : Nat) (addr value : Int) (be : ByteEnable) (s : State) :
    StopsOnlyOnMissing s (some inst) (memWrite inst addr value be s) := by
  rcases memWrite_cases inst addr value be s with ⟨hm, h⟩ | ⟨_, _, -, -, h⟩ | ⟨_, _, -, -, -, h⟩
  · exact .missing hm h
  · exact .inl ⟨_, h⟩
  · exact .inl ⟨_, h⟩

theorem memReset_stopsOnlyOnMissing (inst : Nat) (s : State) :
    StopsOnlyOnMissing s (some inst) (memReset inst s) := by
  rcases memReset_cases inst s with ⟨hm, h⟩ | ⟨_, -, h⟩
  · exact .missing hm h
  · exact .inl ⟨_, h⟩

theorem storeHalf_stopsOnlyOnMissing (inst : Nat) (addr value : Int) (s : State) :
    StopsOnlyOnMissing s (some inst) (storeHalf inst addr value s) := by
  rcases storeHalf_cases inst addr value s with ⟨-, h⟩ | ⟨-, _, _, h⟩
  · exact .inl ⟨_, h⟩
  · rw [h]; exact memWrite_stopsOnlyOnMissing ..

theorem memNew_completes (byteCapacity : Int) (ws : List Int) (s : State) :
    ∃ t, memNew byteCapacity ws s = .next t := by
  rcases memNew_cases byteCapacity ws s with ⟨-, h⟩ | ⟨-, -, h⟩ | ⟨_, -, -, -, -, h⟩ <;> exact ⟨_, h⟩

theorem memNewFromString_completes (byteCapacity : Int) (text : Text) (s : State) :
    ∃ t, memNewFromString byteCapacity text s = .next t := by
  rcases memNewFromString_cases byteCapacity text s with ⟨-, h⟩ | ⟨_, -, -, h⟩ | ⟨ws, -, -, h⟩
  · exact ⟨_, h⟩
  · exact ⟨_, h⟩
  · rw [h]; exact memNew_completes byteCapacity ws s

/-- An operation that looks at no instance and creates none completes. -/
theorem serve_completes_of_stateless {r : Request} (ht : r.target = none) (hnew : ∀ c ws, r ≠ .memNew c ws)
    (hstr : ∀ c text, r ≠ .memNewFromString c text) (s : State) : ∃ t, serve r s = .next t := by
  obtain ⟨a, ha⟩ := serve_uniform ht hnew hstr
  exact ⟨_, ha s⟩

theorem serve_stopsOnlyOnMissing (r : Request) (s : State) : StopsOnlyOnMissing s r.target (serve r s) := by
  cases r with
  | memNew c ws => exact .inl (memNew_completes c ws s)
  | memNewFromString c text => exact .inl (memNewFromString_completes c text s)
  | memRead inst addr => exact memRead_stopsOnlyOnMissing inst addr s
  | memReset inst => exact memReset_stopsOnlyOnMissing inst s
  | memWrite | storeByte | storeWord => exact memWrite_stopsOnlyOnMissing ..
  | storeHalf inst addr value => exact storeHalf_stopsOnlyOnMissing inst addr value s
  | _ => exact .inl (serve_completes_of_stateless rfl (by simp) (by simp) s)

/-- Everything a step can come to: a next state, or the fault of an operation on an instance never created. -/
theorem step_next_or_missing (s : State) :
    (∃ t, step s = .next t) ∨
    ∃ r rest k, s.pending = r :: rest ∧ r.target = some k ∧ s.instances.length ≤ k ∧
      step s = .fault (.noSuchInstance k) := by
  rcases step_cases s with ⟨-, h⟩ | ⟨r, rest, hp, h⟩
  · exact .inl ⟨s, h⟩
  · rw [h]
    rcases serve_stopsOnlyOnMissing r { s with pending := rest } with hnext | ⟨k, hk, hlen, hfault⟩
    · exact .inl hnext
    · exact .inr ⟨r, rest, k, hp, hk, hlen, hfault⟩

/-- Settles O29: a step stops only on an instance never created, and there its operation is not admitted. -/
theorem stepCompletesOnEveryAdmittedOperation : Obligations.StepCompletesOnEveryAdmittedOperation := by
  unfold Obligations.StepCompletesOnEveryAdmittedOperation
  intro s
  rcases step_next_or_missing s with ⟨t, h⟩ | ⟨r, rest, k, hp, hk, hlen, h⟩
  · rw [h]
    exact ⟨fun _ => ⟨t, rfl⟩, nofun, nofun⟩
  · rw [h]
    refine ⟨fun hadm => absurd (hadm r rest hp k hk) (by omega), fun f hf => ?_, nofun⟩
    cases hf
    exact ⟨r, rest, k, hp, hk, hlen, rfl⟩

end Sys2Proof.Machine
end

section
/-! Errors (60_exceptions.md R300 to R309): a failed operation changes no instance, a failing `assemble` reports its
first failing line. Settles O46 and O53. -/

namespace Sys2Proof.Machine

open Sys2Proof.Stated

/-- Settles O46: a step that changes or adds an instance answers `done` or `created`. -/
theorem failedOperationsChangeNoState : Obligations.FailedOperationsChangeNoState := by
  unfold Obligations.FailedOperationsChangeNoState
  intro s t r rest _ h hfail
  cases step_instances h with
  | same hsame => exact hsame
  | replaced _ _ _ _ _ _ hdone _ => simp [hdone] at hfail
  | added _ _ hcreated _ => simp [hcreated] at hfail

/-! ### The first failing line -/

/-- A failing pass 2 that starts at any line number and pc ends at its first failing line (R302, R306). -/
theorem pass2_eq_error {labels : Labels} {number pc : Nat} {lines : List LineClass} {e : CoreError}
    (h : pass2 machineConfig labels number pc lines = .error e) :
    ∃ n k text, (instructionLines number lines)[n]? = some (k, text) ∧
      encodeLine machineConfig k (pc + 4 * n) labels text = .error e ∧
      ∀ n' k' text', n' < n → (instructionLines number lines)[n']? = some (k', text') →
        ∃ w, encodeLine machineConfig k' (pc + 4 * n') labels text' = .ok w := by
  induction lines generalizing number pc with
  | nil => cases h
  | cons line rest ih =>
    cases hline : line.instruction with
    | none =>
      rw [pass2_skip hline, pcAfter_skip hline] at h
      rw [instructionLines_skip hline]
      exact ih h
    | some text =>
      rw [instructionLines_take hline]
      rcases pass2_cases hline machineConfig labels number pc rest
        with ⟨e', hfail, he⟩ | ⟨w, e', hw, hrest, he⟩ | ⟨w, ws, -, -, hok⟩
      · cases he.symm.trans h
        exact ⟨0, number, text, rfl, hfail, fun n' _ _ hn' => absurd hn' n'.not_lt_zero⟩
      · cases he.symm.trans h
        rw [pcAfter_take hline] at hrest
        obtain ⟨n, k, text', hn, hfail, hbefore⟩ := ih hrest
        have hpc : ∀ j, pc + 4 * (j + 1) = pc + 4 + 4 * j := fun j => by omega
        refine ⟨n + 1, k, text', hn, hpc n ▸ hfail, fun n' k' text'' hlt hn' => ?_⟩
        cases n' with
        | zero => cases hn'; exact ⟨w, hw⟩
        | succ n' => exact hpc n' ▸ hbefore n' k' text'' (by omega) hn'
      · cases hok.symm.trans h

/-- Settles O53: both passes of `assemble` start at pc 0, and the first line is line 1. -/
theorem assembleReportsTheFirstFailingLine : Obligations.AssembleReportsTheFirstFailingLine := by
  unfold Obligations.AssembleReportsTheFirstFailingLine
  intro source e h
  simpa only [Nat.zero_add] using pass2_eq_error h

end Sys2Proof.Machine
end

section
/-! Which operation raises which kind of error (60_exceptions.md R300, R301): from the lookups and the checks to the
operations that call them. Settles O47. -/

namespace Sys2Proof.Machine

/-! ### The kinds a computation raises -/

/-- Every error the computation ends in is of one of these kinds. -/
def RaisesOnly {α : Type} (kinds : List ErrorKind) (x : Except CoreError α) : Prop :=
  ∀ e, x = .error e → errorKind e ∈ kinds

section
variable {α β : Type} {kinds : List ErrorKind}

theorem RaisesOnly.ok (v : α) : RaisesOnly kinds (.ok v) := fun _ h => by cases h

theorem RaisesOnly.error {e : CoreError} (h : errorKind e ∈ kinds) : RaisesOnly (α := α) kinds (.error e) :=
  fun _ he => by cases he; exact h

theorem RaisesOnly.bind {x : Except CoreError α} {f : α → Except CoreError β} (hx : RaisesOnly kinds x)
    (hf : ∀ v, RaisesOnly kinds (f v)) : RaisesOnly kinds (x >>= f) := by
  cases x with
  | error e => exact .error (hx e rfl)
  | ok v => exact hf v

theorem RaisesOnly.mono {more : List ErrorKind} {x : Except CoreError α} (hx : RaisesOnly kinds x)
    (h : ∀ k ∈ kinds, k ∈ more) : RaisesOnly more x :=
  fun e he => h _ (hx e he)

end

theorem selectRow_raises (cfg : Config) (line : Option Nat) (name : Text) :
    RaisesOnly [.unknownInstruction] (selectRow cfg line name) := by
  rcases selectRow_cases cfg line name with ⟨row, -, -, h⟩ | ⟨-, h⟩
  · rw [h]; exact .ok row
  · rw [h]; exact .error (by simp [errorKind])

theorem encodeDispatch_raises (cfg : Config) (line : Option Nat) (name : Text) (ops : OperandValues) :
    RaisesOnly [.unknownInstruction] (encodeDispatch cfg line name ops) := by
  have hsel := selectRow_raises cfg line name
  unfold encodeDispatch
  cases h : selectRow cfg line name with
  | error e => exact .error (hsel e h)
  | ok row => exact .ok _

theorem registerIndexOf_raises (cfg : Config) (line : Option Nat) (name : Text) :
    RaisesOnly [.invalidRegister] (registerIndexOf cfg line name) := by
  rcases registerIndexOf_cases cfg line name with ⟨n, -, h⟩ | ⟨n, -, -, h⟩ | ⟨-, -, h⟩
  · rw [h]; exact .ok n
  · rw [h]; exact .ok n
  · rw [h]; exact .error (by simp [errorKind])

theorem resolveImm_raises (line pc : Nat) (labels : Labels) (tok : Text) :
    RaisesOnly [.undefinedLabel] (resolveImm line pc labels tok) := by
  rcases resolveImm_cases line pc labels tok with ⟨v, -, h⟩ | ⟨a, -, -, h⟩ | ⟨-, -, h⟩
  · rw [h]; exact .ok v
  · rw [h]; exact .ok _
  · rw [h]; exact .error (by simp [errorKind])

/-- The kinds of error an operand can raise, and a wrong number of operands (R171, R172, R174, R175). -/
def operandKinds : List ErrorKind := [.invalidRegister, .undefinedLabel, .malformedInput]

/-- The kinds of error a line can raise (R169, R175). -/
def lineKinds : List ErrorKind := .unknownInstruction :: operandKinds

theorem memoryOperand_raises (cfg : Config) (line pc : Nat) (labels : Labels) (tok : Text) :
    RaisesOnly operandKinds (memoryOperand cfg line pc labels tok) := by
  unfold memoryOperand
  split
  · exact .error (by simp [errorKind, operandKinds])
  · exact ((resolveImm_raises _ _ _ _).mono (by decide)).bind fun _ =>
      ((registerIndexOf_raises _ _ _).mono (by decide)).bind fun _ => .ok _

theorem readOperands_raises (cfg : Config) (line pc : Nat) (labels : Labels) (text : Text) (shape : OperandShape)
    (operands : List Text) :
    RaisesOnly operandKinds (readOperands cfg line pc labels text shape operands) := by
  have hreg := fun tok => (registerIndexOf_raises cfg (some line) tok).mono (more := operandKinds) (by decide)
  have himm := fun tok => (resolveImm_raises line pc labels tok).mono (more := operandKinds) (by decide)
  have hmem := memoryOperand_raises cfg line pc labels
  unfold readOperands
  split
  case h_1 a b c => exact (hreg a).bind fun _ => (hreg b).bind fun _ => (hreg c).bind fun _ => .ok _
  case h_2 a b c | h_3 a b c | h_6 a b c =>
    exact (hreg a).bind fun _ => (hreg b).bind fun _ => (himm c).bind fun _ => .ok _
  case h_4 a b | h_5 a b => exact (hreg a).bind fun _ => (hmem b).bind fun _ => .ok _
  case h_7 a b => exact (hreg a).bind fun _ => (himm b).bind fun _ => .ok _
  case h_8 => exact .error (by simp [errorKind, operandKinds])

/-- Which of two kinds a text without a token raises is open (log 11); it is one of these. -/
theorem encodeLine_raises (cfg : Config) (line pc : Nat) (labels : Labels) (text : Text) :
    RaisesOnly lineKinds (encodeLine cfg line pc labels text) := by
  unfold encodeLine
  split
  case h_1 => split <;> exact .error (by simp [errorKind, lineKinds, operandKinds])
  case h_2 first operands _ =>
    refine ((selectRow_raises _ _ _).mono (by decide)).bind fun row => ?_
    split
    case h_1 => exact .error (by simp [errorKind, lineKinds, operandKinds])
    case h_2 => exact ((readOperands_raises _ _ _ _ _ _ _).mono (by decide)).bind fun _ => .ok _

/-- The error of `assemble` is one of its lines'. -/
theorem assemble_raises (source : Text) : RaisesOnly lineKinds (assemble machineConfig source) := by
  intro e h
  obtain ⟨_, _, _, -, hline, -⟩ := assembleReportsTheFirstFailingLine source e h
  exact encodeLine_raises _ _ _ _ _ e hline

theorem parseInitialWords_raises (toks : List Text) : RaisesOnly [.malformedInput] (parseInitialWords toks) := by
  induction toks with
  | nil => exact .ok []
  | cons tok rest ih =>
    rcases parseInitialWords_cases tok rest with ⟨-, h⟩ | ⟨v, e, -, hrest, h⟩ | ⟨v, vs, -, -, h⟩
    · rw [h]; exact .error (by simp [errorKind])
    · rw [h]; exact .error (ih e hrest)
    · rw [h]; exact .ok _

theorem Memory.slotIndex_raises (m : Memory) (addr : Int) :
    RaisesOnly [.unaligned, .outOfBounds] (m.slotIndex addr) := by
  rcases m.slotIndex_cases addr with ⟨-, h⟩ | ⟨-, -, h⟩ | ⟨k, -, -, h⟩
  · rw [h]; exact .error (by simp [errorKind])
  · rw [h]; exact .error (by simp [errorKind])
  · rw [h]; exact .ok k

/-- An aligned access can only be out of bounds (R42). -/
theorem Memory.slotIndex_raises_of_aligned (m : Memory) {addr : Int} (h4 : addr % 4 = 0) :
    RaisesOnly [.outOfBounds] (m.slotIndex addr) := by
  rcases m.slotIndex_cases addr with ⟨hne, -⟩ | ⟨-, -, h⟩ | ⟨k, -, -, h⟩
  · exact absurd h4 hne
  · rw [h]; exact .error (by simp [errorKind])
  · rw [h]; exact .ok k

theorem Memory.read_raises (m : Memory) (addr : Int) : RaisesOnly [.unaligned, .outOfBounds] (m.read addr) := by
  have hidx := m.slotIndex_raises addr
  unfold Memory.read
  cases h : m.slotIndex addr with
  | error e => exact .error (hidx e h)
  | ok k => exact .ok _

/-! ### The kinds an operation answers -/

/-- Every error answered in the next state, if there is one, is of one of these kinds. -/
def AnswersOnly (kinds : List ErrorKind) (o : Host.Outcome State Fault Refusal) : Prop :=
  ∀ t e, o = .next t → t.response = some (.error e) → errorKind e ∈ kinds

section
variable {kinds : List ErrorKind} {s t : State} {e : CoreError}

theorem AnswersOnly.fault (f : Fault) : AnswersOnly kinds (.fault f) := fun _ _ h => by cases h

/-- A response that is no error is within every list of kinds. -/
theorem AnswersOnly.next {a : Response} (ht : t.response = some a) (ha : ∀ e, a ≠ .error e) :
    AnswersOnly kinds (.next t) := by
  intro t' e h he
  cases h
  exact absurd (Option.some.inj (ht.symm.trans he)) (ha e)

theorem AnswersOnly.error (h : errorKind e ∈ kinds) : AnswersOnly kinds (.next (s.answer (.error e))) := by
  intro t' e' ht he
  cases ht
  cases he
  exact h

/-- An operation answers the errors of the computation it is. -/
theorem AnswersOnly.of_raisesOnly {α : Type} {reply : α → Response} {x : Except CoreError α}
    (hx : RaisesOnly kinds x) (hreply : ∀ v e, reply v ≠ .error e) : AnswersOnly kinds (answerWith s reply x) := by
  cases x with
  | error e => exact .error (hx e rfl)
  | ok v => exact .next (t := s.answer (reply v)) rfl (hreply v)

end

theorem serve_decode_answersOnly (w : Word) (s : State) : AnswersOnly [] (serve (.decode w) s) := by
  obtain ⟨d, h⟩ := serve_decode w s
  rw [h]
  exact .next rfl (by simp)

theorem memRead_answersOnly (inst : Nat) (addr : Int) (s : State) :
    AnswersOnly [.unaligned, .outOfBounds] (memRead inst addr s) := by
  rcases memRead_cases inst addr s with ⟨-, h⟩ | ⟨m, -, h⟩
  · rw [h]; exact .fault _
  · rw [h]; exact .of_raisesOnly (m.read_raises addr) (by simp)

/-- A write answers what the checks of its address raise (R41, R42). -/
theorem memWrite_answersOnly {kinds : List ErrorKind} {addr : Int}
    (hidx : ∀ m : Memory, RaisesOnly kinds (m.slotIndex addr)) (inst : Nat) (value : Int) (be : ByteEnable)
    (s : State) : AnswersOnly kinds (memWrite inst addr value be s) := by
  rcases memWrite_cases inst addr value be s with ⟨-, h⟩ | ⟨m, e, -, he, h⟩ | ⟨_, _, -, -, -, h⟩
  · rw [h]; exact .fault _
  · rw [h]; exact .error (hidx m e he)
  · rw [h]; exact .next rfl (by simp)

/-- The write of a byte or halfword recipe is at the slot's own address, so it is aligned (R46). -/
theorem memWrite_aligned_answersOnly (inst : Nat) (addr value : Int) (be : ByteEnable) (s : State) :
    AnswersOnly [.outOfBounds] (memWrite inst (addr - addr % 4) value be s) :=
  memWrite_answersOnly (fun m => m.slotIndex_raises_of_aligned (by omega)) inst value be s

theorem storeHalf_answersOnly (inst : Nat) (addr value : Int) (s : State) :
    AnswersOnly [.outOfBounds] (storeHalf inst addr value s) := by
  rcases storeHalf_cases inst addr value s with ⟨-, h⟩ | ⟨-, v, be, h⟩
  · rw [h]; exact .next (State.answer_response ..) (by simp)
  · rw [h]; exact memWrite_aligned_answersOnly _ _ _ _ _

theorem memReset_answersOnly (inst : Nat) (s : State) : AnswersOnly [] (memReset inst s) := by
  rcases memReset_cases inst s with ⟨-, h⟩ | ⟨_, -, h⟩
  · rw [h]; exact .fault _
  · rw [h]; exact .next rfl (by simp)

theorem memNew_answersOnly {kinds : List ErrorKind} (hk : .outOfBounds ∈ kinds) (byteCapacity : Int) (ws : List Int)
    (s : State) : AnswersOnly kinds (memNew byteCapacity ws s) := by
  rcases memNew_cases byteCapacity ws s with ⟨-, h⟩ | ⟨-, -, h⟩ | ⟨_, -, -, -, -, h⟩
  · rw [h]; exact .next (State.answer_response ..) (by simp)
  · rw [h]; exact .error hk
  · rw [h]; exact .next rfl (by simp)

theorem memNewFromString_answersOnly (byteCapacity : Int) (text : Text) (s : State) :
    AnswersOnly [.outOfBounds, .malformedInput] (memNewFromString byteCapacity text s) := by
  rcases memNewFromString_cases byteCapacity text s with ⟨-, h⟩ | ⟨e, -, he, h⟩ | ⟨ws, -, -, h⟩
  · rw [h]; exact .next (State.answer_response ..) (by simp)
  · rw [h]; exact .error ((parseInitialWords_raises _).mono (by decide) e he)
  · rw [h]; exact memNew_answersOnly (List.mem_cons_self ..) _ _ _

/-- The error kinds an operation may raise (R300, R301; the store recipes: log 26). -/
def Request.errorKinds : Request → List ErrorKind
  | .encode _ _ => [.unknownInstruction]
  | .select _ => [.unknownInstruction]
  | .registerIndexOf _ => [.invalidRegister]
  | .assemble _ => lineKinds
  | .memNew _ _ => [.outOfBounds]
  | .memNewFromString _ _ => [.outOfBounds, .malformedInput]
  | .memRead _ _ => [.unaligned, .outOfBounds]
  | .memWrite _ _ _ _ => [.unaligned, .outOfBounds]
  | .storeByte _ _ _ => [.outOfBounds]
  | .storeHalf _ _ _ => [.outOfBounds]
  | .storeWord _ _ _ => [.unaligned, .outOfBounds]
  | _ => []

theorem serve_answersOnly (r : Request) (s : State) : AnswersOnly r.errorKinds (serve r s) := by
  cases r with
  | decode w => exact serve_decode_answersOnly w s
  | encodeR | encodeI | encodeS | encodeB | encodeU | encodeJ | formatOf | mnemonicOf =>
    exact .next (State.answer_response ..) (by simp)
  | encode name ops => exact .of_raisesOnly (encodeDispatch_raises machineConfig none name ops) (by simp)
  | registerIndexOf name => exact .of_raisesOnly (registerIndexOf_raises machineConfig none name) (by simp)
  | select name => exact .of_raisesOnly (selectRow_raises machineConfig none name) (by simp)
  | assemble source => exact .of_raisesOnly (assemble_raises source) (by simp)
  | memNew c ws => exact memNew_answersOnly (List.mem_singleton_self _) c ws s
  | memNewFromString c text => exact memNewFromString_answersOnly c text s
  | memRead inst addr => exact memRead_answersOnly inst addr s
  | memReset inst => exact memReset_answersOnly inst s
  | memWrite | storeWord => exact memWrite_answersOnly (fun m => m.slotIndex_raises _) _ _ _ _
  | storeByte => exact memWrite_aligned_answersOnly _ _ _ _ _
  | storeHalf inst addr value => exact storeHalf_answersOnly inst addr value s

/-- Settles O47: each operation answers the errors of what it computes, and the list of its kinds is the statement's. -/
theorem eachOperationRaisesOnlyItsErrorKinds : Obligations.EachOperationRaisesOnlyItsErrorKinds := by
  unfold Obligations.EachOperationRaisesOnlyItsErrorKinds
  intro s t r rest e hp h he
  have hkind : errorKind e ∈ r.errorKinds := serve_answersOnly r _ t e ((step_of_pending hp).symm.trans h) he
  cases r with
  | encode | select | registerIndexOf | memNew | storeByte | storeHalf => exact List.mem_singleton.mp hkind
  | assemble | memNewFromString | memRead | memWrite | storeWord => exact hkind
  | _ => exact absurd hkind List.not_mem_nil

end Sys2Proof.Machine
end
